-- ==== Sys2Proof/Word.lean ====
section
/-! DEFINITION. The words of the block: a framebuffer or response byte, a command word, and the five column
bytes of a glyph (spec/30_encoding.md R80, spec/00_scope.md R9 and R12). -/

namespace Sys2Proof

/-- A byte: a framebuffer byte, a glyph column, a response byte (spec/20_memory.md R55). -/
abbrev Byte := BitVec 8

/-- A command word: 32 bits, bit 0 least significant (spec/30_encoding.md R80, spec/00_scope.md R12). -/
abbrev Word := BitVec 32

/-- The GLYPH_COLS = 5 column bytes of one glyph; bit r of a column is the pixel of row r
(spec/00_scope.md R9, spec/10_state.md R24 and R25). -/
abbrev GlyphCols := Vector Byte 5

end Sys2Proof
end

