-- ==== Sys2Proof/Syntax.lean ====
section
/-! DEFINITION. The commands of the block, one constructor per row of spec/opcode_table.json (spec/30_encoding.md R85).
Operand fields are unsigned bit fields of the widths of spec/30_encoding.md R83; ignored bits are no operand (R88). -/

namespace Sys2Proof

inductive Instr where
  /-- NOP, OPC 0x00. -/
  | nop
  /-- CLEAR, OPC 0x01. -/
  | clear
  /-- SETPIX x, y, on; OPC 0x02. -/
  | setpix (x y : BitVec 10) (on : Bool)
  /-- GETPIX x, y; OPC 0x03. -/
  | getpix (x y : BitVec 10)
  /-- SETCUR col, row; OPC 0x04. -/
  | setcur (col row : BitVec 10)
  /-- WRITE b; OPC 0x05. -/
  | write (b : Byte)
  /-- WGLYPH g; OPC 0x06. -/
  | wglyph (g : Byte)
  /-- SETUG i, bitmap; OPC 0x07. Entry r of the bitmap is BMr, input row r. -/
  | setug (i : Byte) (bm : Vector Byte 8)
  /-- RDGLYPH g; OPC 0x08. -/
  | rdglyph (g : Byte)
  /-- START period; OPC 0x09. -/
  | start (period : BitVec 24)
  /-- STOP, OPC 0x0A. -/
  | stop
  /-- RDFB addr; OPC 0x0B. -/
  | rdfb (addr : BitVec 24)
  /-- WRFB addr, v; OPC 0x0C. -/
  | wrfb (addr : BitVec 24) (v : Byte)
  /-- RDSTAT, OPC 0x0D. -/
  | rdstat
  /-- A reserved opcode of the row 0x0E..0x0F. -/
  | reserved0E (opc : Byte)
  /-- A reserved opcode of the row 0x10..0x1F. -/
  | reserved10 (opc : Byte)
  /-- A reserved opcode of the row 0x20..0x3F. -/
  | reserved20 (opc : Byte)
  /-- A reserved opcode of the row 0x40..0x7F. -/
  | reserved40 (opc : Byte)
  /-- A reserved opcode of the row 0x80..0xFF. -/
  | reserved80 (opc : Byte)
  deriving DecidableEq, Repr

end Sys2Proof
end

