-- ==== Sys2Proof/WellFormed.lean ====
section
/-! DEFINITION. Which commands are well formed. Operand widths are in the types (spec/30_encoding.md R83 makes every
field value legal), so the only check is that a reserved command's opcode lies in its row (spec/30_encoding.md R85, the
five reserved rows of spec/opcode_table.json). -/

namespace Sys2Proof

/-- `i` stands for words of its own row of the opcode table. -/
def WellFormed (i : Instr) : Bool :=
  match i with
  | .nop => true
  | .clear => true
  | .setpix _ _ _ => true
  | .getpix _ _ => true
  | .setcur _ _ => true
  | .write _ => true
  | .wglyph _ => true
  | .setug _ _ => true
  | .rdglyph _ => true
  | .start _ => true
  | .stop => true
  | .rdfb _ => true
  | .wrfb _ _ => true
  | .rdstat => true
  | .reserved0E opc => opc &&& 0xFE == 0x0E
  | .reserved10 opc => opc &&& 0xF0 == 0x10
  | .reserved20 opc => opc &&& 0xE0 == 0x20
  | .reserved40 opc => opc &&& 0xC0 == 0x40
  | .reserved80 opc => opc &&& 0x80 == 0x80

end Sys2Proof
end

