-- ==== Sys2Proof/Decode.lean ====
section
/-! DEFINITION. Decoding the command port's words into commands, the encoder, and the word numbering of
spec/opcode_table.json (spec/30_encoding.md R80 to R90). The decoder is total: every lead word is some row's, and the
only rejections are a stream that has ended before a lead word or before a command's extension words (R90). -/

namespace Sys2Proof

/-- Why no command can be read yet. Neither is a fault of the machine: CMD waits (spec/30_encoding.md R90). -/
inductive DecodeError where
  /-- The port holds no word. -/
  | noLeadWord
  /-- The port holds the lead word of SETUG or WRFB but not all its extension words. -/
  | missingExtension
  deriving DecidableEq, Repr

/-- `OPC = w[31:24]` (spec/30_encoding.md R80). -/
def opcodeOf (w : Word) : Byte := w.extractLsb' 24 8

/-- The length in words that an opcode alone sets (spec/30_encoding.md R84, R89). -/
def lengthOfOpcode (opc : Byte) : Nat :=
  if opc = 0x07 then 3 else if opc = 0x0C then 2 else 1

/-- The row of a reserved opcode, by the masks of spec/opcode_table.json (spec/30_encoding.md R85, R87). -/
def decodeReserved (opc : Byte) : Instr :=
  if opc &&& 0xFE = 0x0E then .reserved0E opc
  else if opc &&& 0xF0 = 0x10 then .reserved10 opc
  else if opc &&& 0xE0 = 0x20 then .reserved20 opc
  else if opc &&& 0xC0 = 0x40 then .reserved40 opc
  else .reserved80 opc

/-- The bitmap rows of the two EU words: BMr is byte (r mod 4) of word 1 + (r div 4), little-endian
(spec/30_encoding.md R82 and R86, spec/41_glyph.md R140). -/
def bitmapOfWords (w1 w2 : Word) : Vector Byte 8 :=
  #v[w1.extractLsb' 0 8, w1.extractLsb' 8 8, w1.extractLsb' 16 8, w1.extractLsb' 24 8,
     w2.extractLsb' 0 8, w2.extractLsb' 8 8, w2.extractLsb' 16 8, w2.extractLsb' 24 8]

/-- The command of a lead word and its extension words (spec/30_encoding.md R81, R82, R85); extension words
an opcode does not have are not looked at. -/
def decodeWords (w0 w1 w2 : Word) : Instr :=
  let opc := opcodeOf w0
  if opc = 0x00 then .nop
  else if opc = 0x01 then .clear
  else if opc = 0x02 then .setpix (w0.extractLsb' 0 10) (w0.extractLsb' 10 10) (w0.getLsbD 20)
  else if opc = 0x03 then .getpix (w0.extractLsb' 0 10) (w0.extractLsb' 10 10)
  else if opc = 0x04 then .setcur (w0.extractLsb' 0 10) (w0.extractLsb' 10 10)
  else if opc = 0x05 then .write (w0.extractLsb' 0 8)
  else if opc = 0x06 then .wglyph (w0.extractLsb' 0 8)
  else if opc = 0x07 then .setug (w0.extractLsb' 0 8) (bitmapOfWords w1 w2)
  else if opc = 0x08 then .rdglyph (w0.extractLsb' 0 8)
  else if opc = 0x09 then .start (w0.extractLsb' 0 24)
  else if opc = 0x0A then .stop
  else if opc = 0x0B then .rdfb (w0.extractLsb' 0 24)
  else if opc = 0x0C then .wrfb (w0.extractLsb' 0 24) (w1.extractLsb' 0 8)
  else if opc = 0x0D then .rdstat
  else decodeReserved opc

/-- Read one command off the front of the port: find the length from OPC, read the extension words, and leave
the rest (spec/30_encoding.md R89). -/
def decode (words : List Word) : Except DecodeError (Instr × List Word) :=
  match words with
  | [] => .error .noLeadWord
  | w0 :: rest =>
    if rest.length < lengthOfOpcode (opcodeOf w0) - 1 then .error .missingExtension
    else .ok (decodeWords w0 (rest.getD 0 0) (rest.getD 1 0), rest.drop (lengthOfOpcode (opcodeOf w0) - 1))

/-- The opcode of a command (spec/30_encoding.md R85). -/
def Instr.opcode (i : Instr) : Byte :=
  match i with
  | .nop => 0x00
  | .clear => 0x01
  | .setpix _ _ _ => 0x02
  | .getpix _ _ => 0x03
  | .setcur _ _ => 0x04
  | .write _ => 0x05
  | .wglyph _ => 0x06
  | .setug _ _ => 0x07
  | .rdglyph _ => 0x08
  | .start _ => 0x09
  | .stop => 0x0A
  | .rdfb _ => 0x0B
  | .wrfb _ _ => 0x0C
  | .rdstat => 0x0D
  | .reserved0E opc => opc
  | .reserved10 opc => opc
  | .reserved20 opc => opc
  | .reserved40 opc => opc
  | .reserved80 opc => opc

/-- The length of a command in words (spec/30_encoding.md R84; the "words" of spec/opcode_table.json). -/
def Instr.words (i : Instr) : Nat :=
  match i with
  | .nop => 1
  | .clear => 1
  | .setpix _ _ _ => 1
  | .getpix _ _ => 1
  | .setcur _ _ => 1
  | .write _ => 1
  | .wglyph _ => 1
  | .setug _ _ => 3
  | .rdglyph _ => 1
  | .start _ => 1
  | .stop => 1
  | .rdfb _ => 1
  | .wrfb _ _ => 2
  | .rdstat => 1
  | .reserved0E _ => 1
  | .reserved10 _ => 1
  | .reserved20 _ => 1
  | .reserved40 _ => 1
  | .reserved80 _ => 1

/-- The operand area OPR of the lead word, ignored bits 0 (spec/30_encoding.md R81, R91). -/
def Instr.operandArea (i : Instr) : BitVec 24 :=
  match i with
  | .nop => 0
  | .clear => 0
  | .setpix x y on => 0#3 ++ BitVec.ofBool on ++ y ++ x
  | .getpix x y => 0#4 ++ y ++ x
  | .setcur col row => 0#4 ++ row ++ col
  | .write b => 0#16 ++ b
  | .wglyph g => 0#16 ++ g
  | .setug i _ => 0#16 ++ i
  | .rdglyph g => 0#16 ++ g
  | .start period => period
  | .stop => 0
  | .rdfb addr => addr
  | .wrfb addr _ => addr
  | .rdstat => 0
  | .reserved0E _ => 0
  | .reserved10 _ => 0
  | .reserved20 _ => 0
  | .reserved40 _ => 0
  | .reserved80 _ => 0

/-- The extension words of a command, ignored bits 0 (spec/30_encoding.md R82, R86). -/
def Instr.extensionWords (i : Instr) : List Word :=
  match i with
  | .nop => []
  | .clear => []
  | .setpix _ _ _ => []
  | .getpix _ _ => []
  | .setcur _ _ => []
  | .write _ => []
  | .wglyph _ => []
  | .setug _ bm => [bm[3] ++ bm[2] ++ bm[1] ++ bm[0], bm[7] ++ bm[6] ++ bm[5] ++ bm[4]]
  | .rdglyph _ => []
  | .start _ => []
  | .stop => []
  | .rdfb _ => []
  | .wrfb _ v => [0#24 ++ v]
  | .rdstat => []
  | .reserved0E _ => []
  | .reserved10 _ => []
  | .reserved20 _ => []
  | .reserved40 _ => []
  | .reserved80 _ => []

/-- The words of a command (spec/30_encoding.md R81, R82, R91). -/
def encode (i : Instr) : List Word :=
  (i.opcode ++ i.operandArea) :: i.extensionWords

/-- The words of an instruction numbered as spec/opcode_table.json numbers them: bit 0 is the least significant
bit of the first word, every bit at or above `nbits` is 0, and three words (the longest command) are laid out. -/
def tableWords (nbits w : Nat) : List Word :=
  let v := w % 2 ^ nbits
  [BitVec.ofNat 32 v, BitVec.ofNat 32 (v / 2 ^ 32), BitVec.ofNat 32 (v / 2 ^ 64)]

/-- The command the decoder reads from an instruction in the table's numbering. -/
def decodeTableWord (nbits w : Nat) : Option Instr :=
  match decode (tableWords nbits w) with
  | .ok (i, _) => some i
  | .error _ => none

end Sys2Proof
end

