-- ==== Sys2Proof/Config.lean ====
section
/-! DEFINITION. The configuration of one block (spec/10_state.md R42): the OPEN parameters of spec/00_scope.md R6 to R11,
which no step changes, within the ranges the spec gives them; and the one configuration State.reset names. -/

namespace Sys2Proof

/-- The OPEN parameters of the block. A value outside the spec's ranges is no configuration
(spec/93_implementation_defined.md U6: refuse): the last five fields carry the ranges. -/
structure Config where
  /-- `W`: logical pixel columns (spec/00_scope.md R6). -/
  width : Nat
  /-- `H`: physical pixel rows (spec/00_scope.md R6). -/
  height : Nat
  /-- `DB`: leading non-addressable bits of every row (spec/00_scope.md R6). -/
  dummyBits : Nat
  /-- `FONT[n]`, n in 0..474: the built-in font (spec/10_state.md R25). -/
  font : Vector Byte 475
  /-- `EXT_FONT[e]`, e in 0..6: the extended-glyph table (spec/10_state.md R26). -/
  extFont : Vector GlyphCols 7
  /-- The lower of the two column indices in `EXT_ADJ_COLS` (spec/00_scope.md R10). -/
  adjColLo : Fin 5
  /-- The higher of the two column indices in `EXT_ADJ_COLS` (spec/00_scope.md R10). -/
  adjColHi : Fin 5
  /-- `FS_ACTIVE`: the electrical level of an asserted frame-start strobe (spec/00_scope.md R11). -/
  fsActive : Bool
  /-- `LL_ACTIVE`: the electrical level of an asserted line-latch strobe (spec/00_scope.md R11). -/
  llActive : Bool
  /-- `PULSE_US`: the minimum line-latch pulse width in microseconds (spec/00_scope.md R11). -/
  pulseUs : Nat
  /-- `BUS_CLOCK_HZ` (spec/00_scope.md R11). -/
  busClockHz : Nat
  /-- `BUS_MODE`: an opaque name of a bus mode, written as a number (spec/00_scope.md R11; DESIGN CHOICE, log entry 15). -/
  busMode : Nat
  /-- 6 ≤ W ≤ 1024 (spec/00_scope.md R6). -/
  width_range : 6 ≤ width ∧ width ≤ 1024 := by decide
  /-- 8 ≤ H ≤ 1024 (spec/00_scope.md R6). -/
  height_range : 8 ≤ height ∧ height ≤ 1024 := by decide
  /-- 0 ≤ DB ≤ 8 (spec/00_scope.md R6). -/
  dummyBits_range : dummyBits ≤ 8 := by decide
  /-- `EXT_ADJ_COLS` holds two distinct columns (spec/00_scope.md R10). -/
  adjCols_distinct : adjColLo < adjColHi := by decide
  /-- `PULSE_US` is a positive integer (spec/00_scope.md R11). -/
  pulseUs_pos : 0 < pulseUs := by decide
  deriving DecidableEq, Repr

namespace Config

/-- FREE VALUE: byte n of the built-in font of the reference configuration, which the spec keeps symbolic
(spec/95_test_vectors.md section 1; log entry 2). -/
opaque openFont : Nat → Byte

/-- FREE VALUE: column byte n = 5·e + c of the extended font of the reference configuration
(spec/95_test_vectors.md section 1; log entry 2). -/
opaque openExtFont : Nat → Byte

/-- FREE VALUE: FS_ACTIVE of the reference configuration (spec/92_eei_decisions.md D19; log entry 2). -/
opaque openFsActive : Bool

/-- FREE VALUE: LL_ACTIVE of the reference configuration (spec/92_eei_decisions.md D19; log entry 2). -/
opaque openLlActive : Bool

/-- FREE VALUE: PULSE_US − 1 of the reference configuration; PULSE_US itself is positive
(spec/92_eei_decisions.md D20; log entry 2). -/
opaque openPulsePred : Nat

/-- FREE VALUE: BUS_CLOCK_HZ of the reference configuration (spec/92_eei_decisions.md D21; log entry 2). -/
opaque openBusClockHz : Nat

/-- FREE VALUE: BUS_MODE of the reference configuration (spec/92_eei_decisions.md D21; log entry 2). -/
opaque openBusMode : Nat

/-- The reference configuration RC (spec/92_eei_decisions.md D39, spec/95_test_vectors.md section 1): the
geometry and EXT_ADJ_COLS are RC's, everything RC leaves symbolic is a free value. DESIGN CHOICE, log entry 1: the
spec's geometry is OPEN, and State.reset has to name one. -/
def reference : Config where
  width := 14
  height := 16
  dummyBits := 4
  font := Vector.ofFn fun n => openFont n.val
  extFont := Vector.ofFn fun e => Vector.ofFn fun c => openExtFont (5 * e.val + c.val)
  adjColLo := 1
  adjColHi := 3
  fsActive := openFsActive
  llActive := openLlActive
  pulseUs := openPulsePred + 1
  busClockHz := openBusClockHz
  busMode := openBusMode
  pulseUs_pos := Nat.succ_pos _

end Config

end Sys2Proof
end

