-- ==== Sys2Proof/Machine/State.lean ====
section
/-! DEFINITION. The architectural state of spec/10_state.md as plain data, the inputs the environment supplies (the words
on the command port, the ticks of the TIMER agent), and the state after reset (spec/70_reset_and_hazards.md R280). -/

namespace Sys2Proof.Machine

/-- The framebuffer's contents as (linear address, byte) cells, addresses strictly rising, no cell equal to what an
unlisted address reads as (`Memory.wf`, Machine/Ops.lean); the linear address of FB[r][k] is r·BPR + k
(spec/20_memory.md R50). -/
abbrev Memory := List Host.Cell

/-- An output event of TRACE (spec/10_state.md R38). -/
inductive Event where
  /-- `BYTE(b)`: `transferByte(b)`, the byte's bits most-significant first (`Event.busBits`, Machine/Ops.lean). -/
  | byte (b : Byte)
  /-- `FS(l)`: the frame-start level set to logical l. -/
  | fs (level : Bool)
  /-- `LL(l)`: the line-latch level set to logical l. -/
  | ll (level : Bool)
  /-- `WAIT(us)`: a busy-wait of at least us microseconds. -/
  | wait (us : Nat)
  /-- `TCFG(period)`: the timer configured. -/
  | tcfg (period : BitVec 24)
  /-- `TEN`: the timer enabled. -/
  | ten
  /-- `TDIS`: the timer disabled. -/
  | tdis
  /-- `SBEGIN(BUS_CLOCK_HZ, BUS_MODE)`: the bus clock configured and the exclusive session begun. -/
  | sbegin (clockHz mode : Nat)
  /-- `SEND`: the exclusive session ended. -/
  | send
  deriving DecidableEq, Repr

/-- One micro-step of a command: one framebuffer byte access, or one atomic state update (spec/00_scope.md R17). -/
inductive Micro where
  /-- `v = MemRead(addr, 1)`: the byte read is held as the command's `v` (spec/40_pixel.md R110, R111, R119). -/
  | readByte (addr : Nat)
  /-- `MemWrite(addr, 1, v | mask)` or `MemWrite(addr, 1, v & ~mask)`: micro-step 2 of PixWrite (spec/40_pixel.md R110). -/
  | writeBit (addr : Nat) (mask : Byte) (on : Bool)
  /-- `MemWrite(addr, 1, b)` (spec/40_pixel.md R112, R121). -/
  | writeByte (addr : Nat) (b : Byte)
  /-- `Respond((v >> (7 - pos)) & 1)` (spec/40_pixel.md R111, R114). -/
  | respondBit (pos : Nat)
  /-- `Respond(v)` (spec/40_pixel.md R119). -/
  | respondByte
  /-- `Respond(b0, b1, ...)` of bytes that no other agent can change. -/
  | respond (bytes : List Byte)
  /-- `U_EXP <- 0; U_ACC <- 0` (spec/42_text.md R179). -/
  | decoderIdle
  /-- `U_EXP <- 1; U_ACC <- acc` (spec/42_text.md R177). -/
  | decoderPend (acc : BitVec 5)
  /-- `NewLine()` (spec/42_text.md R176). -/
  | newLine
  /-- `Advance()` (spec/42_text.md R185). -/
  | advance
  /-- The two clamped cursor writes of SETCUR (spec/42_text.md R174). -/
  | placeCursor (col row : BitVec 10)
  /-- `UG[i] <- cols` (spec/41_glyph.md R140). -/
  | setUserGlyph (i : Fin 8) (cols : GlyphCols)
  /-- START's one atomic step (spec/43_refresh.md R201). -/
  | startRefresh (period : BitVec 24)
  /-- STOP's one atomic step (spec/43_refresh.md R204). -/
  | stopRefresh
  /-- RDSTAT's one atomic step (spec/44_system.md R232). -/
  | readStatus
  deriving DecidableEq, Repr

/-- A command in progress: the command, the micro-steps it has still to take, and the byte `v` it last read
(spec/10_state.md R41). -/
structure InFlight where
  command : Instr
  todo : List Micro
  latch : Byte
  deriving DecidableEq, Repr

/-- Everything spec/10_state.md gives the block, the configuration (R42), and the environment's inputs. -/
structure State where
  /-- The configuration; no step changes it (spec/10_state.md R42). -/
  cfg : Config
  /-- `CSP` (spec/10_state.md R21). -/
  csp : Nat
  /-- `CMD_INFLIGHT` (spec/10_state.md R41). -/
  inflight : Option InFlight
  /-- `FB` (spec/10_state.md R22). -/
  fb : Memory
  /-- `UG` (spec/10_state.md R24). -/
  ug : Vector GlyphCols 8
  /-- `CUR_COL` (spec/10_state.md R27). -/
  curCol : BitVec 10
  /-- `CUR_ROW` (spec/10_state.md R28). -/
  curRow : BitVec 10
  /-- `U_EXP` (spec/10_state.md R29). -/
  uExp : BitVec 1
  /-- `U_ACC` (spec/10_state.md R30). -/
  uAcc : BitVec 5
  /-- `RUNNING` (spec/10_state.md R31). -/
  running : Bool
  /-- `REFRESH_ROW` (spec/10_state.md R32). -/
  refreshRow : BitVec 10
  /-- `TIMER_PERIOD` (spec/10_state.md R33). -/
  timerPeriod : BitVec 24
  /-- `TIMER_EN` (spec/10_state.md R34). -/
  timerEn : Bool
  /-- `SESSION_OPEN` (spec/10_state.md R35). -/
  sessionOpen : Bool
  /-- `FS_LVL` (spec/10_state.md R36). -/
  fsLvl : Bool
  /-- `LL_LVL` (spec/10_state.md R36). -/
  llLvl : Bool
  /-- `RESP`, oldest byte first (spec/10_state.md R39). -/
  resp : List Byte
  /-- `TRACE`, oldest event first (spec/10_state.md R38). -/
  trace : List Event
  /-- The command port: the words the host has written and the decoder has not yet read, first word first
  (spec/20_memory.md R50; log entry 9). -/
  port : List Word
  /-- The TIMER agent's deliveries, an INPUT of the model and not state of the block: entry n is how many ticks arrive
  at the n-th point from now where a tick may be taken (before a command, and at each StepPoint), entry 0 being the
  point where CMD now stands; past the end of the list no tick arrives (spec/60_exceptions.md R256; log entry 5). -/
  ticks : List Nat
  deriving DecidableEq, Repr

/-- The reasons the machine stops with a fault: there are none. The block raises no exception and has no fault, trap
or error status (spec/60_exceptions.md R250), so nobody raises one. -/
inductive Fault where
  deriving DecidableEq, Repr

/-- The reasons for which an instruction has no meaning. -/
inductive Refusal where
  /-- A command of the opcode table whose meaning is not written. Raised by exec's arm of that command and by nothing
  else; no arm raises it now. Safe: the machine stops where the hardware goes on. -/
  | notModelled (mnemonic : String)
  deriving DecidableEq, Repr

/-- The state after reset over any draw of the two unspecified arrays and any configuration: every register at
the value spec/70_reset_and_hazards.md R280 gives it, the streams empty (R281), no word on the port and no tick to come. -/
def State.resetWith (cfg : Config) (fb : Memory) (ug : Vector GlyphCols 8) : State where
  cfg := cfg
  csp := 0
  inflight := none
  fb := fb
  ug := ug
  curCol := 0
  curRow := 0
  uExp := 0
  uAcc := 0
  running := false
  refreshRow := 0
  timerPeriod := 0
  timerEn := false
  sessionOpen := false
  fsLvl := false
  llLvl := false
  resp := []
  trace := []
  port := []
  ticks := []

/-- The machine right after reset. The configuration is the reference configuration (DESIGN CHOICE, log entry 1); the
framebuffer lists nothing, so every byte reads as Memory.unlisted (DESIGN CHOICE, log entry 3); the user glyphs are
all zero (DESIGN CHOICE, log entry 4). -/
def State.reset : State :=
  State.resetWith Config.reference [] (Vector.replicate 8 (Vector.replicate 5 0))

end Sys2Proof.Machine
end

