-- ==== Sys2Proof/Machine/Flags.lean ====
section
/-! DEFINITION. The block has no condition flags: no command computes one (spec/40_pixel.md, its opening paragraph;
spec/10_state.md R20 and R43). What it has of flag-like state is read as one image, by RDSTAT, and that image is here. -/

namespace Sys2Proof.Machine

/-- The 11 bytes of the status image, multi-byte fields little-endian (spec/10_state.md R40, spec/44_system.md R232). -/
def State.statusImage (s : State) : List Byte :=
  [ 0#4 ++ BitVec.ofBool s.sessionOpen ++ BitVec.ofBool s.timerEn ++ s.uExp ++ BitVec.ofBool s.running,
    0#3 ++ s.uAcc,
    s.refreshRow.extractLsb' 0 8, s.refreshRow.extractLsb' 8 8,
    s.curCol.extractLsb' 0 8, s.curCol.extractLsb' 8 8,
    s.curRow.extractLsb' 0 8, s.curRow.extractLsb' 8 8,
    s.timerPeriod.extractLsb' 0 8, s.timerPeriod.extractLsb' 8 8, s.timerPeriod.extractLsb' 16 8 ]

end Sys2Proof.Machine
end

