-- ==== Sys2Proof/Machine/Operands.lean ====
section
/-! DEFINITION. What the commands' operands stand for: the geometry derived from the configuration, the pixel transform,
the character cell, the clamp of the cursor, the bitmap transposition, and the codepoint of a two-byte sequence. -/

namespace Sys2Proof

/-- `BPR = (W + DB + 7) div 8` (spec/00_scope.md R7). -/
def Config.bpr (c : Config) : Nat := (c.width + c.dummyBits + 7) / 8

/-- The framebuffer's size, `H × BPR` bytes (spec/00_scope.md R7, spec/20_memory.md R50). -/
def Config.fbSize (c : Config) : Nat := c.height * c.bpr

/-- `CHAR_W` (spec/00_scope.md R8). -/
def charW : Nat := 6

/-- `CHAR_H` (spec/00_scope.md R8). -/
def charH : Nat := 8

/-- `GLYPH_DRAW_ROWS` (spec/00_scope.md R9). -/
def glyphDrawRows : Nat := 7

/-- `COLS = W div CHAR_W` (spec/00_scope.md R8). -/
def Config.cols (c : Config) : Nat := c.width / charW

/-- `ROWS = H div CHAR_H` (spec/00_scope.md R8). -/
def Config.rows (c : Config) : Nat := c.height / charH

/-- `DM = (0xFF << (8 - DB)) & 0xFF` (spec/20_memory.md R53). -/
def Config.dummyMask (c : Config) : Byte := 0xFF#8 <<< (8 - c.dummyBits)

/-- The linear address of `FB[r][k]` (spec/20_memory.md R50). -/
def Config.byteAddr (c : Config) (r k : Nat) : Nat := r * c.bpr + k

/-- The physical bit position of logical column x: mirrored, then offset by the dummy bits (spec/20_memory.md R52). -/
def Config.pixelPos (c : Config) (x : Nat) : Nat := c.width - 1 - x + c.dummyBits

/-- The linear address of the byte that holds logical pixel (x, y); y is not mirrored (spec/20_memory.md R52). -/
def Config.pixelAddr (c : Config) (x y : Nat) : Nat := c.byteAddr y (c.pixelPos x / 8)

/-- The mask of physical bit position p in its byte, MSB first (spec/20_memory.md R51). -/
def bitMask (p : Nat) : Byte := 0x80#8 >>> (p % 8)

/-- The mask of logical column x in its byte (spec/20_memory.md R52). -/
def Config.pixelMask (c : Config) (x : Nat) : Byte := bitMask (c.pixelPos x)

/-- The pixel lies on the display: x < W and y < H (spec/40_pixel.md R110). -/
abbrev Config.inDisplay (c : Config) (x y : Nat) : Prop := x < c.width ∧ y < c.height

/-- A cell coordinate clamped to its last legal value (spec/42_text.md R174). -/
def clampCell (v : BitVec 10) (count : Nat) : BitVec 10 := BitVec.ofNat 10 (min v.toNat (count - 1))

/-- Column c of an 8-row input bitmap, transposed: bit r is bit (4 - c) of row r (spec/41_glyph.md R140). -/
def bitmapColumn (bm : Vector Byte 8) (c : Nat) : Byte :=
  BitVec.ofBool (bm[7].getLsbD (4 - c)) ++ BitVec.ofBool (bm[6].getLsbD (4 - c)) ++
  BitVec.ofBool (bm[5].getLsbD (4 - c)) ++ BitVec.ofBool (bm[4].getLsbD (4 - c)) ++
  BitVec.ofBool (bm[3].getLsbD (4 - c)) ++ BitVec.ofBool (bm[2].getLsbD (4 - c)) ++
  BitVec.ofBool (bm[1].getLsbD (4 - c)) ++ BitVec.ofBool (bm[0].getLsbD (4 - c))

/-- The five column bytes of an input bitmap (spec/41_glyph.md R140). -/
def bitmapColumns (bm : Vector Byte 8) : GlyphCols :=
  #v[bitmapColumn bm 0, bitmapColumn bm 1, bitmapColumn bm 2, bitmapColumn bm 3, bitmapColumn bm 4]

/-- The 11-bit codepoint of a two-byte sequence, `(U_ACC << 6) | (B & 0x3F)` (spec/42_text.md R178). -/
def twoByteCodepoint (acc : BitVec 5) (b : Byte) : BitVec 11 := acc ++ b.setWidth 6

/-- The codepoint of a one-byte sequence, the byte's value (spec/42_text.md R177). -/
def oneByteCodepoint (b : Byte) : BitVec 11 := b.setWidth 11

end Sys2Proof
end

