-- ==== Sys2Proof/Machine/Ops.lean ====
section
/-! DEFINITION. The operations every command shares: memory and framebuffer access, the output streams, the tick and
the row transmission, the points where a tick may be taken, and running a command's micro-steps. The block has no
exception (spec/60_exceptions.md R250): its one transfer of control is the tick, entered by State.takeTick between two
micro-steps and left by State.resume with nothing to restore (spec/60_exceptions.md R259 and R260). -/

namespace Sys2Proof.Machine

/-- What an address no cell lists reads as. DESIGN CHOICE, log entry 3: the spec leaves the framebuffer's reset
contents open (spec/10_state.md R22). -/
def Memory.unlisted : Byte := 0x00

/-- The byte at an address. -/
def Memory.read (m : Memory) (x : Nat) : Byte :=
  match m with
  | [] => Memory.unlisted
  | (a, b) :: rest => if x = a then b else Memory.read rest x

/-- Store a byte, keeping the canonical form. -/
def Memory.write (m : Memory) (x : Nat) (v : Byte) : Memory :=
  match m with
  | [] => if v = Memory.unlisted then [] else [(x, v)]
  | (a, b) :: rest =>
    if x < a then (if v = Memory.unlisted then (a, b) :: rest else (x, v) :: (a, b) :: rest)
    else if x = a then (if v = Memory.unlisted then rest else (a, v) :: rest)
    else (a, b) :: Memory.write rest x v

/-- The canonical form: addresses strictly rising, no cell equal to what an unlisted address reads as. -/
abbrev Memory.wf (m : Memory) : Prop :=
  m.Pairwise (fun c d => c.1 < d.1) ∧ ∀ c ∈ m, c.2 ≠ Memory.unlisted

/-- `MemRead(addr, 1)`; an address outside the framebuffer reads 0x00 (spec/20_memory.md R50 and R59). -/
def State.fbRead (s : State) (addr : Nat) : Byte :=
  if addr < s.cfg.fbSize then Memory.read s.fb addr else 0x00

/-- `MemWrite(addr, 1, v)`; an address outside the framebuffer is ignored (spec/20_memory.md R50 and R59). -/
def State.fbWrite (s : State) (addr : Nat) (v : Byte) : State :=
  if addr < s.cfg.fbSize then { s with fb := Memory.write s.fb addr v } else s

/-- `Emit(ev)` of several events in order (spec/00_scope.md R14, spec/10_state.md R38). -/
def State.emit (s : State) (evs : List Event) : State := { s with trace := s.trace ++ evs }

/-- `Respond(b0, b1, ...)` (spec/00_scope.md R14, spec/10_state.md R39). -/
def State.respond (s : State) (bytes : List Byte) : State := { s with resp := s.resp ++ bytes }

/-- `FS_LVL <- l; Emit(FS(l))` (spec/43_refresh.md R207). -/
def State.setFs (s : State) (l : Bool) : State := { s with fsLvl := l }.emit [.fs l]

/-- `LL_LVL <- l; Emit(LL(l))` (spec/43_refresh.md R207). -/
def State.setLl (s : State) (l : Bool) : State := { s with llLvl := l }.emit [.ll l]

/-- The electrical level of the frame-start output (spec/10_state.md R36). -/
def State.fsPin (s : State) : Bool := if s.fsLvl then s.cfg.fsActive else !s.cfg.fsActive

/-- The electrical level of the line-latch output (spec/10_state.md R36). -/
def State.llPin (s : State) : Bool := if s.llLvl then s.cfg.llActive else !s.cfg.llActive

/-- The bits of one byte in the order they leave on the serial bus, most-significant bit first: `transferByte(b)`
(spec/00_scope.md R11, spec/20_memory.md R54, spec/60_exceptions.md R266). -/
def transferBits (b : Byte) : List Bool := (List.range 8).map fun n => b.getLsbD (7 - n)

/-- The bits an output event puts on the serial bus, first bit first: a byte's eight, and none for every other event
(spec/60_exceptions.md R266). -/
def Event.busBits (e : Event) : List Bool :=
  match e with
  | .byte b => transferBits b
  | .fs _ => []
  | .ll _ => []
  | .wait _ => []
  | .tcfg _ => []
  | .ten => []
  | .tdis => []
  | .sbegin _ _ => []
  | .send => []

/-- Every bit the block has put on the serial bus, first bit first: a view of TRACE, which is its one store
(spec/20_memory.md R54, spec/10_state.md R38). -/
def State.busBits (s : State) : List Bool := s.trace.flatMap Event.busBits

/-- `FB[r][0] <- FB[r][0] & ~DM` (spec/43_refresh.md R208). -/
def State.clearDummyBits (s : State) (r : Nat) : State :=
  s.fbWrite (s.cfg.byteAddr r 0) (s.fbRead (s.cfg.byteAddr r 0) &&& ~~~s.cfg.dummyMask)

/-- `for k in 0 .. BPR - 1: Emit(BYTE(FB[r][k]))` (spec/43_refresh.md R210); on the bus each byte's bits leave as
`transferBits` says, so the row's bits leave in ascending physical position (spec/20_memory.md R54). -/
def State.sendRow (s : State) (r : Nat) : State :=
  s.emit ((List.range s.cfg.bpr).map fun k => .byte (s.fbRead (s.cfg.byteAddr r k)))

/-- The line-latch pulse (spec/43_refresh.md R211). -/
def State.pulseLatch (s : State) : State :=
  ((s.setLl true).emit [.wait s.cfg.pulseUs]).setLl false

/-- `TransmitRow(r, first)` (spec/43_refresh.md R207). -/
def State.transmitRow (s : State) (r : Nat) (first : Bool) : State :=
  let s1 := if first then s.setFs true else s
  let s2 := ((s1.clearDummyBits r).sendRow r).pulseLatch
  if first then s2.setFs false else s2

/-- `TICK()` (spec/43_refresh.md R206). -/
def State.tick (s : State) : State :=
  if s.running = false then s
  else
    let r := s.refreshRow.toNat
    let t := s.transmitRow r (r == 0)
    { t with refreshRow := BitVec.ofNat 10 ((r + 1) % s.cfg.height) }

/-- A tick is due at the point where CMD stands (spec/20_memory.md R62; log entry 5). -/
def State.tickDue (s : State) : Bool := decide (0 < s.ticks.headD 0)

/-- The TICK agent's atomic step: one of the ticks due here is taken. Taking it saves no state: CMD_INFLIGHT holds
CMD's position unchanged (spec/60_exceptions.md R259). -/
def State.takeTick (s : State) : State :=
  { s.tick with ticks := (s.ticks.headD 0 - 1) :: s.ticks.tail }

/-- CMD leaves the point where it stands for the next one. -/
def State.leavePoint (s : State) : State := { s with ticks := s.ticks.tail }

/-- The command completes: CSP advances by its length and CMD stands between two commands
(spec/30_encoding.md R89, spec/10_state.md R21 and R41). -/
def State.complete (s : State) (i : Instr) : State :=
  { s with csp := s.csp + i.words, inflight := none, ticks := s.ticks.tail }

/-- The command is left in progress at a StepPoint (spec/10_state.md R41). -/
def State.park (s : State) (i : Instr) (todo : List Micro) (latch : Byte) : State :=
  { s with inflight := some ⟨i, todo, latch⟩ }

/-- `NewLine()` (spec/42_text.md R176). -/
def State.newLine (s : State) : State :=
  { s with
    curRow := if s.curRow.toNat < s.cfg.rows - 1 then s.curRow + 1 else s.curRow
    curCol := 0 }

/-- `Advance()` (spec/42_text.md R185). -/
def State.advance (s : State) : State :=
  { s with curCol := if s.curCol.toNat < s.cfg.cols - 1 then s.curCol + 1 else s.curCol }

/-- START's atomic step (spec/43_refresh.md R201 to R203). -/
def State.startRefresh (s : State) (period : BitVec 24) : State :=
  if period = 0#24 then s
  else
    let s1 := { s with timerPeriod := period }.emit [.tcfg period]
    let s2 := { s1 with refreshRow := 0 }
    let s3 :=
      if s2.running = false then
        { s2 with running := true, sessionOpen := true }.emit [.sbegin s.cfg.busClockHz s.cfg.busMode]
      else s2
    { s3 with timerEn := true }.emit [.ten]

/-- STOP's atomic step (spec/43_refresh.md R204 and R205). -/
def State.stopRefresh (s : State) : State :=
  let s1 := { s with timerEn := false }.emit [.tdis]
  if s1.running = true then { s1 with running := false, sessionOpen := false }.emit [.send] else s1

/-- The effect of one micro-step, `v` being the byte the command last read. -/
def Micro.effect (m : Micro) (v : Byte) (s : State) : State :=
  match m with
  | .readByte _ => s
  | .writeBit addr mask on => s.fbWrite addr (if on then v ||| mask else v &&& ~~~mask)
  | .writeByte addr b => s.fbWrite addr b
  | .respondBit pos => s.respond [(v >>> (7 - pos)) &&& 1]
  | .respondByte => s.respond [v]
  | .respond bytes => s.respond bytes
  | .decoderIdle => { s with uExp := 0, uAcc := 0 }
  | .decoderPend acc => { s with uExp := 1, uAcc := acc }
  | .newLine => s.newLine
  | .advance => s.advance
  | .placeCursor col row =>
    { s with curCol := clampCell col s.cfg.cols, curRow := clampCell row s.cfg.rows }
  | .setUserGlyph i cols => { s with ug := s.ug.set i cols }
  | .startRefresh period => s.startRefresh period
  | .stopRefresh => s.stopRefresh
  | .readStatus => s.respond s.statusImage

/-- The byte `v` the command holds after one micro-step. -/
def Micro.latch (m : Micro) (v : Byte) (s : State) : Byte :=
  match m with
  | .readByte addr => s.fbRead addr
  | .writeBit _ _ _ => v
  | .writeByte _ _ => v
  | .respondBit _ => v
  | .respondByte => v
  | .respond _ => v
  | .decoderIdle => v
  | .decoderPend _ => v
  | .newLine => v
  | .advance => v
  | .placeCursor _ _ => v
  | .setUserGlyph _ _ => v
  | .startRefresh _ => v
  | .stopRefresh => v
  | .readStatus => v

/-- CMD has just taken a micro-step and `todo` remains: with nothing left the command completes; at a StepPoint where
a tick is due CMD is preempted; at any other StepPoint CMD goes on (spec/20_memory.md R61 and R62). -/
def State.carryOn (i : Instr) (todo : List Micro) (v : Byte) (s : State) : State :=
  match todo with
  | [] => s.complete i
  | m :: rest =>
    if s.leavePoint.tickDue then s.leavePoint.park i (m :: rest) v
    else State.carryOn i rest (m.latch v s.leavePoint) (m.effect v s.leavePoint)

/-- CMD takes the next micro-step of a command and carries on: the return from a tick, which restores nothing
(spec/60_exceptions.md R260). -/
def State.resume (s : State) (c : InFlight) : State :=
  match c.todo with
  | [] => s.complete c.command
  | m :: rest => State.carryOn c.command rest (m.latch c.latch s) (m.effect c.latch s)

/-- CMD starts a command whose micro-steps are `todo`. The byte `v` is read before any micro-step uses it, so its
starting value reaches nothing (log entry 14). -/
def State.issue (s : State) (i : Instr) (todo : List Micro) : State := s.resume ⟨i, todo, 0#8⟩

/-- `PixWrite(x, y, on)` as micro-steps; none when out of range (spec/40_pixel.md R110). -/
def pixWrite (c : Config) (x y : Nat) (on : Bool) : List Micro :=
  if c.width ≤ x ∨ c.height ≤ y then []
  else [.readByte (c.pixelAddr x y), .writeBit (c.pixelAddr x y) (c.pixelMask x) on]

end Sys2Proof.Machine
end

