-- ==== Sys2Proof/Machine/Glyph.lean ====
section
/-! DEFINITION. The glyph source (spec/41_glyph.md): resolveGlyph, ExtCols, columnsFor, SETUG, RDGLYPH. -/

namespace Sys2Proof.Machine

/-- `QMARK`, the glyph code of `?` (spec/00_scope.md R9). -/
def qmark : Byte := 0x3F

/-- `EXT_CP[0..6]`, the extended codepoints (spec/00_scope.md R10). -/
def extCp : List (BitVec 11) := [0x0C4, 0x0D6, 0x0DC, 0x0E4, 0x0F6, 0x0FC, 0x0DF]

/-- `EXT_BASE` (spec/00_scope.md R10). -/
def extBase : Byte := 0x80

/-- `EXT_SHARP_S`, the index of the extended glyph exempt from the adjustment (spec/00_scope.md R10). -/
def extSharpS : Nat := 6

/-- `EXT_ADJ_MASK` (spec/00_scope.md R10, spec/90_conflicts.md C3). -/
def extAdjMask : Byte := 0x01

/-- `resolveGlyph(cp)` (spec/41_glyph.md R142). -/
def resolveGlyph (cp : BitVec 11) : Byte :=
  if 0x20 ≤ cp ∧ cp ≤ 0x7E then cp.setWidth 8
  else
    match extCp.findIdx? (· == cp) with
    | some e => extBase + BitVec.ofNat 8 e
    | none => qmark

/-- `ExtCols(e)`: the adjustment OR-ed into the two EXT_ADJ_COLS columns of a copy, but for the sharp S
(spec/41_glyph.md R144 and R145). -/
def extCols (c : Config) (e : Fin 7) : GlyphCols :=
  if e.val = extSharpS then c.extFont[e]
  else Vector.ofFn fun j =>
    if j = c.adjColLo ∨ j = c.adjColHi then c.extFont[e][j] ||| extAdjMask else c.extFont[e][j]

/-- The five bytes of built-in glyph number n, `FONT[n·5 .. n·5+4]` (spec/10_state.md R25). -/
def fontCols (c : Config) (n : Fin 95) : GlyphCols :=
  Vector.ofFn fun j => c.font[n.val * 5 + j.val]'(by have := n.isLt; have := j.isLt; omega)

/-- `columnsFor(g)` (spec/41_glyph.md R146). -/
def columnsFor (s : State) (g : Byte) : GlyphCols :=
  if hu : g.toNat ≤ 7 then s.ug[g.toNat]
  else if he : extBase.toNat ≤ g.toNat ∧ g.toNat ≤ extBase.toNat + 6 then
    extCols s.cfg ⟨g.toNat - extBase.toNat, by omega⟩
  else if hp : 0x20 ≤ g.toNat ∧ g.toNat ≤ 0x7E then
    fontCols s.cfg ⟨g.toNat - 0x20, by omega⟩
  else fontCols s.cfg ⟨qmark.toNat - 0x20, by decide⟩

/-- SETUG: the transposed bitmap, or nothing for an index above 7 (spec/41_glyph.md R140). -/
def execSetug (i : Byte) (bm : Vector Byte 8) (s : State) : Host.Outcome State Fault Refusal :=
  .next (s.issue (.setug i bm)
    (if h : i.toNat < 8 then [.setUserGlyph ⟨i.toNat, h⟩ (bitmapColumns bm)] else []))

/-- RDGLYPH: five response bytes, column 0 first (spec/41_glyph.md R147). -/
def execRdglyph (g : Byte) (s : State) : Host.Outcome State Fault Refusal :=
  .next (s.issue (.rdglyph g) [.respond (columnsFor s g).toList])

end Sys2Proof.Machine
end

