-- ==== Sys2Proof/Machine/Pixel.lean ====
section
/-! DEFINITION. The framebuffer and pixel-transform commands (spec/40_pixel.md): CLEAR, SETPIX, GETPIX, RDFB, WRFB. -/

namespace Sys2Proof.Machine

/-- CLEAR: every byte written 0x00, in ascending address order, one micro-step a byte (spec/40_pixel.md R112). -/
def execClear (s : State) : Host.Outcome State Fault Refusal :=
  .next (s.issue .clear ((List.range s.cfg.fbSize).map fun a => .writeByte a 0x00))

/-- SETPIX: one PixWrite (spec/40_pixel.md R113). -/
def execSetpix (x y : BitVec 10) (on : Bool) (s : State) : Host.Outcome State Fault Refusal :=
  .next (s.issue (.setpix x y on) (pixWrite s.cfg x.toNat y.toNat on))

/-- GETPIX: `Respond(PixRead(X, Y))` (spec/40_pixel.md R111 and R114). -/
def execGetpix (x y : BitVec 10) (s : State) : Host.Outcome State Fault Refusal :=
  .next (s.issue (.getpix x y)
    (if s.cfg.inDisplay x.toNat y.toNat then
      [.readByte (s.cfg.pixelAddr x.toNat y.toNat), .respondBit (s.cfg.pixelPos x.toNat % 8)]
    else [.respond [0x00]]))

/-- RDFB (spec/40_pixel.md R119). -/
def execRdfb (addr : BitVec 24) (s : State) : Host.Outcome State Fault Refusal :=
  .next (s.issue (.rdfb addr)
    (if addr.toNat < s.cfg.fbSize then [.readByte addr.toNat, .respondByte] else [.respond [0x00]]))

/-- WRFB (spec/40_pixel.md R121). -/
def execWrfb (addr : BitVec 24) (v : Byte) (s : State) : Host.Outcome State Fault Refusal :=
  .next (s.issue (.wrfb addr v)
    (if addr.toNat < s.cfg.fbSize then [.writeByte addr.toNat v] else []))

end Sys2Proof.Machine
end

