-- ==== Sys2Proof/Machine/Refresh.lean ====
section
/-! DEFINITION. The refresh engine's commands (spec/43_refresh.md): START and STOP, each one atomic step
(spec/20_memory.md R63). The tick itself is State.tick in Machine/Ops.lean. -/

namespace Sys2Proof.Machine

/-- START (spec/43_refresh.md R201 to R203). -/
def execStart (period : BitVec 24) (s : State) : Host.Outcome State Fault Refusal :=
  .next (s.issue (.start period) [.startRefresh period])

/-- STOP (spec/43_refresh.md R204 and R205). -/
def execStop (s : State) : Host.Outcome State Fault Refusal :=
  .next (s.issue .stop [.stopRefresh])

end Sys2Proof.Machine
end

