-- ==== Sys2Proof/Machine/System.lean ====
section
/-! DEFINITION. The system commands (spec/44_system.md): NOP, RDSTAT and the reserved opcodes, which are one-word
no-ops (spec/30_encoding.md R87; log entry 12). -/

namespace Sys2Proof.Machine

/-- NOP (spec/44_system.md R230). -/
def execNop (s : State) : Host.Outcome State Fault Refusal :=
  .next (s.issue .nop [])

/-- RDSTAT, one atomic step (spec/44_system.md R232). -/
def execRdstat (s : State) : Host.Outcome State Fault Refusal :=
  .next (s.issue .rdstat [.readStatus])

/-- A reserved opcode 0x0E..0x0F (spec/44_system.md R231). -/
def execReserved0E (opc : Byte) (s : State) : Host.Outcome State Fault Refusal :=
  .next (s.issue (.reserved0E opc) [])

/-- A reserved opcode 0x10..0x1F (spec/44_system.md R231). -/
def execReserved10 (opc : Byte) (s : State) : Host.Outcome State Fault Refusal :=
  .next (s.issue (.reserved10 opc) [])

/-- A reserved opcode 0x20..0x3F (spec/44_system.md R231). -/
def execReserved20 (opc : Byte) (s : State) : Host.Outcome State Fault Refusal :=
  .next (s.issue (.reserved20 opc) [])

/-- A reserved opcode 0x40..0x7F (spec/44_system.md R231). -/
def execReserved40 (opc : Byte) (s : State) : Host.Outcome State Fault Refusal :=
  .next (s.issue (.reserved40 opc) [])

/-- A reserved opcode 0x80..0xFF (spec/44_system.md R231). -/
def execReserved80 (opc : Byte) (s : State) : Host.Outcome State Fault Refusal :=
  .next (s.issue (.reserved80 opc) [])

end Sys2Proof.Machine
end

