-- ==== Sys2Proof/Machine/Text.lean ====
section
/-! DEFINITION. The UTF-8 decoder and the text cursor (spec/42_text.md): WRITE, SETCUR, WGLYPH. -/

namespace Sys2Proof.Machine

/-- `CR` (spec/42_text.md, its preamble). -/
def cr : Byte := 0x0D

/-- `LF` (spec/42_text.md, its preamble). -/
def lf : Byte := 0x0A

/-- `DrawGlyph(c0..c4)` at the pixel (x0, y0): columns 0..4 over rows 0..6, then the spacing column cleared over
rows 0..6, in that order (spec/42_text.md R181 and R182). -/
def drawGlyph (c : Config) (x0 y0 : Nat) (cols : GlyphCols) : List Micro :=
  ((List.finRange 5).flatMap fun j =>
    (List.range glyphDrawRows).flatMap fun r => pixWrite c (x0 + j.val) (y0 + r) (cols[j].getLsbD r)) ++
  (List.range glyphDrawRows).flatMap fun r => pixWrite c (x0 + 5) (y0 + r) false

/-- `DrawGlyph` in the cell at the cursor, the cursor read once at the start (spec/42_text.md R181), then
`Advance()` (R185). -/
def drawAtCursor (s : State) (cols : GlyphCols) : List Micro :=
  drawGlyph s.cfg (s.curCol.toNat * charW) (s.curRow.toNat * charH) cols ++ [.advance]

/-- `Complete(cp)` (spec/42_text.md R180), the decoder state reset first on every path (R179; log entry 11). -/
def completeCodepoint (s : State) (cp : BitVec 11) : List Micro :=
  .decoderIdle :: drawAtCursor s (columnsFor s (resolveGlyph cp))

/-- The substitute codepoint QMARK (spec/42_text.md R177 and R178). -/
def substituteCodepoint : BitVec 11 := oneByteCodepoint qmark

/-- `Decode(B)` when idle (spec/42_text.md R177). -/
def decodeIdleByte (s : State) (b : Byte) : List Micro :=
  if b.getLsbD 7 = false then completeCodepoint s (oneByteCodepoint b)
  else if b &&& 0xE0 = 0xC0 then [.decoderPend (b.setWidth 5)]
  else completeCodepoint s substituteCodepoint

/-- `Decode(B)` when a continuation byte is expected (spec/42_text.md R178). -/
def decodeContinuationByte (s : State) (b : Byte) : List Micro :=
  if b &&& 0xC0 = 0x80 then completeCodepoint s (twoByteCodepoint s.uAcc b)
  else completeCodepoint s substituteCodepoint

/-- The micro-steps of WRITE before its response: CR and LF are tested before the decoder
(spec/42_text.md R170, R171, R184). -/
def writeByteSteps (s : State) (b : Byte) : List Micro :=
  if b = cr then []
  else if b = lf then [.newLine]
  else if s.uExp = 0 then decodeIdleByte s b
  else decodeContinuationByte s b

/-- WRITE (spec/42_text.md R170), answering the one byte 0x01 (R172). -/
def execWrite (b : Byte) (s : State) : Host.Outcome State Fault Refusal :=
  .next (s.issue (.write b) (writeByteSteps s b ++ [.respond [0x01]]))

/-- SETCUR (spec/42_text.md R174). -/
def execSetcur (col row : BitVec 10) (s : State) : Host.Outcome State Fault Refusal :=
  .next (s.issue (.setcur col row) [.placeCursor col row])

/-- WGLYPH: the glyph code is drawn as it is, with no response (spec/42_text.md R183). -/
def execWglyph (g : Byte) (s : State) : Host.Outcome State Fault Refusal :=
  .next (s.issue (.wglyph g) (drawAtCursor s (columnsFor s g)))

end Sys2Proof.Machine
end

