-- ==== Sys2Proof/Machine/Dispatch.lean ====
section
/-! DEFINITION. The meaning of every command, one arm a constructor (spec/30_encoding.md R85). -/

namespace Sys2Proof.Machine

def exec (i : Instr) (s : State) : Host.Outcome State Fault Refusal :=
  match i with
  | .nop => Sys2Proof.Machine.execNop s
  | .clear => Sys2Proof.Machine.execClear s
  | .setpix x y on => Sys2Proof.Machine.execSetpix x y on s
  | .getpix x y => Sys2Proof.Machine.execGetpix x y s
  | .setcur col row => Sys2Proof.Machine.execSetcur col row s
  | .write b => Sys2Proof.Machine.execWrite b s
  | .wglyph g => Sys2Proof.Machine.execWglyph g s
  | .setug idx bm => Sys2Proof.Machine.execSetug idx bm s
  | .rdglyph g => Sys2Proof.Machine.execRdglyph g s
  | .start period => Sys2Proof.Machine.execStart period s
  | .stop => Sys2Proof.Machine.execStop s
  | .rdfb addr => Sys2Proof.Machine.execRdfb addr s
  | .wrfb addr v => Sys2Proof.Machine.execWrfb addr v s
  | .rdstat => Sys2Proof.Machine.execRdstat s
  | .reserved0E opc => Sys2Proof.Machine.execReserved0E opc s
  | .reserved10 opc => Sys2Proof.Machine.execReserved10 opc s
  | .reserved20 opc => Sys2Proof.Machine.execReserved20 opc s
  | .reserved40 opc => Sys2Proof.Machine.execReserved40 opc s
  | .reserved80 opc => Sys2Proof.Machine.execReserved80 opc s

end Sys2Proof.Machine
end

