-- ==== Sys2Proof/Machine/Step.lean ====
section
/-! DEFINITION. One step of the machine: the TICK agent's atomic step when a tick is due at the point where CMD stands;
else CMD goes on with the command in progress, or reads and runs the next one, or waits for words (spec/20_memory.md R62,
spec/30_encoding.md R89 and R90). -/

namespace Sys2Proof.Machine

/-- One step (spec/20_memory.md R61 and R62). CMD's move runs until the command completes or a tick preempts it. A CMD
that waits for words moves to its next point (log entry 8). -/
def step (s : State) : Host.Outcome State Fault Refusal :=
  if s.tickDue then .next s.takeTick
  else
    match s.inflight with
    | some c => .next (s.resume c)
    | none =>
      match decode s.port with
      | .ok (i, rest) => exec i { s with port := rest }
      | .error _ => .next s.leavePoint

/-- `s` with an instruction in the table's numbering as the next words on the port, nothing in progress, and no tick due
before it (log entry 9). -/
def State.withFetchWord (s : State) (nbits w : Nat) : State :=
  { s with
    inflight := none
    port := tableWords nbits w ++ s.port.drop 3
    ticks := if s.tickDue then 0 :: s.ticks.tail else s.ticks }

end Sys2Proof.Machine
end

