-- ==== Sys2Proof/Safety.lean ====
section
/-! DEFINITION. The terms the claims use: the stored bit of a physical position and of a logical pixel, a command that no
tick interrupts, the parts of the state two agents and each command own, and the invariant every step keeps. -/

namespace Sys2Proof.Machine

/-- The stored bit at physical position p of framebuffer row r: byte p div 8, mask 0x80 >> (p mod 8)
(spec/20_memory.md R51). -/
def State.rawBit (s : State) (r p : Nat) : Bool :=
  (s.fbRead (r * s.cfg.bpr + p / 8)).getLsbD (7 - p % 8)

/-- The stored bit of logical pixel (x, y): position W - 1 - x + DB of row y (spec/20_memory.md R52). -/
def State.pixel (s : State) (x y : Nat) : Bool :=
  s.rawBit y (s.cfg.width - 1 - x + s.cfg.dummyBits)

/-- No tick arrives at the next k StepPoints of a command that starts now (spec/20_memory.md R62). -/
abbrev State.quiet (s : State) (k : Nat) : Prop := ∀ n ∈ s.ticks.tail.take k, n = 0

/-- The bytes of row r as a tick transmits them: the dummy bits of byte 0 forced to 0, every other byte as stored
(spec/43_refresh.md R208 and R210). -/
def State.sentBytes (s : State) (r : Nat) : List Byte :=
  (List.range s.cfg.bpr).map fun k =>
    if k = 0 then s.fbRead (r * s.cfg.bpr) &&& ~~~s.cfg.dummyMask else s.fbRead (r * s.cfg.bpr + k)

/-- The events of one transmission of row r, in order (spec/43_refresh.md R207). -/
def State.rowEvents (s : State) (r : Nat) : List Event :=
  (if r = 0 then [.fs true] else []) ++ (s.sentBytes r).map .byte ++
    [.ll true, .wait s.cfg.pulseUs, .ll false] ++ (if r = 0 then [.fs false] else [])

/-- The codepoint that a byte other than CR and LF completes, if it completes one: a byte with top bit 0 is itself, a
two-byte lead 0xC0..0xDF completes none, a continuation byte 0x80..0xBF that is expected completes the sequence, every
other byte gives the substitute `?`, 0x3F (spec/42_text.md R177 and R178). -/
def codepointOf (s : State) (b : Byte) : Option (BitVec 11) :=
  if s.uExp = 0 then
    if b.toNat < 0x80 then some (BitVec.ofNat 11 b.toNat)
    else if 0xC0 ≤ b.toNat ∧ b.toNat ≤ 0xDF then none
    else some 0x3F
  else if 0x80 ≤ b.toNat ∧ b.toNat ≤ 0xBF then some (BitVec.ofNat 11 (s.uAcc.toNat * 64 + b.toNat % 64))
  else some 0x3F

/-- Pixel (x, y) after the glyph `cols` is drawn in the cell at the cursor: bit y - y0 of column x - x0 in rows 0..6 of
the cell's first five columns, 0 in rows 0..6 of its sixth, as before everywhere else (spec/42_text.md R181). -/
def State.drawnPixel (s : State) (cols : GlyphCols) (x y : Nat) : Bool :=
  if s.curCol.toNat * 6 ≤ x ∧ x < s.curCol.toNat * 6 + 6 ∧ s.curRow.toNat * 8 ≤ y ∧ y < s.curRow.toNat * 8 + 7 then
    (cols.toList.getD (x - s.curCol.toNat * 6) 0).getLsbD (y - s.curRow.toNat * 8)
  else s.pixel x y

/-- The command words in progress: read by the decoder and not yet counted by CSP (spec/10_state.md R21 and R41). -/
def State.wordsInFlight (s : State) : Nat :=
  match s.inflight with
  | some c => c.command.words
  | none => 0

/-- The bits of a lead word that are not ignored, by opcode (spec/30_encoding.md R81). -/
def significantBits (opc : Byte) : Word :=
  if opc = 0x02 then 0xFF1FFFFF
  else if opc = 0x03 ∨ opc = 0x04 then 0xFF0FFFFF
  else if opc = 0x05 ∨ opc = 0x06 ∨ opc = 0x07 ∨ opc = 0x08 then 0xFF0000FF
  else if opc = 0x09 ∨ opc = 0x0B ∨ opc = 0x0C then 0xFFFFFFFF
  else 0xFF000000

/-- How many bytes a command's response has (spec/10_state.md R39). -/
def responseLength (i : Instr) : Nat :=
  match i with
  | .write _ => 1
  | .getpix _ _ => 1
  | .rdglyph _ => 5
  | .rdfb _ => 1
  | .rdstat => 11
  | .nop => 0
  | .clear => 0
  | .setpix _ _ _ => 0
  | .setcur _ _ => 0
  | .wglyph _ => 0
  | .setug _ _ => 0
  | .start _ => 0
  | .stop => 0
  | .wrfb _ _ => 0
  | .reserved0E _ => 0
  | .reserved10 _ => 0
  | .reserved20 _ => 0
  | .reserved40 _ => 0
  | .reserved80 _ => 0

/-- A command that is one atomic step with respect to TICK (spec/20_memory.md R63). -/
def isAtomic (i : Instr) : Bool :=
  match i with
  | .start _ => true
  | .stop => true
  | .rdstat => true
  | .nop => false
  | .clear => false
  | .setpix _ _ _ => false
  | .getpix _ _ => false
  | .setcur _ _ => false
  | .write _ => false
  | .wglyph _ => false
  | .setug _ _ => false
  | .rdglyph _ => false
  | .rdfb _ => false
  | .wrfb _ _ => false
  | .reserved0E _ => false
  | .reserved10 _ => false
  | .reserved20 _ => false
  | .reserved40 _ => false
  | .reserved80 _ => false

/-- The state the Refresh Engine owns, and its outputs, are the same (spec/10_state.md R37 and R38). -/
structure SameRefresh (s t : State) : Prop where
  running : t.running = s.running
  refreshRow : t.refreshRow = s.refreshRow
  timerPeriod : t.timerPeriod = s.timerPeriod
  timerEn : t.timerEn = s.timerEn
  sessionOpen : t.sessionOpen = s.sessionOpen
  fsLvl : t.fsLvl = s.fsLvl
  llLvl : t.llLvl = s.llLvl
  trace : t.trace = s.trace

/-- The state only CMD reads or writes is the same: the cursor, the UTF-8 state and the user glyphs
(spec/10_state.md R37). -/
structure SameText (s t : State) : Prop where
  curCol : t.curCol = s.curCol
  curRow : t.curRow = s.curRow
  uExp : t.uExp = s.uExp
  uAcc : t.uAcc = s.uAcc
  ug : t.ug = s.ug

/-- A command from where `s` has it to where `t` has it writes only what the spec lets that command write: the
framebuffer CLEAR, SETPIX, WRFB and the glyph draws; the user glyphs SETUG; the cursor SETCUR, WRITE and WGLYPH; the
decoder WRITE; and no command the configuration or the port (spec/10_state.md R22, R24, R27 to R30, R42). -/
structure WritesOnlyItsPart (i : Instr) (s t : State) : Prop where
  fb : i ≠ .clear → (∀ x y on, i ≠ .setpix x y on) → (∀ a v, i ≠ .wrfb a v) → (∀ b, i ≠ .write b) →
    (∀ g, i ≠ .wglyph g) → t.fb = s.fb
  ug : (∀ n bm, i ≠ .setug n bm) → t.ug = s.ug
  cursor : (∀ c r, i ≠ .setcur c r) → (∀ b, i ≠ .write b) → (∀ g, i ≠ .wglyph g) →
    t.curCol = s.curCol ∧ t.curRow = s.curRow
  decoder : (∀ b, i ≠ .write b) → t.uExp = s.uExp ∧ t.uAcc = s.uAcc
  cfg : t.cfg = s.cfg
  port : t.port = s.port

/-- A command from where `s` has it to where `t` has it appends its whole response at its completion and nothing before:
as many bytes as the command answers, for WRITE the one byte 0x01 (spec/10_state.md R39, spec/42_text.md R172). -/
def AnswersAtItsEnd (i : Instr) (s t : State) : Prop :=
  ∃ bs, t.resp = s.resp ++ bs ∧
    (t.inflight = none → bs.length = responseLength i ∧ ∀ b, i = .write b → bs = [0x01]) ∧
    (t.inflight ≠ none → bs = [])

/-- What is left of a command in progress is the end of what its own exec left when a tick first stopped it, started from
some state of this configuration (spec/10_state.md R41). -/
def InFlight.isOwn (c : InFlight) (cfg : Config) : Prop :=
  ∃ s0 t0 c0, s0.cfg = cfg ∧ exec c.command s0 = .next t0 ∧ t0.inflight = some c0 ∧ c.todo <:+ c0.todo

/-- What every step keeps. -/
structure State.Inv (s : State) : Prop where
  /-- The framebuffer's list is in its canonical form. -/
  fb_wf : Memory.wf s.fb
  /-- It lists framebuffer addresses only (spec/20_memory.md R59). -/
  fb_inside : ∀ c ∈ s.fb, c.1 < s.cfg.fbSize
  /-- 0 ≤ CUR_COL < COLS (spec/42_text.md R175). -/
  curCol_lt : s.curCol.toNat < s.cfg.cols
  /-- 0 ≤ CUR_ROW < ROWS (spec/42_text.md R175). -/
  curRow_lt : s.curRow.toNat < s.cfg.rows
  /-- U_EXP = 0 implies U_ACC = 0 (spec/10_state.md R30). -/
  idle_acc : s.uExp = 0 → s.uAcc = 0
  /-- RUNNING = TIMER_EN (spec/43_refresh.md R215). -/
  running_timer : s.timerEn = s.running
  /-- RUNNING = SESSION_OPEN (spec/43_refresh.md R215). -/
  running_session : s.sessionOpen = s.running
  /-- FS_LVL = 0 between steps (spec/43_refresh.md R215). -/
  fs_low : s.fsLvl = false
  /-- LL_LVL = 0 between steps (spec/43_refresh.md R215). -/
  ll_low : s.llLvl = false
  /-- REFRESH_ROW < H (spec/43_refresh.md R215). -/
  refreshRow_lt : s.refreshRow.toNat < s.cfg.height
  /-- A command in progress has micro-steps left (spec/10_state.md R41). -/
  inflight_todo : ∀ c, s.inflight = some c → c.todo ≠ []
  /-- START, STOP and RDSTAT are never in progress (spec/20_memory.md R63). -/
  inflight_atomic : ∀ c, s.inflight = some c → isAtomic c.command = false
  /-- A command in progress has micro-steps of its own left (spec/10_state.md R41). -/
  inflight_own : ∀ c, s.inflight = some c → c.isOwn s.cfg

end Sys2Proof.Machine
end

