-- ==== Sys2Proof/Certificates/Slice0/Obligations.lean ====
section
/-! DEFINITION. The statements about the model, each a proposition; none is proved here. `quiet k` says that no tick arrives
at the command's next k StepPoints; a statement without it holds whatever ticks arrive. -/

open Sys2Proof Sys2Proof.Machine

/-! ## Encoding -/

/-- Words written out from the assembler table (spec/30_encoding.md R91) and the vectors of spec/95_test_vectors.md decode
to the commands they stand for, one of every family. -/
def Obligations.DecodeReadsTheSpecsWords : Prop :=
  decode [0x02100C05] = .ok (.setpix 5 3 true, []) ∧
  decode [0x0C000030, 0x00000055] = .ok (.wrfb 48 0x55, []) ∧
  decode [0x07000000, 0x08040201, 0x111F0010] =
    .ok (.setug 0 #v[0x01, 0x02, 0x04, 0x08, 0x10, 0x00, 0x1F, 0x11], []) ∧
  decode [0x04000405] = .ok (.setcur 5 1, []) ∧
  decode [0x050000C3] = .ok (.write 0xC3, []) ∧
  decode [0x090003E8] = .ok (.start 1000, []) ∧
  decode [0x0D000000] = .ok (.rdstat, []) ∧
  decode [0xFF123456] = .ok (.reserved80 0xFF, [])

/-- Every well-formed command reads back from its own words, whatever follows them (spec/30_encoding.md R81 to R86). -/
def Obligations.DecodeOfEncodeIsTheCommand : Prop :=
  ∀ (i : Instr) (rest : List Word), WellFormed i = true → decode (encode i ++ rest) = .ok (i, rest)

/-- Every lead word is a command, and its opcode alone sets the length in words: 3 for 0x07, 2 for 0x0C, 1 for every
other opcode, reserved ones included (spec/30_encoding.md R84). -/
def Obligations.OpcodeAloneSetsTheLength : Prop :=
  ∀ (w0 w1 w2 : Word) (ws : List Word), ∃ i : Instr,
    i.words = (if w0.extractLsb' 24 8 = 0x07 then 3 else if w0.extractLsb' 24 8 = 0x0C then 2 else 1) ∧
    decode (w0 :: w1 :: w2 :: ws) = .ok (i, (w0 :: w1 :: w2 :: ws).drop i.words) ∧
    i.opcode = w0.extractLsb' 24 8 ∧ WellFormed i = true

/-- Encoding what was decoded gives the words back with the ignored bits 0 and no other bit changed
(spec/30_encoding.md R81, R82 and R88). -/
def Obligations.EncodeOfDecodeClearsOnlyIgnoredBits : Prop :=
  ∀ (w0 w1 w2 : Word) (ws : List Word) (i : Instr) (rest : List Word),
    decode (w0 :: w1 :: w2 :: ws) = .ok (i, rest) →
    encode i =
      if w0.extractLsb' 24 8 = 0x07 then [w0 &&& significantBits 0x07, w1, w2]
      else if w0.extractLsb' 24 8 = 0x0C then [w0, w1 &&& 0x000000FF]
      else [w0 &&& significantBits (w0.extractLsb' 24 8)]

/-- Every format's operands sit in the bits the spec gives them, and ignored bits may hold any value and change nothing
(spec/30_encoding.md R81, R82 and R86; each word is written bit 31 on the left). -/
def Obligations.OperandsSitWhereTheFormatsSay : Prop :=
  ∀ (rest : List Word) (x y : BitVec 10) (on : Bool) (b v : Byte) (n24 : BitVec 24)
    (i3 : BitVec 3) (i4 : BitVec 4) (i16 : BitVec 16) (i24 : BitVec 24)
    (b0 b1 b2 b3 b4 b5 b6 b7 : Byte),
    decode ((0x00#8 ++ i24) :: rest) = .ok (.nop, rest) ∧
    decode ((0x01#8 ++ i24) :: rest) = .ok (.clear, rest) ∧
    decode ((0x02#8 ++ i3 ++ BitVec.ofBool on ++ y ++ x) :: rest) = .ok (.setpix x y on, rest) ∧
    decode ((0x03#8 ++ i4 ++ y ++ x) :: rest) = .ok (.getpix x y, rest) ∧
    decode ((0x04#8 ++ i4 ++ y ++ x) :: rest) = .ok (.setcur x y, rest) ∧
    decode ((0x05#8 ++ i16 ++ b) :: rest) = .ok (.write b, rest) ∧
    decode ((0x06#8 ++ i16 ++ b) :: rest) = .ok (.wglyph b, rest) ∧
    decode ((0x07#8 ++ i16 ++ b) :: (b3 ++ b2 ++ b1 ++ b0) :: (b7 ++ b6 ++ b5 ++ b4) :: rest) =
      .ok (.setug b #v[b0, b1, b2, b3, b4, b5, b6, b7], rest) ∧
    decode ((0x08#8 ++ i16 ++ b) :: rest) = .ok (.rdglyph b, rest) ∧
    decode ((0x09#8 ++ n24) :: rest) = .ok (.start n24, rest) ∧
    decode ((0x0A#8 ++ i24) :: rest) = .ok (.stop, rest) ∧
    decode ((0x0B#8 ++ n24) :: rest) = .ok (.rdfb n24, rest) ∧
    decode ((0x0C#8 ++ n24) :: (i24 ++ v) :: rest) = .ok (.wrfb n24 v, rest) ∧
    decode ((0x0D#8 ++ i24) :: rest) = .ok (.rdstat, rest) ∧
    encode (.setug 0 #v[0x01, 0x02, 0x04, 0x08, 0x10, 0x00, 0x1F, 0x11]) =
      [0x07000000, 0x08040201, 0x111F0010]

/-- A reserved lead word, OPC 0x0E..0xFF, is one word long and does nothing: no state changes except CSP <- CSP + 1,
nothing is appended to RESP or TRACE, no fault (spec/30_encoding.md R87). CMD leaves the point where it stands. -/
def Obligations.ReservedLeadWordDoesNothing : Prop :=
  ∀ (w0 : Word) (ws : List Word), 0x0E ≤ (w0.extractLsb' 24 8).toNat →
    ∃ i : Instr, decode (w0 :: ws) = .ok (i, ws) ∧
      ∀ s : State, exec i s = .next { s with csp := s.csp + 1, inflight := none, ticks := s.ticks.tail }

/-- NOP and the command of each reserved row change nothing but CSP (spec/44_system.md R230 and R231). -/
def Obligations.NopAndReservedOnlyAdvance : Prop :=
  ∀ (s : State) (opc : Byte) (i : Instr),
    i ∈ [.nop, .reserved0E opc, .reserved10 opc, .reserved20 opc, .reserved40 opc, .reserved80 opc] →
    exec i s = .next { s with csp := s.csp + 1, inflight := none, ticks := s.ticks.tail }

/-! ## The step -/

/-- With no command in progress and no tick due, a step runs the command the port's words decode to, with those
words read off the port (spec/30_encoding.md R89). -/
def Obligations.StepRunsTheDecodedCommand : Prop :=
  ∀ (s : State) (i : Instr) (rest : List Word),
    s.tickDue = false → s.inflight = none → decode s.port = .ok (i, rest) →
    step s = exec i { s with port := rest }

/-- The instruction that withFetchWord places is the one the next step runs. -/
def Obligations.FetchWordRunsNext : Prop :=
  ∀ (s : State) (nbits w : Nat) (i : Instr), decodeTableWord nbits w = some i →
    step (s.withFetchWord nbits w) =
      exec i { s.withFetchWord nbits w with port := (s.withFetchWord nbits w).port.drop i.words }

/-- A stream that ends before a lead word, or before all the extension words of a SETUG or WRFB: the command does not
execute and has no partial effect, and CMD waits, which is no fault (spec/30_encoding.md R90). That the wait is a step which
answers next and leaves the point where CMD stands, and that an empty port waits in the same way, is log entry 8 (DEDUCED). -/
def Obligations.TruncatedCommandWaits : Prop :=
  ∀ s : State, s.tickDue = false → s.inflight = none →
    (s.port = [] ∨
      (∃ w0 ws, s.port = w0 :: ws ∧ w0.extractLsb' 24 8 = 0x07 ∧ ws.length < 2) ∨
      (∃ w0, s.port = [w0] ∧ w0.extractLsb' 24 8 = 0x0C)) →
    step s = .next { s with ticks := s.ticks.tail }

/-- Taking a tick saves no block-visible state: CMD_INFLIGHT, CSP, the cursor, the decoder, the user glyphs, the
response stream and the port are as they were (spec/60_exceptions.md R259). One of the ticks due is gone. -/
def Obligations.TakingATickSavesNothing : Prop :=
  ∀ s : State, s.tickDue = true →
    ∃ t, step s = .next t ∧ t.inflight = s.inflight ∧ t.csp = s.csp ∧ SameText s t ∧
      t.resp = s.resp ∧ t.port = s.port ∧ t.cfg = s.cfg ∧ t.timerEn = s.timerEn ∧ t.running = s.running ∧
      t.ticks = (s.ticks.headD 0 - 1) :: s.ticks.tail

/-- With no tick due, a command in progress goes on from where it was, reading no word: it completes and CSP advances by
its length, or it stands at a later StepPoint of the same command with CSP unchanged (spec/60_exceptions.md R260). That it
leaves what ticks wrote is in OnlyStartAndStopTouchTheRefreshState and OnlyTheNamedCommandsWriteEachPart. -/
def Obligations.CommandResumesWhereItWas : Prop :=
  ∀ (s : State) (c : InFlight), s.tickDue = false → s.inflight = some c →
    ∃ t, step s = .next t ∧ t.port = s.port ∧
      ((t.inflight = none ∧ t.csp = s.csp + c.command.words) ∨
        ∃ c', t.inflight = some c' ∧ c'.command = c.command ∧ t.csp = s.csp ∧
          c'.todo.length < c.todo.length ∧ c'.todo = c.todo.drop (c.todo.length - c'.todo.length))

/-- Nothing stops the block: every command, whatever its operands, and every step answers a next state
(spec/60_exceptions.md section 1; log entry 13). That a command also completes is EveryCommandRunsToCompletion. -/
def Obligations.NothingEverFaults : Prop :=
  (∀ (i : Instr) (s : State), ∃ t, exec i s = .next t) ∧ ∀ s : State, ∃ t, step s = .next t

/-- Whatever ticks arrive, and however many, the command at the front of the port runs to completion: after at most
2·n + 1 steps, n ticks arriving in all, CSP has advanced by its length and the rest of the port is untouched
(spec/30_encoding.md R89, spec/20_memory.md R62). It rests on the tick input delivering finitely many ticks, which is log
entry 16 (DESIGN CHOICE, unsafe for liveness on a platform whose ticks starve CMD). -/
def Obligations.EveryCommandRunsToCompletion : Prop :=
  ∀ (s : State) (i : Instr) (rest : List Word), s.inflight = none → decode s.port = .ok (i, rest) →
    ∃ k t, k ≤ 2 * s.ticks.sum + 1 ∧ Host.Core.run Sys2Proof.core k s = .next t ∧
      t.inflight = none ∧ t.csp = s.csp + i.words ∧ t.port = rest

/-- Every step keeps the invariant (spec/42_text.md R175, spec/43_refresh.md R215, spec/10_state.md R30 and R41). -/
def Obligations.StepKeepsTheInvariant : Prop :=
  ∀ s t : State, s.Inv → step s = .next t → t.Inv

/-- The state after reset meets the invariant, whatever the configuration and whatever bytes FB and UG hold; so does
State.reset, whose contents are the model's choice (log entries 1, 3 and 4). -/
def Obligations.ResetMeetsTheInvariant : Prop :=
  (∀ (cfg : Config) (fb : Memory) (ug : Vector GlyphCols 8), Memory.wf fb → (∀ c ∈ fb, c.1 < cfg.fbSize) →
    (State.resetWith cfg fb ug).Inv) ∧ State.reset.Inv

/-- After reset every element holds the value the spec gives it, FB and UG any bytes; reset emits nothing; the first
command is the one at CSP = 0; and a tick does nothing (spec/70_reset_and_hazards.md R280 and R281). -/
def Obligations.ResetLeavesTheSpecsValues : Prop :=
  ∀ (cfg : Config) (fb : Memory) (ug : Vector GlyphCols 8), ∀ s, s = State.resetWith cfg fb ug →
    s.csp = 0 ∧ s.inflight = none ∧ s.fb = fb ∧ s.ug = ug ∧ s.curCol = 0 ∧ s.curRow = 0 ∧ s.uExp = 0 ∧ s.uAcc = 0 ∧
    s.running = false ∧ s.refreshRow = 0 ∧ s.timerPeriod = 0 ∧ s.timerEn = false ∧ s.sessionOpen = false ∧
    s.fsLvl = false ∧ s.llLvl = false ∧ s.resp = [] ∧ s.trace = [] ∧
    (∀ ws i rest, decode ws = .ok (i, rest) → step { s with port := ws } = exec i { s with port := rest }) ∧
    (∀ n tl, step { s with ticks := (n + 1) :: tl } = .next { s with ticks := n :: tl })

/-- No step changes the configuration, the font tables among it (spec/10_state.md R42). -/
def Obligations.NoStepChangesTheConfiguration : Prop :=
  ∀ s t : State, step s = .next t → t.cfg = s.cfg

/-- TRACE and RESP only grow, at their ends (spec/10_state.md R38 and R39). -/
def Obligations.OutputStreamsOnlyGrow : Prop :=
  ∀ s t : State, step s = .next t → s.resp <+: t.resp ∧ s.trace <+: t.trace

/-- CSP counts the command words consumed: no step loses or invents a word among those counted by CSP, those of the
command in progress, and those still on the port (spec/10_state.md R21). -/
def Obligations.CommandWordsAreConserved : Prop :=
  ∀ s t : State, step s = .next t →
    t.csp + t.wordsInFlight + t.port.length = s.csp + s.wordsInFlight + s.port.length

/-! ## Which command writes what -/

/-- No command but START and STOP touches the refresh state or TRACE: not from its start to where it next stands, and not
from where a tick stopped it (START and STOP are never in progress), so what ticks left there stays
(spec/10_state.md R37, spec/43_refresh.md R212, spec/60_exceptions.md R260). -/
def Obligations.OnlyStartAndStopTouchTheRefreshState : Prop :=
  (∀ (i : Instr) (s t : State), exec i s = .next t → (∀ p, i ≠ .start p) → i ≠ .stop → SameRefresh s t) ∧
  (∀ (s t : State) (c : InFlight), s.Inv → s.tickDue = false → s.inflight = some c → step s = .next t →
    SameRefresh s t)

/-- Each piece of CMD's state has only the writers the spec names (WritesOnlyItsPart, Safety.lean), in a command's part
before a tick stops it and in every part after it resumes (spec/10_state.md R22, R24, R27 to R30). -/
def Obligations.OnlyTheNamedCommandsWriteEachPart : Prop :=
  (∀ (i : Instr) (s t : State), exec i s = .next t → WritesOnlyItsPart i s t) ∧
  (∀ (s t : State) (c : InFlight), s.Inv → s.tickDue = false → s.inflight = some c → step s = .next t →
    WritesOnlyItsPart c.command s t)

/-- The only commands that append to RESP are WRITE (1 byte, 0x01 for every input byte), GETPIX (1), RDGLYPH (5), RDFB
(1) and RDSTAT (11), each its whole response at its completion and nothing before, whether it completes at once or after
ticks stopped it; RESP is empty at reset (spec/10_state.md R39, spec/42_text.md R172). That a response comes after the
last StepPoint, in a micro-step of its own, is log entry 6 (DEDUCED). -/
def Obligations.ResponsesComeFromFiveCommands : Prop :=
  (∀ (i : Instr) (s t : State), exec i s = .next t → AnswersAtItsEnd i s t) ∧
  (∀ (s t : State) (c : InFlight), s.Inv → s.tickDue = false → s.inflight = some c → step s = .next t →
    AnswersAtItsEnd c.command s t) ∧
  State.reset.resp = []

/-- In CMD only CLEAR and WRFB change a dummy bit or a pad bit: every other command leaves the stored bits outside
DB..DB+W-1 of every row as they were (spec/40_pixel.md R118). -/
def Obligations.OnlyClearAndWrfbChangeDummyAndPadBits : Prop :=
  ∀ (i : Instr) (s t : State), Memory.wf s.fb → exec i s = .next t → i ≠ .clear → (∀ a v, i ≠ .wrfb a v) →
    ∀ r p, p < 8 * s.cfg.bpr → (p < s.cfg.dummyBits ∨ s.cfg.dummyBits + s.cfg.width ≤ p) →
      t.rawBit r p = s.rawBit r p

/-! ## Geometry -/

/-- DM selects exactly the DB most-significant bits of a byte; its nine values are the spec's table
(spec/20_memory.md R53). -/
def Obligations.DummyMaskSelectsTheTopBits : Prop :=
  ∀ c : Config,
    (∀ j, j < 8 → (c.dummyMask.getLsbD j = true ↔ 8 - c.dummyBits ≤ j)) ∧
    some c.dummyMask =
      ([0x00, 0x80, 0xC0, 0xE0, 0xF0, 0xF8, 0xFC, 0xFE, 0xFF] : List Byte)[c.dummyBits]?

/-- The pixel transform is a bijection from the logical pixels onto the pixel bits, positions DB..DB+W-1 of the rows:
two in-range pixels never share a bit, and no pixel is a dummy bit or a pad bit (spec/20_memory.md R52,
spec/40_pixel.md R118). -/
def Obligations.PixelTransformIsABijection : Prop :=
  ∀ c : Config,
    (∀ x, x < c.width → c.dummyBits ≤ c.pixelPos x ∧ c.pixelPos x < c.dummyBits + c.width) ∧
    (∀ p, c.dummyBits ≤ p → p < c.dummyBits + c.width → ∃ x, x < c.width ∧ c.pixelPos x = p) ∧
    (∀ x y x' y', c.inDisplay x y → c.inDisplay x' y' →
      c.pixelAddr x y = c.pixelAddr x' y' → c.pixelMask x = c.pixelMask x' → x = x' ∧ y = y') ∧
    (∀ x y, c.inDisplay x y → c.pixelAddr x y < c.height * c.bpr)

/-- SETPIX 0, y, 1 sets the last pixel bit of row y, SETPIX W-1, y, 1 the first, and in general x and W-1-x swap
physical columns; in the geometry of RC x = 0 is byte 2 mask 0x40 and x = 13 is byte 0 mask 0x08
(spec/40_pixel.md R116). -/
def Obligations.MirrorProperty : Prop :=
  (∀ (s : State) (x y : BitVec 10), Memory.wf s.fb → s.quiet 1 → x.toNat < s.cfg.width → y.toNat < s.cfg.height →
    ∃ t, exec (.setpix x y true) s = .next t ∧
      (x.toNat = 0 → t.rawBit y.toNat (s.cfg.width - 1 + s.cfg.dummyBits) = true) ∧
      (x.toNat = s.cfg.width - 1 → t.rawBit y.toNat s.cfg.dummyBits = true) ∧
      t.rawBit y.toNat (s.cfg.width - 1 - x.toNat + s.cfg.dummyBits) = true) ∧
  (∀ (c : Config) (x : Nat), x < c.width →
    c.pixelPos x + c.pixelPos (c.width - 1 - x) = c.width - 1 + 2 * c.dummyBits) ∧
  (∀ c : Config, c.width = 14 → c.height = 16 → c.dummyBits = 4 →
    c.pixelPos 0 / 8 = 2 ∧ c.pixelMask 0 = 0x40 ∧ c.pixelPos 13 / 8 = 0 ∧ c.pixelMask 13 = 0x08)

/-- Every pixel of every character cell is in range, cells are 6 columns by 8 rows, and the remainder columns and rows
belong to no cell (spec/42_text.md R173). -/
def Obligations.CellsLieOnTheDisplay : Prop :=
  ∀ c : Config, 1 ≤ c.cols ∧ 1 ≤ c.rows ∧
    (∀ col row x y, col < c.cols → row < c.rows → col * 6 ≤ x → x ≤ col * 6 + 5 → row * 8 ≤ y → y ≤ row * 8 + 7 →
      c.inDisplay x y) ∧
    (∀ col x, c.cols * 6 ≤ x → col < c.cols → ¬ (col * 6 ≤ x ∧ x ≤ col * 6 + 5)) ∧
    (∀ row y, c.rows * 8 ≤ y → row < c.rows → ¬ (row * 8 ≤ y ∧ y ≤ row * 8 + 7))

/-! ## Pixels and raw framebuffer access -/

/-- SETPIX in range that no tick interrupts: that pixel's bit becomes ON, every other stored bit of every row is as
before, every other byte reads as before, and nothing else changes but CSP (spec/40_pixel.md R110 and R113). -/
def Obligations.SetpixChangesOneBit : Prop :=
  ∀ (s : State) (x y : BitVec 10) (on : Bool), Memory.wf s.fb → s.quiet 1 → s.cfg.inDisplay x.toNat y.toNat →
    ∃ t, exec (.setpix x y on) s = .next t ∧
      t = { s with fb := t.fb, csp := s.csp + 1, inflight := none, ticks := s.ticks.drop 2 } ∧
      t.pixel x.toNat y.toNat = on ∧
      (∀ r p, p < 8 * s.cfg.bpr → ¬ (r = y.toNat ∧ p = s.cfg.width - 1 - x.toNat + s.cfg.dummyBits) →
        t.rawBit r p = s.rawBit r p) ∧
      (∀ a, a ≠ s.cfg.pixelAddr x.toNat y.toNat → t.fbRead a = s.fbRead a)

/-- SETPIX out of range leaves the framebuffer unchanged and performs no framebuffer access: it has no StepPoint, and
nothing changes but CSP, whatever ticks arrive (spec/40_pixel.md R117). -/
def Obligations.SetpixOutOfRangeDoesNothing : Prop :=
  ∀ (s : State) (x y : BitVec 10) (on : Bool), (s.cfg.width ≤ x.toNat ∨ s.cfg.height ≤ y.toNat) →
    exec (.setpix x y on) s = .next { s with csp := s.csp + 1, inflight := none, ticks := s.ticks.tail }

/-- A tick between SETPIX's read and its write: it transmits its row as it was before the command, and the write puts
back the byte's other bits as they were read, dummy bits the tick cleared among them (spec/40_pixel.md R110,
spec/70_reset_and_hazards.md R290; the program P4 of spec/95_test_vectors.md). -/
def Obligations.TickInsideSetpixSeesTheOldByte : Prop :=
  ∀ (s : State) (x y : BitVec 10) (on : Bool) (n : Nat) (tl : List Nat), s.Inv → s.running = true →
    s.ticks = n :: 1 :: tl → s.cfg.inDisplay x.toNat y.toNat →
    ∃ u v t, exec (.setpix x y on) s = .next u ∧ step u = .next v ∧ step v = .next t ∧
      u.fb = s.fb ∧ u.csp = s.csp ∧ u.inflight ≠ none ∧
      v.trace = s.trace ++ s.rowEvents s.refreshRow.toNat ∧ v.inflight = u.inflight ∧
      t.inflight = none ∧ t.csp = s.csp + 1 ∧
      t.fbRead (s.cfg.pixelAddr x.toNat y.toNat) =
        (if on then s.fbRead (s.cfg.pixelAddr x.toNat y.toNat) ||| s.cfg.pixelMask x.toNat
         else s.fbRead (s.cfg.pixelAddr x.toNat y.toNat) &&& ~~~s.cfg.pixelMask x.toNat)

/-- After SETPIX x, y, on completes, GETPIX x, y responds 0x01 for on = 1 and 0x00 for on = 0, whatever ticks are taken
before, between and inside the two commands (spec/40_pixel.md R115). -/
def Obligations.SetpixThenGetpixUnderAnyTicks : Prop :=
  ∀ (s : State) (x y : BitVec 10) (on : Bool) (rest : List Word), s.Inv → s.inflight = none →
    s.cfg.inDisplay x.toNat y.toNat →
    s.port = encode (.setpix x y on) ++ encode (.getpix x y) ++ rest →
    ∃ k t, Host.Core.run Sys2Proof.core k s = .next t ∧ t.inflight = none ∧ t.csp = s.csp + 2 ∧ t.port = rest ∧
      t.resp = s.resp ++ [if on then 0x01 else 0x00]

/-- GETPIX responds the stored bit of an in-range pixel that no tick interrupts, 0x00 for an out-of-range one with no byte
read, and changes nothing else (spec/40_pixel.md R111 and R114). The one StepPoint in range, between the read and the
response, is log entry 6 (DEDUCED). -/
def Obligations.GetpixAnswersThePixel : Prop :=
  ∀ (s : State) (x y : BitVec 10),
    (s.cfg.inDisplay x.toNat y.toNat → s.quiet 1 →
      exec (.getpix x y) s = .next { s with
        resp := s.resp ++ [if s.pixel x.toNat y.toNat then 0x01 else 0x00]
        csp := s.csp + 1, inflight := none, ticks := s.ticks.drop 2 }) ∧
    (¬ s.cfg.inDisplay x.toNat y.toNat →
      exec (.getpix x y) s = .next { s with
        resp := s.resp ++ [0x00], csp := s.csp + 1, inflight := none, ticks := s.ticks.tail })

/-- A readback answers the byte as it was read, whatever ticks arrive between the read and the response: RDFB in range the
stored byte, GETPIX in range the stored bit, both of the state the command starts in (spec/40_pixel.md R111 and R119). That
a tick may come between the two is log entry 6 (DEDUCED); the statement counts no StepPoint. -/
def Obligations.ReadbacksAreSampledAtTheRead : Prop :=
  (∀ (s : State) (addr : BitVec 24), addr.toNat < s.cfg.height * s.cfg.bpr →
    ∃ u k t, exec (.rdfb addr) s = .next u ∧ Host.Core.run Sys2Proof.core k u = .next t ∧
      t.inflight = none ∧ t.csp = s.csp + 1 ∧ t.port = s.port ∧
      t.resp = s.resp ++ [Memory.read s.fb addr.toNat]) ∧
  (∀ (s : State) (x y : BitVec 10), s.cfg.inDisplay x.toNat y.toNat →
    ∃ u k t, exec (.getpix x y) s = .next u ∧ Host.Core.run Sys2Proof.core k u = .next t ∧
      t.inflight = none ∧ t.csp = s.csp + 1 ∧ t.port = s.port ∧
      t.resp = s.resp ++ [if s.pixel x.toNat y.toNat then 0x01 else 0x00])

/-- CLEAR that no tick interrupts sets every stored byte to 0, dummy and pad bits included, and changes nothing else but
CSP (spec/40_pixel.md R112). -/
def Obligations.ClearZeroesEveryByte : Prop :=
  ∀ s : State, Memory.wf s.fb → s.quiet (s.cfg.height * s.cfg.bpr - 1) →
    ∃ t, exec .clear s = .next t ∧
      t = { s with fb := t.fb, csp := s.csp + 1, inflight := none, ticks := s.ticks.drop (s.cfg.height * s.cfg.bpr) } ∧
      ∀ a, t.fbRead a = 0x00

/-- CLEAR goes in ascending address order, one byte a micro-step: with the first tick at its StepPoint n it stands there
with bytes 0..n cleared and no other byte changed (spec/40_pixel.md R112). -/
def Obligations.ClearGoesUpByteByByte : Prop :=
  ∀ (s : State) (n : Nat), Memory.wf s.fb → n + 1 < s.cfg.height * s.cfg.bpr → s.quiet n →
    0 < s.ticks.getD (n + 1) 0 →
    ∃ t c, exec .clear s = .next t ∧ t.inflight = some c ∧ c.command = .clear ∧
      t = { s with fb := t.fb, inflight := some c, ticks := s.ticks.drop (n + 1) } ∧
      ∀ a, t.fbRead a = if a ≤ n then 0x00 else s.fbRead a

/-- RDFB that no tick interrupts responds the stored byte, dummy and pad bits as stored, and at or above H·BPR 0x00; nothing
else changes (spec/40_pixel.md R119, spec/20_memory.md R59). The one StepPoint in range, between the read and the response,
is log entry 6 (DEDUCED). -/
def Obligations.RdfbAnswersTheStoredByte : Prop :=
  ∀ (s : State) (addr : BitVec 24),
    (addr.toNat < s.cfg.height * s.cfg.bpr → s.quiet 1 →
      exec (.rdfb addr) s = .next { s with
        resp := s.resp ++ [Memory.read s.fb addr.toNat]
        csp := s.csp + 1, inflight := none, ticks := s.ticks.drop 2 }) ∧
    (s.cfg.height * s.cfg.bpr ≤ addr.toNat →
      exec (.rdfb addr) s = .next { s with
        resp := s.resp ++ [0x00], csp := s.csp + 1, inflight := none, ticks := s.ticks.tail })

/-- WRFB writes the one byte at ADDR as given, dummy and pad bits included, and nothing at or above H·BPR; nothing else
changes but CSP, whatever ticks arrive (spec/40_pixel.md R121, spec/20_memory.md R59). -/
def Obligations.WrfbStoresOneByte : Prop :=
  ∀ (s : State) (addr : BitVec 24) (v : Byte), Memory.wf s.fb →
    ∃ t, exec (.wrfb addr v) s = .next t ∧
      t = { s with fb := t.fb, csp := s.csp + 2, inflight := none, ticks := s.ticks.tail } ∧
      (addr.toNat < s.cfg.height * s.cfg.bpr → t.fbRead addr.toNat = v) ∧
      (s.cfg.height * s.cfg.bpr ≤ addr.toNat → t.fb = s.fb) ∧
      ∀ a, a ≠ addr.toNat → t.fbRead a = s.fbRead a

/-! ## Glyphs -/

/-- SETUG with an index 0..7 stores the transposed bitmap: bit r of UG[i][c] is bit (4 - c) of BMr, so that one lit
pixel (r, c) gives 1 << r in column c and 0 elsewhere; no other glyph changes. With an index above 7 it does nothing
(spec/41_glyph.md R140 and R141). -/
def Obligations.SetugTransposesTheBitmap : Prop :=
  ∀ (s : State) (i : Byte) (bm : Vector Byte 8),
    (∀ h : i.toNat < 8, ∃ t, exec (.setug i bm) s = .next t ∧
      t = { s with ug := t.ug, csp := s.csp + 3, inflight := none, ticks := s.ticks.tail } ∧
      (∀ (r : Fin 8) (c : Fin 5), (t.ug[i.toNat][c]).getLsbD r.val = bm[r].getLsbD (4 - c.val)) ∧
      (∀ (r : Fin 8) (c : Fin 5), (∀ q : Fin 8, bm[q] = if q = r then 1#8 <<< (4 - c.val) else 0) →
        ∀ d : Fin 5, t.ug[i.toNat][d] = if d = c then 1#8 <<< r.val else 0) ∧
      (∀ j : Fin 8, j.val ≠ i.toNat → t.ug[j] = s.ug[j])) ∧
    (8 ≤ i.toNat →
      exec (.setug i bm) s = .next { s with csp := s.csp + 3, inflight := none, ticks := s.ticks.tail })

/-- columnsFor by the classes of glyph codes: the user glyphs 0x00..0x07, the printable range 0x20..0x7E of FONT, the
extended glyphs 0x80..0x86 with the two EXT_ADJ_COLS columns OR-ed with 0x01 but for the sharp S 0x86, and the `?` of
FONT for every other code (spec/41_glyph.md R143, R144 and R146). -/
def Obligations.ColumnsForByClass : Prop :=
  ∀ (s : State) (g : Byte) (c : Fin 5),
    (∀ h : g.toNat ≤ 0x07, (columnsFor s g)[c] = s.ug[g.toNat][c]) ∧
    (∀ h : 0x20 ≤ g.toNat ∧ g.toNat ≤ 0x7E, (columnsFor s g)[c] = s.cfg.font[(g.toNat - 0x20) * 5 + c.val]) ∧
    (∀ h : 0x80 ≤ g.toNat ∧ g.toNat ≤ 0x85, (columnsFor s g)[c] =
      if c = s.cfg.adjColLo ∨ c = s.cfg.adjColHi then s.cfg.extFont[g.toNat - 0x80][c] ||| 0x01
      else s.cfg.extFont[g.toNat - 0x80][c]) ∧
    (g.toNat = 0x86 → (columnsFor s g)[c] = s.cfg.extFont[6][c]) ∧
    ((0x08 ≤ g.toNat ∧ g.toNat ≤ 0x1F) ∨ g.toNat = 0x7F ∨ 0x87 ≤ g.toNat →
      (columnsFor s g)[c] = s.cfg.font[155 + c.val])

/-- resolveGlyph maps 0x20..0x7E to themselves, the seven extended codepoints to 0x80..0x86 in order, every other
codepoint to 0x3F, and so none to a user glyph's code 0..7 (spec/41_glyph.md R142 and R149). -/
def Obligations.ResolveGlyphByClass : Prop :=
  (∀ cp : BitVec 11, 0x20 ≤ cp.toNat → cp.toNat ≤ 0x7E → (resolveGlyph cp).toNat = cp.toNat) ∧
  [0xC4, 0xD6, 0xDC, 0xE4, 0xF6, 0xFC, 0xDF].map resolveGlyph = [0x80, 0x81, 0x82, 0x83, 0x84, 0x85, 0x86] ∧
  (∀ cp : BitVec 11, ¬ (0x20 ≤ cp.toNat ∧ cp.toNat ≤ 0x7E) →
    cp.toNat ∉ [0xC4, 0xD6, 0xDC, 0xE4, 0xF6, 0xFC, 0xDF] → resolveGlyph cp = 0x3F) ∧
  (∀ cp : BitVec 11, 8 ≤ (resolveGlyph cp).toNat)

/-- The columns of a codepoint as WRITE draws it: for 0x20..0x7E the built-in font's own, and for the seven extended
codepoints ExtCols of their index, not the `?` (spec/41_glyph.md R148). -/
def Obligations.CodepointsHaveTheirOwnColumns : Prop :=
  ∀ s : State,
    (∀ (cp : BitVec 11) (c : Fin 5), ∀ h : 0x20 ≤ cp.toNat ∧ cp.toNat ≤ 0x7E,
      (columnsFor s (resolveGlyph cp))[c] = s.cfg.font[(cp.toNat - 0x20) * 5 + c.val]) ∧
    [0xC4, 0xD6, 0xDC, 0xE4, 0xF6, 0xFC, 0xDF].map (fun cp => columnsFor s (resolveGlyph cp)) =
      [0, 1, 2, 3, 4, 5, 6].map (extCols s.cfg)

/-- RDGLYPH responds the five columns of its glyph code, column 0 first, and changes nothing else
(spec/41_glyph.md R147). -/
def Obligations.RdglyphAnswersTheColumns : Prop :=
  ∀ (s : State) (g : Byte),
    exec (.rdglyph g) s = .next { s with
      resp := s.resp ++ [(columnsFor s g)[0], (columnsFor s g)[1], (columnsFor s g)[2], (columnsFor s g)[3],
        (columnsFor s g)[4]]
      csp := s.csp + 1, inflight := none, ticks := s.ticks.tail }

/-- The text path never draws a user glyph: what WRITE does, from any state and for any byte, does not depend on the
user-glyph table (spec/41_glyph.md R149). -/
def Obligations.WriteNeverReadsUserGlyphs : Prop :=
  ∀ (s t : State) (b : Byte) (ug : Vector GlyphCols 8), exec (.write b) s = .next t →
    exec (.write b) { s with ug := ug } = .next { t with ug := ug }

/-! ## Text -/

/-- SETCUR clamps each coordinate on its own to the last column or row and changes nothing else
(spec/42_text.md R174). -/
def Obligations.SetcurClampsEachCoordinate : Prop :=
  ∀ (s : State) (col row : BitVec 10), ∃ t, exec (.setcur col row) s = .next t ∧
    t = { s with curCol := t.curCol, curRow := t.curRow, csp := s.csp + 1, inflight := none, ticks := s.ticks.tail } ∧
    t.curCol.toNat = min col.toNat (s.cfg.cols - 1) ∧ t.curRow.toNat = min row.toNat (s.cfg.rows - 1)

/-- WRITE of CR is consumed and ignored: the cursor, the decoder state and the framebuffer are unchanged and the response
is 0x01, whatever the decoder expects (spec/42_text.md R171). -/
def Obligations.WriteCrIsIgnored : Prop :=
  ∀ s : State, exec (.write 0x0D) s = .next { s with
    resp := s.resp ++ [0x01], csp := s.csp + 1, inflight := none, ticks := s.ticks.tail }

/-- WRITE of LF that no tick interrupts moves to column 0 of the next row, or of the same row at the last one, leaves the
framebuffer and the decoder state unchanged and responds 0x01 (spec/42_text.md R172 and R176). The one StepPoint, between
the new line and the response, is log entry 6 (DEDUCED). -/
def Obligations.WriteLfStartsANewLine : Prop :=
  ∀ s : State, s.Inv → s.quiet 1 → ∃ t, exec (.write 0x0A) s = .next t ∧
    t = { s with
      curRow := t.curRow, curCol := 0, resp := s.resp ++ [0x01]
      csp := s.csp + 1, inflight := none, ticks := s.ticks.drop 2 } ∧
    t.curRow.toNat = min (s.curRow.toNat + 1) (s.cfg.rows - 1)

/-- WRITE, not interrupted, of a two-byte lead 0xC0..0xDF to an idle decoder leaves one continuation byte expected and the
lead's low 5 bits accumulated, draws nothing and responds 0x01 (spec/42_text.md R172 and R177). The one StepPoint, between
the decoder's update and the response, is log entry 6 (DEDUCED). -/
def Obligations.WriteOfALeadByteOnlyPends : Prop :=
  ∀ (s : State) (b : Byte), s.uExp = 0 → 0xC0 ≤ b.toNat → b.toNat ≤ 0xDF → s.quiet 1 →
    ∃ t, exec (.write b) s = .next t ∧
      t = { s with
        uExp := 1, uAcc := t.uAcc, resp := s.resp ++ [0x01]
        csp := s.csp + 1, inflight := none, ticks := s.ticks.drop 2 } ∧
      t.uAcc.toNat = b.toNat % 32

/-- WRITE of a byte that completes a codepoint, or is a decode error, draws that codepoint's glyph (for an error `?`) in
the cell at the cursor, leaves the decoder idle and advances the cursor one column, clamped; every pixel outside rows
0..6 of the cell, and every dummy and pad bit, is as before (spec/42_text.md R177 to R181 and R185). Of its 86
StepPoints, those after the decoder reset, before the advance and before the response are log entry 6 (DEDUCED). -/
def Obligations.WriteDrawsTheCodepoint : Prop :=
  ∀ (s : State) (b : Byte) (cp : BitVec 11), s.Inv → s.quiet 86 → b ≠ 0x0D → b ≠ 0x0A → codepointOf s b = some cp →
    ∃ t, exec (.write b) s = .next t ∧
      t = { s with
        fb := t.fb, uExp := 0, uAcc := 0, curCol := t.curCol, resp := s.resp ++ [0x01]
        csp := s.csp + 1, inflight := none, ticks := s.ticks.drop 87 } ∧
      t.curCol.toNat = min (s.curCol.toNat + 1) (s.cfg.cols - 1) ∧
      (∀ x y, s.cfg.inDisplay x y → t.pixel x y = s.drawnPixel (columnsFor s (resolveGlyph cp)) x y) ∧
      (∀ r p, p < 8 * s.cfg.bpr → (p < s.cfg.dummyBits ∨ s.cfg.dummyBits + s.cfg.width ≤ p) →
        t.rawBit r p = s.rawBit r p)

/-- WGLYPH draws its glyph code's columns in the cell at the cursor and advances the cursor one column, clamped; the
decoder state is unchanged and there is no response (spec/42_text.md R181, R183 and R185). Of its 84 StepPoints, the
one before the advance is log entry 6 (DEDUCED). -/
def Obligations.WglyphDrawsTheGlyph : Prop :=
  ∀ (s : State) (g : Byte), s.Inv → s.quiet 84 →
    ∃ t, exec (.wglyph g) s = .next t ∧
      t = { s with
        fb := t.fb, curCol := t.curCol, csp := s.csp + 1, inflight := none, ticks := s.ticks.drop 85 } ∧
      t.curCol.toNat = min (s.curCol.toNat + 1) (s.cfg.cols - 1) ∧
      (∀ x y, s.cfg.inDisplay x y → t.pixel x y = s.drawnPixel (columnsFor s g) x y) ∧
      (∀ r p, p < 8 * s.cfg.bpr → (p < s.cfg.dummyBits ∨ s.cfg.dummyBits + s.cfg.width ≤ p) →
        t.rawBit r p = s.rawBit r p)

/-! ## Refresh -/

/-- START from Stopped, with a period: the timer configured, row 0, Running, the session begun, the timer enabled, the
events in that order; nothing else changes but CSP, whatever ticks arrive (spec/43_refresh.md R201). -/
def Obligations.StartFromStopped : Prop :=
  ∀ (s : State) (period : BitVec 24), s.running = false → period ≠ 0 →
    exec (.start period) s = .next { s with
      timerPeriod := period, refreshRow := 0, running := true, sessionOpen := true, timerEn := true
      trace := s.trace ++ [.tcfg period, .sbegin s.cfg.busClockHz s.cfg.busMode, .ten]
      csp := s.csp + 1, inflight := none, ticks := s.ticks.tail }

/-- START while Running reconfigures the timer and resets the row, and begins no second session: no SBEGIN
(spec/43_refresh.md R202). -/
def Obligations.StartWhileRunning : Prop :=
  ∀ (s : State) (period : BitVec 24), s.running = true → period ≠ 0 →
    exec (.start period) s = .next { s with
      timerPeriod := period, refreshRow := 0, timerEn := true
      trace := s.trace ++ [.tcfg period, .ten]
      csp := s.csp + 1, inflight := none, ticks := s.ticks.tail }

/-- START with PERIOD = 0 is a no-op: no state changes but CSP and no event is emitted (spec/43_refresh.md R203). -/
def Obligations.StartWithPeriodZeroDoesNothing : Prop :=
  ∀ s : State,
    exec (.start 0) s = .next { s with csp := s.csp + 1, inflight := none, ticks := s.ticks.tail }

/-- STOP disables the timer and, when Running, becomes Stopped and ends the session; while Stopped it emits TDIS and no
SEND; REFRESH_ROW keeps its value (spec/43_refresh.md R204 and R205). -/
def Obligations.StopEndsTheSession : Prop :=
  ∀ s : State,
    (s.running = true → exec .stop s = .next { s with
      timerEn := false, running := false, sessionOpen := false, trace := s.trace ++ [.tdis, .send]
      csp := s.csp + 1, inflight := none, ticks := s.ticks.tail }) ∧
    (s.running = false → exec .stop s = .next { s with
      timerEn := false, trace := s.trace ++ [.tdis]
      csp := s.csp + 1, inflight := none, ticks := s.ticks.tail })

/-- A tick of a Running block: the frame strobe around row 0 and no other row, the row's BPR bytes in ascending order
with byte 0's dummy bits 0, the latch pulse, the row cursor advanced with wrap; the cleared byte stays in FB and no other
byte changes (spec/43_refresh.md R206 to R212). On the bus the row's bits leave in ascending physical position: DB zeros,
then the pixels from logical x = W - 1 down to 0, then the pad bits as stored (spec/20_memory.md R54). -/
def Obligations.TickTransmitsTheRow : Prop :=
  ∀ s : State, s.Inv → s.running = true → s.tickDue = true →
    ∃ t, step s = .next t ∧
      t = { s with
        fb := t.fb, refreshRow := t.refreshRow
        trace := s.trace ++ (if s.refreshRow = 0 then [.fs true] else []) ++
          (List.range s.cfg.bpr).map (fun k => .byte (t.fbRead (s.refreshRow.toNat * s.cfg.bpr + k))) ++
          [.ll true, .wait s.cfg.pulseUs, .ll false] ++ (if s.refreshRow = 0 then [.fs false] else [])
        ticks := (s.ticks.headD 0 - 1) :: s.ticks.tail } ∧
      t.refreshRow.toNat = (s.refreshRow.toNat + 1) % s.cfg.height ∧
      t.fbRead (s.refreshRow.toNat * s.cfg.bpr) =
        s.fbRead (s.refreshRow.toNat * s.cfg.bpr) &&& ~~~(0xFF#8 <<< (8 - s.cfg.dummyBits)) ∧
      (∀ a, a ≠ s.refreshRow.toNat * s.cfg.bpr → t.fbRead a = s.fbRead a) ∧
      (∀ r p, s.cfg.dummyBits ≤ p → p < 8 * s.cfg.bpr → t.rawBit r p = s.rawBit r p) ∧
      t.busBits = s.busBits ++ List.replicate s.cfg.dummyBits false ++
        (List.range s.cfg.width).map (fun n => s.pixel (s.cfg.width - 1 - n) s.refreshRow.toNat) ++
        (List.range (8 * s.cfg.bpr - (s.cfg.dummyBits + s.cfg.width))).map
          (fun n => s.rawBit s.refreshRow.toNat (s.cfg.dummyBits + s.cfg.width + n))

/-- From row 0 of a Running block, n ticks with no command between them transmit rows 0, 1, ..., H-1, 0, 1, ... in strict
round robin, each with the frame strobe exactly when it is row 0, and the bytes are the rows' bytes at the start with the
dummy bits 0 (spec/43_refresh.md R213). -/
def Obligations.TicksGoRoundRobin : Prop :=
  ∀ (n : Nat) (s : State), s.Inv → s.running = true → s.refreshRow = 0 → n ≤ s.ticks.headD 0 →
    ∃ t, Host.Core.run Sys2Proof.core n s = .next t ∧
      t.refreshRow.toNat = n % s.cfg.height ∧ t.running = true ∧
      t.trace = s.trace ++ (List.range n).flatMap fun m => s.rowEvents (m % s.cfg.height)

/-- While the block is Stopped no tick emits any event or changes any state, between two commands or at a StepPoint inside
one: a step that takes it only takes it off those due. After STOP this goes on however many ticks are delivered
(spec/43_refresh.md R206 and R214). -/
def Obligations.NoTickTransmitsAfterStop : Prop :=
  (∀ s : State, s.running = false → s.tickDue = true →
    step s = .next { s with ticks := (s.ticks.headD 0 - 1) :: s.ticks.tail }) ∧
  (∀ (s t : State) (n : Nat), exec .stop s = .next t → n ≤ t.ticks.headD 0 →
    ∃ u, Host.Core.run Sys2Proof.core n t = .next u ∧ u = { t with ticks := u.ticks } ∧
      u.ticks.headD 0 = t.ticks.headD 0 - n ∧ u.ticks.tail = t.ticks.tail)

/-! ## System -/

/-- RDSTAT responds the 11 bytes of the status image, multi-byte fields little-endian and reserved bits 0, and changes
nothing else, whatever ticks arrive (spec/44_system.md R232, spec/10_state.md R40). -/
def Obligations.RdstatAnswersTheStatusImage : Prop :=
  ∀ s : State, ∃ bs : List Byte,
    exec .rdstat s = .next { s with
      resp := s.resp ++ bs, csp := s.csp + 1, inflight := none, ticks := s.ticks.tail } ∧
    bs.map BitVec.toNat =
      [ s.running.toNat + 2 * s.uExp.toNat + 4 * s.timerEn.toNat + 8 * s.sessionOpen.toNat,
        s.uAcc.toNat,
        s.refreshRow.toNat % 256, s.refreshRow.toNat / 256,
        s.curCol.toNat % 256, s.curCol.toNat / 256,
        s.curRow.toNat % 256, s.curRow.toNat / 256,
        s.timerPeriod.toNat % 256, s.timerPeriod.toNat / 256 % 256, s.timerPeriod.toNat / 65536 ]

/-! ## Commands and ticks together -/

/-- No write of a command is lost to a tick: run to its completion under any ticks, a command leaves every pixel bit and
pad bit of the framebuffer, the cursor, the decoder and the user glyphs as it leaves them when no tick arrives, and it
responds the same bytes: a WRITE its one 0x01 (spec/70_reset_and_hazards.md R290, spec/20_memory.md R62,
spec/42_text.md R172). Only RDFB, whose byte may hold dummy bits a tick clears, and RDSTAT, which answers the refresh state,
may respond other bytes, of the same number. -/
def Obligations.TicksNeverChangeWhatACommandDraws : Prop :=
  ∀ (s u : State) (i : Instr) (rest : List Word), s.Inv → s.inflight = none → decode s.port = .ok (i, rest) →
    step { s with ticks := [] } = .next u →
    ∃ k t, Host.Core.run Sys2Proof.core k s = .next t ∧ t.inflight = none ∧ t.csp = u.csp ∧ t.port = u.port ∧
      SameText u t ∧
      (∀ r p, r < s.cfg.height → s.cfg.dummyBits ≤ p → p < 8 * s.cfg.bpr → t.rawBit r p = u.rawBit r p) ∧
      t.resp.length = u.resp.length ∧
      (∀ b, i = .write b → t.resp = s.resp ++ [0x01]) ∧
      ((∀ a, i ≠ .rdfb a) → i ≠ .rdstat → t.resp = u.resp)

/-! ## The strobe outputs -/

/-- The electrical level of each strobe output is its active level exactly when its logical level is 1, and wherever a
step leaves the machine both outputs are at their deasserted level (spec/10_state.md R36, spec/60_exceptions.md R267,
spec/43_refresh.md R215). -/
def Obligations.StrobeOutputsRestDeasserted : Prop :=
  (∀ s : State, (s.fsPin = s.cfg.fsActive ↔ s.fsLvl = true) ∧ (s.llPin = s.cfg.llActive ↔ s.llLvl = true)) ∧
  (∀ s : State, s.Inv → s.fsPin = !s.cfg.fsActive ∧ s.llPin = !s.cfg.llActive) ∧
  (∀ s t : State, s.Inv → step s = .next t → t.fsPin = !s.cfg.fsActive ∧ t.llPin = !s.cfg.llActive)
end

