-- ==== Sys2Proof/Laws/Memory.lean ====
section
/-! SUPPORT. The framebuffer's list of cells: read after write, the canonical form, and its bound. -/

namespace Sys2Proof.Machine

theorem Memory.wf_nil : Memory.wf [] := by simp [Memory.wf]

/-- An address below every listed one reads as unlisted. -/
theorem Memory.read_below {m : Memory} {x : Nat} (h : ∀ c ∈ m, x < c.1) :
    Memory.read m x = Memory.unlisted := by
  induction m with
  | nil => rfl
  | cons c rest ih =>
    obtain ⟨a, b⟩ := c
    have ha : x < a := h (a, b) (by simp)
    have hr : ∀ d ∈ rest, x < d.1 := fun d hd => h d (by simp [hd])
    simp [Memory.read, Nat.ne_of_lt ha, ih hr]

/-- An address nothing lists reads as unlisted. -/
theorem Memory.read_unlisted {m : Memory} {x : Nat} (h : ∀ c ∈ m, c.1 ≠ x) :
    Memory.read m x = Memory.unlisted := by
  induction m with
  | nil => rfl
  | cons c rest ih =>
    obtain ⟨a, b⟩ := c
    have ha : x ≠ a := fun e => h (a, b) (by simp) e.symm
    have hr : ∀ d ∈ rest, d.1 ≠ x := fun d hd => h d (by simp [hd])
    simp [Memory.read, ha, ih hr]

theorem Memory.read_write_other {m : Memory} {x y : Nat} {v : Byte} (h : y ≠ x) :
    Memory.read (Memory.write m x v) y = Memory.read m y := by
  induction m with
  | nil => by_cases hv : v = Memory.unlisted <;> simp [Memory.write, Memory.read, hv, h]
  | cons c rest ih =>
    obtain ⟨a, b⟩ := c
    by_cases h1 : x < a
    · by_cases hv : v = Memory.unlisted <;> simp [Memory.write, Memory.read, h1, hv, h]
    · by_cases h2 : x = a
      · subst h2
        by_cases hv : v = Memory.unlisted <;> simp [Memory.write, Memory.read, hv, h]
      · simp [Memory.write, Memory.read, h1, h2, ih]

theorem Memory.read_write_same {m : Memory} (hm : Memory.wf m) {x : Nat} {v : Byte} :
    Memory.read (Memory.write m x v) x = v := by
  induction m with
  | nil => by_cases hv : v = Memory.unlisted <;> simp [Memory.write, Memory.read, hv]
  | cons c rest ih =>
    obtain ⟨a, b⟩ := c
    obtain ⟨hs, hv0⟩ := hm
    rw [List.pairwise_cons] at hs
    have hrest : Memory.wf rest := ⟨hs.2, fun d hd => hv0 d (by simp [hd])⟩
    by_cases h1 : x < a
    · by_cases hv : v = Memory.unlisted
      · subst hv
        have : Memory.read rest x = Memory.unlisted :=
          Memory.read_below fun d hd => Nat.lt_trans h1 (hs.1 d hd)
        simp [Memory.write, Memory.read, h1, Nat.ne_of_lt h1, this]
      · simp [Memory.write, Memory.read, h1, hv]
    · by_cases h2 : x = a
      · subst h2
        by_cases hv : v = Memory.unlisted
        · subst hv
          have : Memory.read rest x = Memory.unlisted := Memory.read_below hs.1
          simp [Memory.write, this]
        · simp [Memory.write, Memory.read, hv]
      · simp [Memory.write, Memory.read, h1, h2, ih hrest]

/-- A write lists no address but the old ones and the one written. -/
theorem Memory.mem_write {m : Memory} {x : Nat} {v : Byte} {c : Host.Cell} (h : c ∈ Memory.write m x v) :
    c ∈ m ∨ c.1 = x ∧ c.2 = v := by
  induction m with
  | nil =>
    by_cases hv : v = Memory.unlisted <;> simp [Memory.write, hv] at h
    simp [h]
  | cons d rest ih =>
    obtain ⟨a, b⟩ := d
    by_cases h1 : x < a
    · by_cases hv : v = Memory.unlisted <;> simp [Memory.write, h1, hv] at h
      · simp [h]
      · rcases h with rfl | rfl | h <;> simp_all
    · by_cases h2 : x = a
      · subst h2
        by_cases hv : v = Memory.unlisted <;> simp [Memory.write, hv] at h
        · simp [h]
        · rcases h with rfl | h <;> simp_all
      · simp only [Memory.write, h1, h2, if_false, List.mem_cons] at h
        rcases h with rfl | h
        · simp
        · rcases ih h with h | h
          · simp [h]
          · exact .inr h

theorem Memory.write_wf {m : Memory} (hm : Memory.wf m) (x : Nat) (v : Byte) :
    Memory.wf (Memory.write m x v) := by
  induction m with
  | nil => by_cases hv : v = Memory.unlisted <;> simp [Memory.write, Memory.wf, hv]
  | cons c rest ih =>
    obtain ⟨a, b⟩ := c
    have hrest : Memory.wf rest :=
      ⟨(List.pairwise_cons.1 hm.1).2, fun d hd => hm.2 d (by simp [hd])⟩
    have hlt := (List.pairwise_cons.1 hm.1).1
    have hb : b ≠ Memory.unlisted := hm.2 (a, b) (by simp)
    by_cases h1 : x < a
    · by_cases hv : v = Memory.unlisted
      · simpa [Memory.write, h1, hv] using hm
      · simp only [Memory.write, h1, hv, if_true, if_false]
        refine ⟨List.pairwise_cons.2 ⟨?_, hm.1⟩, ?_⟩
        · intro d hd
          rcases List.mem_cons.1 hd with rfl | hd
          · exact h1
          · exact Nat.lt_trans h1 (hlt d hd)
        · intro d hd
          rcases List.mem_cons.1 hd with rfl | hd
          · exact hv
          · exact hm.2 d hd
    · by_cases h2 : x = a
      · subst h2
        by_cases hv : v = Memory.unlisted
        · simpa [Memory.write, hv] using hrest
        · simp only [Memory.write, hv, if_true, if_false, Nat.lt_irrefl]
          refine ⟨List.pairwise_cons.2 ⟨hlt, hrest.1⟩, ?_⟩
          intro d hd
          rcases List.mem_cons.1 hd with rfl | hd
          · exact hv
          · exact hrest.2 d hd
      · simp only [Memory.write, h1, h2, if_false]
        have hax : a < x := by omega
        refine ⟨List.pairwise_cons.2 ⟨?_, (ih hrest).1⟩, ?_⟩
        · intro d hd
          rcases Memory.mem_write hd with hd | ⟨hd, -⟩
          · exact hlt d hd
          · simpa [hd] using hax
        · intro d hd
          rcases List.mem_cons.1 hd with rfl | hd
          · exact hb
          · exact (ih hrest).2 d hd

end Sys2Proof.Machine
end

