-- ==== Sys2Proof/Laws/Operands.lean ====
section
/-! SUPPORT. What the operand computations give: the geometry's bounds, the pixel transform as an injection onto the
pixel bits, the masks bit by bit, the cursor clamp, the transposition. -/

namespace Sys2Proof

theorem Config.bpr_bits (c : Config) : c.width + c.dummyBits ≤ 8 * c.bpr := by
  unfold Config.bpr; omega

theorem Config.bpr_bounds (c : Config) : 1 ≤ c.bpr ∧ c.bpr ≤ 129 := by
  have := c.width_range; have := c.dummyBits_range
  unfold Config.bpr; omega

theorem Config.cols_bounds (c : Config) : 1 ≤ c.cols ∧ c.cols * 6 ≤ c.width ∧ c.cols ≤ 1024 := by
  have := c.width_range
  unfold Config.cols charW; omega

theorem Config.rows_bounds (c : Config) : 1 ≤ c.rows ∧ c.rows * 8 ≤ c.height ∧ c.rows ≤ 1024 := by
  have := c.height_range
  unfold Config.rows charH; omega

theorem Config.byteAddr_lt (c : Config) {r k : Nat} (hr : r < c.height) (hk : k < c.bpr) :
    c.byteAddr r k < c.fbSize := by
  have h : (r + 1) * c.bpr ≤ c.height * c.bpr := Nat.mul_le_mul_right _ hr
  rw [Nat.succ_mul] at h
  unfold Config.byteAddr Config.fbSize; omega

theorem Config.fbSize_ge_height (c : Config) : c.height ≤ c.fbSize := by
  have := c.bpr_bounds
  simpa [Config.fbSize] using Nat.mul_le_mul_left c.height this.1

/-- The linear address determines row and byte index (spec/20_memory.md R50). -/
theorem Config.byteAddr_inj (c : Config) {r k r' k' : Nat} (hk : k < c.bpr) (hk' : k' < c.bpr)
    (h : c.byteAddr r k = c.byteAddr r' k') : r = r' ∧ k = k' := by
  unfold Config.byteAddr at h
  have hd : ∀ a b : Nat, b < c.bpr → (a * c.bpr + b) / c.bpr = a := fun a b hb => by
    rw [Nat.mul_comm, Nat.mul_add_div (by omega), Nat.div_eq_of_lt hb, Nat.add_zero]
  have hr : r = r' := by rw [← hd r k hk, ← hd r' k' hk', h]
  subst hr
  exact ⟨rfl, by omega⟩

/-- The physical position of an in-range column is a pixel bit (spec/20_memory.md R52). -/
theorem Config.pixelPos_range (c : Config) {x : Nat} (hx : x < c.width) :
    c.dummyBits ≤ c.pixelPos x ∧ c.pixelPos x < c.dummyBits + c.width := by
  unfold Config.pixelPos; omega

theorem Config.pixelPos_inj (c : Config) {x x' : Nat} (hx : x < c.width) (hx' : x' < c.width)
    (h : c.pixelPos x = c.pixelPos x') : x = x' := by
  unfold Config.pixelPos at h; omega

theorem Config.pos_div_lt_bpr (c : Config) {p : Nat} (hp : p < 8 * c.bpr) : p / 8 < c.bpr := by omega

theorem Config.pixelPos_div_lt (c : Config) {x : Nat} (hx : x < c.width) : c.pixelPos x / 8 < c.bpr := by
  have := c.pixelPos_range hx; have := c.bpr_bits; omega

theorem Config.pixelAddr_lt (c : Config) {x y : Nat} (hx : x < c.width) (hy : y < c.height) :
    c.pixelAddr x y < c.fbSize :=
  c.byteAddr_lt hy (c.pixelPos_div_lt hx)

/-- Every pixel of a character cell is on the display (spec/42_text.md R173). -/
theorem Config.cell_inDisplay (c : Config) {col row x y : Nat} (hc : col < c.cols) (hr : row < c.rows)
    (hx : x < col * 6 + 6) (hy : y < row * 8 + 8) : c.inDisplay x y := by
  have := c.cols_bounds; have := c.rows_bounds
  have h1 : (col + 1) * 6 ≤ c.cols * 6 := Nat.mul_le_mul_right _ hc
  have h2 : (row + 1) * 8 ≤ c.rows * 8 := Nat.mul_le_mul_right _ hr
  constructor <;> omega

/-- A bit mask has exactly the bit of its position (spec/20_memory.md R51). -/
theorem bitMask_getLsbD (p j : Nat) : (bitMask p).getLsbD j = decide (j = 7 - p % 8) := by
  unfold bitMask
  have hp : p % 8 < 8 := Nat.mod_lt _ (by decide)
  generalize p % 8 = q at hp
  rcases Nat.lt_or_ge j 8 with hj | hj
  · interval_cases q <;> interval_cases j <;> decide
  · rw [BitVec.getLsbD_of_ge _ _ hj]; symm; simp; omega

/-- The dummy mask selects exactly the DB most-significant bits (spec/20_memory.md R53). -/
theorem Config.dummyMask_getLsbD (c : Config) (j : Nat) :
    c.dummyMask.getLsbD j = decide (8 - c.dummyBits ≤ j ∧ j < 8) := by
  unfold Config.dummyMask
  have hd := c.dummyBits_range
  generalize c.dummyBits = q at hd
  rcases Nat.lt_or_ge j 8 with hj | hj
  · interval_cases q <;> interval_cases j <;> decide
  · rw [BitVec.getLsbD_of_ge _ _ hj]; symm; simp; omega

theorem clampCell_toNat (v : BitVec 10) (n : Nat) : (clampCell v n).toNat = min v.toNat (n - 1) := by
  have := v.isLt
  unfold clampCell
  rw [BitVec.toNat_ofNat, Nat.mod_eq_of_lt (by omega)]

theorem clampCell_lt (v : BitVec 10) {n : Nat} (hn : 1 ≤ n) : (clampCell v n).toNat < n := by
  rw [clampCell_toNat]; omega

/-- Bit r of a transposed column is bit (4 - c) of input row r (spec/41_glyph.md R141). -/
theorem bitmapColumn_getLsbD (bm : Vector Byte 8) (c : Nat) (r : Fin 8) :
    (bitmapColumn bm c).getLsbD r.val = bm[r].getLsbD (4 - c) := by
  unfold bitmapColumn
  obtain ⟨r, hr⟩ := r
  interval_cases r <;> simp only [BitVec.getLsbD_append, BitVec.getLsbD_ofBool] <;> simp

theorem bitmapColumns_getElem (bm : Vector Byte 8) (c : Fin 5) :
    (bitmapColumns bm)[c] = bitmapColumn bm c.val := by
  match c with
  | ⟨0, _⟩ => rfl
  | ⟨1, _⟩ => rfl
  | ⟨2, _⟩ => rfl
  | ⟨3, _⟩ => rfl
  | ⟨4, _⟩ => rfl

end Sys2Proof
end

