-- ==== Sys2Proof/Laws/State.lean ====
section
/-! SUPPORT. One lemma per field per update of State, each true by rfl, so that no later proof unfolds a record update. -/

namespace Sys2Proof.Machine

@[simp] theorem State.emit_cfg (s : State) (evs : List Event) : (s.emit evs).cfg = s.cfg := rfl
@[simp] theorem State.emit_csp (s : State) (evs : List Event) : (s.emit evs).csp = s.csp := rfl
@[simp] theorem State.emit_inflight (s : State) (evs : List Event) : (s.emit evs).inflight = s.inflight := rfl
@[simp] theorem State.emit_fb (s : State) (evs : List Event) : (s.emit evs).fb = s.fb := rfl
@[simp] theorem State.emit_ug (s : State) (evs : List Event) : (s.emit evs).ug = s.ug := rfl
@[simp] theorem State.emit_curCol (s : State) (evs : List Event) : (s.emit evs).curCol = s.curCol := rfl
@[simp] theorem State.emit_curRow (s : State) (evs : List Event) : (s.emit evs).curRow = s.curRow := rfl
@[simp] theorem State.emit_uExp (s : State) (evs : List Event) : (s.emit evs).uExp = s.uExp := rfl
@[simp] theorem State.emit_uAcc (s : State) (evs : List Event) : (s.emit evs).uAcc = s.uAcc := rfl
@[simp] theorem State.emit_running (s : State) (evs : List Event) : (s.emit evs).running = s.running := rfl
@[simp] theorem State.emit_refreshRow (s : State) (evs : List Event) : (s.emit evs).refreshRow = s.refreshRow := rfl
@[simp] theorem State.emit_timerPeriod (s : State) (evs : List Event) : (s.emit evs).timerPeriod = s.timerPeriod := rfl
@[simp] theorem State.emit_timerEn (s : State) (evs : List Event) : (s.emit evs).timerEn = s.timerEn := rfl
@[simp] theorem State.emit_sessionOpen (s : State) (evs : List Event) : (s.emit evs).sessionOpen = s.sessionOpen := rfl
@[simp] theorem State.emit_fsLvl (s : State) (evs : List Event) : (s.emit evs).fsLvl = s.fsLvl := rfl
@[simp] theorem State.emit_llLvl (s : State) (evs : List Event) : (s.emit evs).llLvl = s.llLvl := rfl
@[simp] theorem State.emit_resp (s : State) (evs : List Event) : (s.emit evs).resp = s.resp := rfl
@[simp] theorem State.emit_trace (s : State) (evs : List Event) : (s.emit evs).trace = s.trace ++ evs := rfl
@[simp] theorem State.emit_port (s : State) (evs : List Event) : (s.emit evs).port = s.port := rfl
@[simp] theorem State.emit_ticks (s : State) (evs : List Event) : (s.emit evs).ticks = s.ticks := rfl

@[simp] theorem State.respond_cfg (s : State) (bs : List Byte) : (s.respond bs).cfg = s.cfg := rfl
@[simp] theorem State.respond_csp (s : State) (bs : List Byte) : (s.respond bs).csp = s.csp := rfl
@[simp] theorem State.respond_inflight (s : State) (bs : List Byte) : (s.respond bs).inflight = s.inflight := rfl
@[simp] theorem State.respond_fb (s : State) (bs : List Byte) : (s.respond bs).fb = s.fb := rfl
@[simp] theorem State.respond_ug (s : State) (bs : List Byte) : (s.respond bs).ug = s.ug := rfl
@[simp] theorem State.respond_curCol (s : State) (bs : List Byte) : (s.respond bs).curCol = s.curCol := rfl
@[simp] theorem State.respond_curRow (s : State) (bs : List Byte) : (s.respond bs).curRow = s.curRow := rfl
@[simp] theorem State.respond_uExp (s : State) (bs : List Byte) : (s.respond bs).uExp = s.uExp := rfl
@[simp] theorem State.respond_uAcc (s : State) (bs : List Byte) : (s.respond bs).uAcc = s.uAcc := rfl
@[simp] theorem State.respond_running (s : State) (bs : List Byte) : (s.respond bs).running = s.running := rfl
@[simp] theorem State.respond_refreshRow (s : State) (bs : List Byte) : (s.respond bs).refreshRow = s.refreshRow := rfl
@[simp] theorem State.respond_timerPeriod (s : State) (bs : List Byte) : (s.respond bs).timerPeriod = s.timerPeriod := rfl
@[simp] theorem State.respond_timerEn (s : State) (bs : List Byte) : (s.respond bs).timerEn = s.timerEn := rfl
@[simp] theorem State.respond_sessionOpen (s : State) (bs : List Byte) : (s.respond bs).sessionOpen = s.sessionOpen := rfl
@[simp] theorem State.respond_fsLvl (s : State) (bs : List Byte) : (s.respond bs).fsLvl = s.fsLvl := rfl
@[simp] theorem State.respond_llLvl (s : State) (bs : List Byte) : (s.respond bs).llLvl = s.llLvl := rfl
@[simp] theorem State.respond_resp (s : State) (bs : List Byte) : (s.respond bs).resp = s.resp ++ bs := rfl
@[simp] theorem State.respond_trace (s : State) (bs : List Byte) : (s.respond bs).trace = s.trace := rfl
@[simp] theorem State.respond_port (s : State) (bs : List Byte) : (s.respond bs).port = s.port := rfl
@[simp] theorem State.respond_ticks (s : State) (bs : List Byte) : (s.respond bs).ticks = s.ticks := rfl

@[simp] theorem State.setFs_cfg (s : State) (l : Bool) : (s.setFs l).cfg = s.cfg := rfl
@[simp] theorem State.setFs_csp (s : State) (l : Bool) : (s.setFs l).csp = s.csp := rfl
@[simp] theorem State.setFs_inflight (s : State) (l : Bool) : (s.setFs l).inflight = s.inflight := rfl
@[simp] theorem State.setFs_fb (s : State) (l : Bool) : (s.setFs l).fb = s.fb := rfl
@[simp] theorem State.setFs_ug (s : State) (l : Bool) : (s.setFs l).ug = s.ug := rfl
@[simp] theorem State.setFs_curCol (s : State) (l : Bool) : (s.setFs l).curCol = s.curCol := rfl
@[simp] theorem State.setFs_curRow (s : State) (l : Bool) : (s.setFs l).curRow = s.curRow := rfl
@[simp] theorem State.setFs_uExp (s : State) (l : Bool) : (s.setFs l).uExp = s.uExp := rfl
@[simp] theorem State.setFs_uAcc (s : State) (l : Bool) : (s.setFs l).uAcc = s.uAcc := rfl
@[simp] theorem State.setFs_running (s : State) (l : Bool) : (s.setFs l).running = s.running := rfl
@[simp] theorem State.setFs_refreshRow (s : State) (l : Bool) : (s.setFs l).refreshRow = s.refreshRow := rfl
@[simp] theorem State.setFs_timerPeriod (s : State) (l : Bool) : (s.setFs l).timerPeriod = s.timerPeriod := rfl
@[simp] theorem State.setFs_timerEn (s : State) (l : Bool) : (s.setFs l).timerEn = s.timerEn := rfl
@[simp] theorem State.setFs_sessionOpen (s : State) (l : Bool) : (s.setFs l).sessionOpen = s.sessionOpen := rfl
@[simp] theorem State.setFs_fsLvl (s : State) (l : Bool) : (s.setFs l).fsLvl = l := rfl
@[simp] theorem State.setFs_llLvl (s : State) (l : Bool) : (s.setFs l).llLvl = s.llLvl := rfl
@[simp] theorem State.setFs_resp (s : State) (l : Bool) : (s.setFs l).resp = s.resp := rfl
@[simp] theorem State.setFs_trace (s : State) (l : Bool) : (s.setFs l).trace = s.trace ++ [.fs l] := rfl
@[simp] theorem State.setFs_port (s : State) (l : Bool) : (s.setFs l).port = s.port := rfl
@[simp] theorem State.setFs_ticks (s : State) (l : Bool) : (s.setFs l).ticks = s.ticks := rfl

@[simp] theorem State.setLl_cfg (s : State) (l : Bool) : (s.setLl l).cfg = s.cfg := rfl
@[simp] theorem State.setLl_csp (s : State) (l : Bool) : (s.setLl l).csp = s.csp := rfl
@[simp] theorem State.setLl_inflight (s : State) (l : Bool) : (s.setLl l).inflight = s.inflight := rfl
@[simp] theorem State.setLl_fb (s : State) (l : Bool) : (s.setLl l).fb = s.fb := rfl
@[simp] theorem State.setLl_ug (s : State) (l : Bool) : (s.setLl l).ug = s.ug := rfl
@[simp] theorem State.setLl_curCol (s : State) (l : Bool) : (s.setLl l).curCol = s.curCol := rfl
@[simp] theorem State.setLl_curRow (s : State) (l : Bool) : (s.setLl l).curRow = s.curRow := rfl
@[simp] theorem State.setLl_uExp (s : State) (l : Bool) : (s.setLl l).uExp = s.uExp := rfl
@[simp] theorem State.setLl_uAcc (s : State) (l : Bool) : (s.setLl l).uAcc = s.uAcc := rfl
@[simp] theorem State.setLl_running (s : State) (l : Bool) : (s.setLl l).running = s.running := rfl
@[simp] theorem State.setLl_refreshRow (s : State) (l : Bool) : (s.setLl l).refreshRow = s.refreshRow := rfl
@[simp] theorem State.setLl_timerPeriod (s : State) (l : Bool) : (s.setLl l).timerPeriod = s.timerPeriod := rfl
@[simp] theorem State.setLl_timerEn (s : State) (l : Bool) : (s.setLl l).timerEn = s.timerEn := rfl
@[simp] theorem State.setLl_sessionOpen (s : State) (l : Bool) : (s.setLl l).sessionOpen = s.sessionOpen := rfl
@[simp] theorem State.setLl_fsLvl (s : State) (l : Bool) : (s.setLl l).fsLvl = s.fsLvl := rfl
@[simp] theorem State.setLl_llLvl (s : State) (l : Bool) : (s.setLl l).llLvl = l := rfl
@[simp] theorem State.setLl_resp (s : State) (l : Bool) : (s.setLl l).resp = s.resp := rfl
@[simp] theorem State.setLl_trace (s : State) (l : Bool) : (s.setLl l).trace = s.trace ++ [.ll l] := rfl
@[simp] theorem State.setLl_port (s : State) (l : Bool) : (s.setLl l).port = s.port := rfl
@[simp] theorem State.setLl_ticks (s : State) (l : Bool) : (s.setLl l).ticks = s.ticks := rfl

@[simp] theorem State.leavePoint_cfg (s : State) : s.leavePoint.cfg = s.cfg := rfl
@[simp] theorem State.leavePoint_csp (s : State) : s.leavePoint.csp = s.csp := rfl
@[simp] theorem State.leavePoint_inflight (s : State) : s.leavePoint.inflight = s.inflight := rfl
@[simp] theorem State.leavePoint_fb (s : State) : s.leavePoint.fb = s.fb := rfl
@[simp] theorem State.leavePoint_ug (s : State) : s.leavePoint.ug = s.ug := rfl
@[simp] theorem State.leavePoint_curCol (s : State) : s.leavePoint.curCol = s.curCol := rfl
@[simp] theorem State.leavePoint_curRow (s : State) : s.leavePoint.curRow = s.curRow := rfl
@[simp] theorem State.leavePoint_uExp (s : State) : s.leavePoint.uExp = s.uExp := rfl
@[simp] theorem State.leavePoint_uAcc (s : State) : s.leavePoint.uAcc = s.uAcc := rfl
@[simp] theorem State.leavePoint_running (s : State) : s.leavePoint.running = s.running := rfl
@[simp] theorem State.leavePoint_refreshRow (s : State) : s.leavePoint.refreshRow = s.refreshRow := rfl
@[simp] theorem State.leavePoint_timerPeriod (s : State) : s.leavePoint.timerPeriod = s.timerPeriod := rfl
@[simp] theorem State.leavePoint_timerEn (s : State) : s.leavePoint.timerEn = s.timerEn := rfl
@[simp] theorem State.leavePoint_sessionOpen (s : State) : s.leavePoint.sessionOpen = s.sessionOpen := rfl
@[simp] theorem State.leavePoint_fsLvl (s : State) : s.leavePoint.fsLvl = s.fsLvl := rfl
@[simp] theorem State.leavePoint_llLvl (s : State) : s.leavePoint.llLvl = s.llLvl := rfl
@[simp] theorem State.leavePoint_resp (s : State) : s.leavePoint.resp = s.resp := rfl
@[simp] theorem State.leavePoint_trace (s : State) : s.leavePoint.trace = s.trace := rfl
@[simp] theorem State.leavePoint_port (s : State) : s.leavePoint.port = s.port := rfl
@[simp] theorem State.leavePoint_ticks (s : State) : s.leavePoint.ticks = s.ticks.tail := rfl

@[simp] theorem State.complete_cfg (s : State) (i : Instr) : (s.complete i).cfg = s.cfg := rfl
@[simp] theorem State.complete_csp (s : State) (i : Instr) : (s.complete i).csp = s.csp + i.words := rfl
@[simp] theorem State.complete_inflight (s : State) (i : Instr) : (s.complete i).inflight = none := rfl
@[simp] theorem State.complete_fb (s : State) (i : Instr) : (s.complete i).fb = s.fb := rfl
@[simp] theorem State.complete_ug (s : State) (i : Instr) : (s.complete i).ug = s.ug := rfl
@[simp] theorem State.complete_curCol (s : State) (i : Instr) : (s.complete i).curCol = s.curCol := rfl
@[simp] theorem State.complete_curRow (s : State) (i : Instr) : (s.complete i).curRow = s.curRow := rfl
@[simp] theorem State.complete_uExp (s : State) (i : Instr) : (s.complete i).uExp = s.uExp := rfl
@[simp] theorem State.complete_uAcc (s : State) (i : Instr) : (s.complete i).uAcc = s.uAcc := rfl
@[simp] theorem State.complete_running (s : State) (i : Instr) : (s.complete i).running = s.running := rfl
@[simp] theorem State.complete_refreshRow (s : State) (i : Instr) : (s.complete i).refreshRow = s.refreshRow := rfl
@[simp] theorem State.complete_timerPeriod (s : State) (i : Instr) : (s.complete i).timerPeriod = s.timerPeriod := rfl
@[simp] theorem State.complete_timerEn (s : State) (i : Instr) : (s.complete i).timerEn = s.timerEn := rfl
@[simp] theorem State.complete_sessionOpen (s : State) (i : Instr) : (s.complete i).sessionOpen = s.sessionOpen := rfl
@[simp] theorem State.complete_fsLvl (s : State) (i : Instr) : (s.complete i).fsLvl = s.fsLvl := rfl
@[simp] theorem State.complete_llLvl (s : State) (i : Instr) : (s.complete i).llLvl = s.llLvl := rfl
@[simp] theorem State.complete_resp (s : State) (i : Instr) : (s.complete i).resp = s.resp := rfl
@[simp] theorem State.complete_trace (s : State) (i : Instr) : (s.complete i).trace = s.trace := rfl
@[simp] theorem State.complete_port (s : State) (i : Instr) : (s.complete i).port = s.port := rfl
@[simp] theorem State.complete_ticks (s : State) (i : Instr) : (s.complete i).ticks = s.ticks.tail := rfl

@[simp] theorem State.park_cfg (s : State) (i : Instr) (todo : List Micro) (v : Byte) : (s.park i todo v).cfg = s.cfg := rfl
@[simp] theorem State.park_csp (s : State) (i : Instr) (todo : List Micro) (v : Byte) : (s.park i todo v).csp = s.csp := rfl
@[simp] theorem State.park_inflight (s : State) (i : Instr) (todo : List Micro) (v : Byte) : (s.park i todo v).inflight = some ⟨i, todo, v⟩ := rfl
@[simp] theorem State.park_fb (s : State) (i : Instr) (todo : List Micro) (v : Byte) : (s.park i todo v).fb = s.fb := rfl
@[simp] theorem State.park_ug (s : State) (i : Instr) (todo : List Micro) (v : Byte) : (s.park i todo v).ug = s.ug := rfl
@[simp] theorem State.park_curCol (s : State) (i : Instr) (todo : List Micro) (v : Byte) : (s.park i todo v).curCol = s.curCol := rfl
@[simp] theorem State.park_curRow (s : State) (i : Instr) (todo : List Micro) (v : Byte) : (s.park i todo v).curRow = s.curRow := rfl
@[simp] theorem State.park_uExp (s : State) (i : Instr) (todo : List Micro) (v : Byte) : (s.park i todo v).uExp = s.uExp := rfl
@[simp] theorem State.park_uAcc (s : State) (i : Instr) (todo : List Micro) (v : Byte) : (s.park i todo v).uAcc = s.uAcc := rfl
@[simp] theorem State.park_running (s : State) (i : Instr) (todo : List Micro) (v : Byte) : (s.park i todo v).running = s.running := rfl
@[simp] theorem State.park_refreshRow (s : State) (i : Instr) (todo : List Micro) (v : Byte) : (s.park i todo v).refreshRow = s.refreshRow := rfl
@[simp] theorem State.park_timerPeriod (s : State) (i : Instr) (todo : List Micro) (v : Byte) : (s.park i todo v).timerPeriod = s.timerPeriod := rfl
@[simp] theorem State.park_timerEn (s : State) (i : Instr) (todo : List Micro) (v : Byte) : (s.park i todo v).timerEn = s.timerEn := rfl
@[simp] theorem State.park_sessionOpen (s : State) (i : Instr) (todo : List Micro) (v : Byte) : (s.park i todo v).sessionOpen = s.sessionOpen := rfl
@[simp] theorem State.park_fsLvl (s : State) (i : Instr) (todo : List Micro) (v : Byte) : (s.park i todo v).fsLvl = s.fsLvl := rfl
@[simp] theorem State.park_llLvl (s : State) (i : Instr) (todo : List Micro) (v : Byte) : (s.park i todo v).llLvl = s.llLvl := rfl
@[simp] theorem State.park_resp (s : State) (i : Instr) (todo : List Micro) (v : Byte) : (s.park i todo v).resp = s.resp := rfl
@[simp] theorem State.park_trace (s : State) (i : Instr) (todo : List Micro) (v : Byte) : (s.park i todo v).trace = s.trace := rfl
@[simp] theorem State.park_port (s : State) (i : Instr) (todo : List Micro) (v : Byte) : (s.park i todo v).port = s.port := rfl
@[simp] theorem State.park_ticks (s : State) (i : Instr) (todo : List Micro) (v : Byte) : (s.park i todo v).ticks = s.ticks := rfl

@[simp] theorem State.newLine_cfg (s : State) : s.newLine.cfg = s.cfg := rfl
@[simp] theorem State.newLine_csp (s : State) : s.newLine.csp = s.csp := rfl
@[simp] theorem State.newLine_inflight (s : State) : s.newLine.inflight = s.inflight := rfl
@[simp] theorem State.newLine_fb (s : State) : s.newLine.fb = s.fb := rfl
@[simp] theorem State.newLine_ug (s : State) : s.newLine.ug = s.ug := rfl
@[simp] theorem State.newLine_curCol (s : State) : s.newLine.curCol = 0 := rfl
@[simp] theorem State.newLine_curRow (s : State) : s.newLine.curRow = if s.curRow.toNat < s.cfg.rows - 1 then s.curRow + 1 else s.curRow := rfl
@[simp] theorem State.newLine_uExp (s : State) : s.newLine.uExp = s.uExp := rfl
@[simp] theorem State.newLine_uAcc (s : State) : s.newLine.uAcc = s.uAcc := rfl
@[simp] theorem State.newLine_running (s : State) : s.newLine.running = s.running := rfl
@[simp] theorem State.newLine_refreshRow (s : State) : s.newLine.refreshRow = s.refreshRow := rfl
@[simp] theorem State.newLine_timerPeriod (s : State) : s.newLine.timerPeriod = s.timerPeriod := rfl
@[simp] theorem State.newLine_timerEn (s : State) : s.newLine.timerEn = s.timerEn := rfl
@[simp] theorem State.newLine_sessionOpen (s : State) : s.newLine.sessionOpen = s.sessionOpen := rfl
@[simp] theorem State.newLine_fsLvl (s : State) : s.newLine.fsLvl = s.fsLvl := rfl
@[simp] theorem State.newLine_llLvl (s : State) : s.newLine.llLvl = s.llLvl := rfl
@[simp] theorem State.newLine_resp (s : State) : s.newLine.resp = s.resp := rfl
@[simp] theorem State.newLine_trace (s : State) : s.newLine.trace = s.trace := rfl
@[simp] theorem State.newLine_port (s : State) : s.newLine.port = s.port := rfl
@[simp] theorem State.newLine_ticks (s : State) : s.newLine.ticks = s.ticks := rfl

@[simp] theorem State.advance_cfg (s : State) : s.advance.cfg = s.cfg := rfl
@[simp] theorem State.advance_csp (s : State) : s.advance.csp = s.csp := rfl
@[simp] theorem State.advance_inflight (s : State) : s.advance.inflight = s.inflight := rfl
@[simp] theorem State.advance_fb (s : State) : s.advance.fb = s.fb := rfl
@[simp] theorem State.advance_ug (s : State) : s.advance.ug = s.ug := rfl
@[simp] theorem State.advance_curCol (s : State) : s.advance.curCol = if s.curCol.toNat < s.cfg.cols - 1 then s.curCol + 1 else s.curCol := rfl
@[simp] theorem State.advance_curRow (s : State) : s.advance.curRow = s.curRow := rfl
@[simp] theorem State.advance_uExp (s : State) : s.advance.uExp = s.uExp := rfl
@[simp] theorem State.advance_uAcc (s : State) : s.advance.uAcc = s.uAcc := rfl
@[simp] theorem State.advance_running (s : State) : s.advance.running = s.running := rfl
@[simp] theorem State.advance_refreshRow (s : State) : s.advance.refreshRow = s.refreshRow := rfl
@[simp] theorem State.advance_timerPeriod (s : State) : s.advance.timerPeriod = s.timerPeriod := rfl
@[simp] theorem State.advance_timerEn (s : State) : s.advance.timerEn = s.timerEn := rfl
@[simp] theorem State.advance_sessionOpen (s : State) : s.advance.sessionOpen = s.sessionOpen := rfl
@[simp] theorem State.advance_fsLvl (s : State) : s.advance.fsLvl = s.fsLvl := rfl
@[simp] theorem State.advance_llLvl (s : State) : s.advance.llLvl = s.llLvl := rfl
@[simp] theorem State.advance_resp (s : State) : s.advance.resp = s.resp := rfl
@[simp] theorem State.advance_trace (s : State) : s.advance.trace = s.trace := rfl
@[simp] theorem State.advance_port (s : State) : s.advance.port = s.port := rfl
@[simp] theorem State.advance_ticks (s : State) : s.advance.ticks = s.ticks := rfl

/-! A framebuffer write changes the framebuffer alone. -/

@[simp] theorem State.fbWrite_cfg (s : State) (a : Nat) (v : Byte) : (s.fbWrite a v).cfg = s.cfg := by
  unfold State.fbWrite; split <;> rfl
@[simp] theorem State.fbWrite_csp (s : State) (a : Nat) (v : Byte) : (s.fbWrite a v).csp = s.csp := by
  unfold State.fbWrite; split <;> rfl
@[simp] theorem State.fbWrite_inflight (s : State) (a : Nat) (v : Byte) : (s.fbWrite a v).inflight = s.inflight := by
  unfold State.fbWrite; split <;> rfl
@[simp] theorem State.fbWrite_ug (s : State) (a : Nat) (v : Byte) : (s.fbWrite a v).ug = s.ug := by
  unfold State.fbWrite; split <;> rfl
@[simp] theorem State.fbWrite_curCol (s : State) (a : Nat) (v : Byte) : (s.fbWrite a v).curCol = s.curCol := by
  unfold State.fbWrite; split <;> rfl
@[simp] theorem State.fbWrite_curRow (s : State) (a : Nat) (v : Byte) : (s.fbWrite a v).curRow = s.curRow := by
  unfold State.fbWrite; split <;> rfl
@[simp] theorem State.fbWrite_uExp (s : State) (a : Nat) (v : Byte) : (s.fbWrite a v).uExp = s.uExp := by
  unfold State.fbWrite; split <;> rfl
@[simp] theorem State.fbWrite_uAcc (s : State) (a : Nat) (v : Byte) : (s.fbWrite a v).uAcc = s.uAcc := by
  unfold State.fbWrite; split <;> rfl
@[simp] theorem State.fbWrite_running (s : State) (a : Nat) (v : Byte) : (s.fbWrite a v).running = s.running := by
  unfold State.fbWrite; split <;> rfl
@[simp] theorem State.fbWrite_refreshRow (s : State) (a : Nat) (v : Byte) : (s.fbWrite a v).refreshRow = s.refreshRow := by
  unfold State.fbWrite; split <;> rfl
@[simp] theorem State.fbWrite_timerPeriod (s : State) (a : Nat) (v : Byte) : (s.fbWrite a v).timerPeriod = s.timerPeriod := by
  unfold State.fbWrite; split <;> rfl
@[simp] theorem State.fbWrite_timerEn (s : State) (a : Nat) (v : Byte) : (s.fbWrite a v).timerEn = s.timerEn := by
  unfold State.fbWrite; split <;> rfl
@[simp] theorem State.fbWrite_sessionOpen (s : State) (a : Nat) (v : Byte) : (s.fbWrite a v).sessionOpen = s.sessionOpen := by
  unfold State.fbWrite; split <;> rfl
@[simp] theorem State.fbWrite_fsLvl (s : State) (a : Nat) (v : Byte) : (s.fbWrite a v).fsLvl = s.fsLvl := by
  unfold State.fbWrite; split <;> rfl
@[simp] theorem State.fbWrite_llLvl (s : State) (a : Nat) (v : Byte) : (s.fbWrite a v).llLvl = s.llLvl := by
  unfold State.fbWrite; split <;> rfl
@[simp] theorem State.fbWrite_resp (s : State) (a : Nat) (v : Byte) : (s.fbWrite a v).resp = s.resp := by
  unfold State.fbWrite; split <;> rfl
@[simp] theorem State.fbWrite_trace (s : State) (a : Nat) (v : Byte) : (s.fbWrite a v).trace = s.trace := by
  unfold State.fbWrite; split <;> rfl
@[simp] theorem State.fbWrite_port (s : State) (a : Nat) (v : Byte) : (s.fbWrite a v).port = s.port := by
  unfold State.fbWrite; split <;> rfl
@[simp] theorem State.fbWrite_ticks (s : State) (a : Nat) (v : Byte) : (s.fbWrite a v).ticks = s.ticks := by
  unfold State.fbWrite; split <;> rfl

end Sys2Proof.Machine
end

