-- ==== Sys2Proof/Laws/Ops.lean ====
section
/-! SUPPORT. What each shared operation can do: framebuffer access, micro-steps, and running a command from one point to
the next. Later proofs cite these and do not unfold the operations. -/

namespace Sys2Proof.Machine

/-! ## Framebuffer access -/

theorem State.fbRead_congr {s t : State} (hc : t.cfg = s.cfg) (hf : t.fb = s.fb) (a : Nat) :
    t.fbRead a = s.fbRead a := by
  unfold State.fbRead; rw [hc, hf]

theorem State.fbRead_outside {s : State} {a : Nat} (h : ¬ a < s.cfg.fbSize) : s.fbRead a = 0x00 := by
  unfold State.fbRead; simp [h]

theorem State.fbWrite_outside {s : State} {a : Nat} (v : Byte) (h : ¬ a < s.cfg.fbSize) :
    s.fbWrite a v = s := by
  unfold State.fbWrite; simp [h]

theorem State.fbRead_fbWrite_other {s : State} {a b : Nat} (v : Byte) (h : b ≠ a) :
    (s.fbWrite a v).fbRead b = s.fbRead b := by
  by_cases ha : a < s.cfg.fbSize
  · simp [State.fbWrite, State.fbRead, ha, Memory.read_write_other h]
  · rw [State.fbWrite_outside v ha]

theorem State.fbRead_fbWrite_same {s : State} (hw : Memory.wf s.fb) {a : Nat} (v : Byte)
    (h : a < s.cfg.fbSize) : (s.fbWrite a v).fbRead a = v := by
  simp [State.fbWrite, State.fbRead, h, Memory.read_write_same hw]

theorem State.fbRead_fbWrite {s : State} (hw : Memory.wf s.fb) {a : Nat} (v : Byte)
    (h : a < s.cfg.fbSize) (b : Nat) :
    (s.fbWrite a v).fbRead b = if b = a then v else s.fbRead b := by
  split
  · next e => rw [e]; exact State.fbRead_fbWrite_same hw v h
  · next e => exact State.fbRead_fbWrite_other v e

theorem State.fbWrite_wf {s : State} (hw : Memory.wf s.fb) (a : Nat) (v : Byte) :
    Memory.wf (s.fbWrite a v).fb := by
  unfold State.fbWrite; split
  · exact Memory.write_wf hw a v
  · exact hw

theorem State.fbWrite_inside {s : State} (hi : ∀ c ∈ s.fb, c.1 < s.cfg.fbSize) (a : Nat) (v : Byte) :
    ∀ c ∈ (s.fbWrite a v).fb, c.1 < (s.fbWrite a v).cfg.fbSize := by
  intro c hc
  rw [State.fbWrite_cfg]
  unfold State.fbWrite at hc
  split at hc
  · next h =>
    rcases Memory.mem_write hc with hc | ⟨hc, -⟩
    · exact hi c hc
    · omega
  · exact hi c hc

@[simp] theorem State.emit_fbRead (s : State) (evs : List Event) (a : Nat) :
    (s.emit evs).fbRead a = s.fbRead a := rfl
@[simp] theorem State.respond_fbRead (s : State) (bs : List Byte) (a : Nat) :
    (s.respond bs).fbRead a = s.fbRead a := rfl
@[simp] theorem State.setFs_fbRead (s : State) (l : Bool) (a : Nat) :
    (s.setFs l).fbRead a = s.fbRead a := rfl
@[simp] theorem State.setLl_fbRead (s : State) (l : Bool) (a : Nat) :
    (s.setLl l).fbRead a = s.fbRead a := rfl
@[simp] theorem State.leavePoint_fbRead (s : State) (a : Nat) :
    s.leavePoint.fbRead a = s.fbRead a := rfl
@[simp] theorem State.complete_fbRead (s : State) (i : Instr) (a : Nat) :
    (s.complete i).fbRead a = s.fbRead a := rfl
@[simp] theorem State.park_fbRead (s : State) (i : Instr) (ms : List Micro) (v : Byte) (a : Nat) :
    (s.park i ms v).fbRead a = s.fbRead a := rfl
@[simp] theorem State.newLine_fbRead (s : State) (a : Nat) : s.newLine.fbRead a = s.fbRead a := rfl
@[simp] theorem State.advance_fbRead (s : State) (a : Nat) : s.advance.fbRead a = s.fbRead a := rfl

/-! ## START and STOP -/

theorem State.startRefresh_zero (s : State) : s.startRefresh 0#24 = s := by simp [State.startRefresh]

/-- START with a period enters, or stays in, Running (spec/43_refresh.md R201 and R202). -/
theorem State.startRefresh_eq (s : State) {period : BitVec 24} (h : period ≠ 0#24) :
    s.startRefresh period =
      { s with
        timerPeriod := period, refreshRow := 0, running := true, timerEn := true
        sessionOpen := if s.running then s.sessionOpen else true
        trace := s.trace ++ ([.tcfg period] ++
          (if s.running then [] else [.sbegin s.cfg.busClockHz s.cfg.busMode]) ++ [.ten]) } := by
  unfold State.startRefresh
  rw [if_neg h]
  cases s.running <;> simp [State.emit]

/-- STOP ends in Stopped (spec/43_refresh.md R204 and R205). -/
theorem State.stopRefresh_eq (s : State) :
    s.stopRefresh =
      { s with
        timerEn := false, running := false
        sessionOpen := if s.running then false else s.sessionOpen
        trace := s.trace ++ ([.tdis] ++ if s.running then [.send] else []) } := by
  unfold State.stopRefresh
  cases s.running <;> simp [State.emit]

/-! ## One micro-step -/

/-- A micro-step neither reads nor writes CSP, CMD_INFLIGHT, the port and the tick arrivals. -/
theorem Micro.effect_control (m : Micro) (v : Byte) (s : State) (a : Nat) (b : Option InFlight)
    (p : List Word) (d : List Nat) :
    m.effect v { s with csp := a, inflight := b, port := p, ticks := d } =
      { m.effect v s with csp := a, inflight := b, port := p, ticks := d } := by
  cases m <;> try rfl
  case writeBit => simp only [Micro.effect, State.fbWrite]; split <;> rfl
  case writeByte => simp only [Micro.effect, State.fbWrite]; split <;> rfl
  case startRefresh p =>
    by_cases hp : p = 0#24
    · subst hp; simp only [Micro.effect, State.startRefresh_zero]
    · simp only [Micro.effect, State.startRefresh_eq _ hp]
  case stopRefresh => simp [Micro.effect, State.stopRefresh_eq]

theorem Micro.latch_control (m : Micro) (v : Byte) (s : State) (a : Nat) (b : Option InFlight)
    (p : List Word) (d : List Nat) :
    m.latch v { s with csp := a, inflight := b, port := p, ticks := d } = m.latch v s := by
  cases m <;> rfl

@[simp] theorem Micro.effect_cfg (m : Micro) (v : Byte) (s : State) : (m.effect v s).cfg = s.cfg := by
  cases m <;> try rfl
  case writeBit => exact State.fbWrite_cfg ..
  case writeByte => exact State.fbWrite_cfg ..
  case startRefresh p =>
    by_cases hp : p = 0#24
    · subst hp; simp only [Micro.effect, State.startRefresh_zero]
    · simp only [Micro.effect, State.startRefresh_eq _ hp]
  case stopRefresh => simp [Micro.effect, State.stopRefresh_eq]

@[simp] theorem Micro.effect_csp (m : Micro) (v : Byte) (s : State) : (m.effect v s).csp = s.csp := by
  have h := congrArg State.csp (m.effect_control v s s.csp s.inflight s.port s.ticks); exact h

@[simp] theorem Micro.effect_inflight (m : Micro) (v : Byte) (s : State) :
    (m.effect v s).inflight = s.inflight := by
  have h := congrArg State.inflight (m.effect_control v s s.csp s.inflight s.port s.ticks); exact h

@[simp] theorem Micro.effect_port (m : Micro) (v : Byte) (s : State) : (m.effect v s).port = s.port := by
  have h := congrArg State.port (m.effect_control v s s.csp s.inflight s.port s.ticks); exact h

@[simp] theorem Micro.effect_ticks (m : Micro) (v : Byte) (s : State) : (m.effect v s).ticks = s.ticks := by
  have h := congrArg State.ticks (m.effect_control v s s.csp s.inflight s.port s.ticks); exact h

/-- Only START's and STOP's micro-steps touch the refresh state and TRACE (spec/10_state.md R37). -/
theorem Micro.effect_sameRefresh (m : Micro) (v : Byte) (s : State)
    (h1 : ∀ p, m ≠ .startRefresh p) (h2 : m ≠ .stopRefresh) : SameRefresh s (m.effect v s) := by
  cases m
  case startRefresh p => exact absurd rfl (h1 p)
  case stopRefresh => exact absurd rfl h2
  case writeBit => constructor <;> simp [Micro.effect]
  case writeByte => constructor <;> simp [Micro.effect]
  all_goals constructor <;> rfl

theorem Micro.effect_wf (m : Micro) (v : Byte) {s : State} (h : Memory.wf s.fb) :
    Memory.wf (m.effect v s).fb := by
  cases m <;> try exact h
  case writeBit => exact State.fbWrite_wf h _ _
  case writeByte => exact State.fbWrite_wf h _ _
  case startRefresh p =>
    by_cases hp : p = 0#24
    · subst hp; simpa only [Micro.effect, State.startRefresh_zero] using h
    · simpa only [Micro.effect, State.startRefresh_eq _ hp] using h
  case stopRefresh => simpa only [Micro.effect, State.stopRefresh_eq] using h

/-! ## A command's micro-steps, with no tick between them -/

/-- All of `ms` in order, no point left between them: what CMD does when no tick preempts it. -/
def runMicros (ms : List Micro) (v : Byte) (s : State) : State :=
  match ms with
  | [] => s
  | m :: rest => runMicros rest (m.latch v s) (m.effect v s)

/-- The byte the command holds after `ms`. -/
def latchMicros (ms : List Micro) (v : Byte) (s : State) : Byte :=
  match ms with
  | [] => v
  | m :: rest => latchMicros rest (m.latch v s) (m.effect v s)

@[simp] theorem runMicros_nil (v : Byte) (s : State) : runMicros [] v s = s := rfl

@[simp] theorem runMicros_cons (m : Micro) (ms : List Micro) (v : Byte) (s : State) :
    runMicros (m :: ms) v s = runMicros ms (m.latch v s) (m.effect v s) := rfl

theorem runMicros_append (xs ys : List Micro) (v : Byte) (s : State) :
    runMicros (xs ++ ys) v s = runMicros ys (latchMicros xs v s) (runMicros xs v s) := by
  induction xs generalizing v s with
  | nil => rfl
  | cons m ms ih => exact ih _ _

/-- A property every micro-step of `ms` keeps holds after all of them. -/
theorem runMicros_keeps {P : State → Prop} {ms : List Micro}
    (h : ∀ m ∈ ms, ∀ v s, P s → P (m.effect v s)) (v : Byte) {s : State} (hs : P s) :
    P (runMicros ms v s) := by
  induction ms generalizing v s with
  | nil => exact hs
  | cons m ms ih =>
    exact ih (fun m' hm' => h m' (by simp [hm'])) _ (h m (by simp) v s hs)

theorem runMicros_control (ms : List Micro) (v : Byte) (s : State) (a : Nat) (b : Option InFlight)
    (p : List Word) (d : List Nat) :
    runMicros ms v { s with csp := a, inflight := b, port := p, ticks := d } =
      { runMicros ms v s with csp := a, inflight := b, port := p, ticks := d } := by
  induction ms generalizing v s with
  | nil => rfl
  | cons m ms ih =>
    rw [runMicros_cons, runMicros_cons, Micro.latch_control, Micro.effect_control, ih]

theorem latchMicros_control (ms : List Micro) (v : Byte) (s : State) (a : Nat) (b : Option InFlight)
    (p : List Word) (d : List Nat) :
    latchMicros ms v { s with csp := a, inflight := b, port := p, ticks := d } = latchMicros ms v s := by
  induction ms generalizing v s with
  | nil => rfl
  | cons m ms ih =>
    unfold latchMicros
    rw [Micro.latch_control, Micro.effect_control, ih]

@[simp] theorem runMicros_cfg (ms : List Micro) (v : Byte) (s : State) : (runMicros ms v s).cfg = s.cfg :=
  runMicros_keeps (P := fun t => t.cfg = s.cfg) (fun m _ v t h => by simp [h]) v rfl
@[simp] theorem runMicros_csp (ms : List Micro) (v : Byte) (s : State) : (runMicros ms v s).csp = s.csp :=
  runMicros_keeps (P := fun t => t.csp = s.csp) (fun m _ v t h => by simp [h]) v rfl
@[simp] theorem runMicros_inflight (ms : List Micro) (v : Byte) (s : State) :
    (runMicros ms v s).inflight = s.inflight :=
  runMicros_keeps (P := fun t => t.inflight = s.inflight) (fun m _ v t h => by simp [h]) v rfl
@[simp] theorem runMicros_port (ms : List Micro) (v : Byte) (s : State) : (runMicros ms v s).port = s.port :=
  runMicros_keeps (P := fun t => t.port = s.port) (fun m _ v t h => by simp [h]) v rfl
@[simp] theorem runMicros_ticks (ms : List Micro) (v : Byte) (s : State) :
    (runMicros ms v s).ticks = s.ticks :=
  runMicros_keeps (P := fun t => t.ticks = s.ticks) (fun m _ v t h => by simp [h]) v rfl

/-! ## Running a command from one point to the next -/

theorem State.tickDue_iff (s : State) : s.tickDue = true ↔ 0 < s.ticks.headD 0 := by simp [State.tickDue]

theorem State.tickDue_false_iff (s : State) : s.tickDue = false ↔ s.ticks.headD 0 = 0 := by
  simp [State.tickDue]

theorem headD_tail_of_quiet {l : List Nat} {k : Nat} (h : ∀ n ∈ l.tail.take (k + 1), n = 0) :
    l.tail.headD 0 = 0 := by
  cases ht : l.tail with
  | nil => rfl
  | cons a t => exact h a (by simp [ht])

theorem quiet_tail {l : List Nat} {k : Nat} (h : ∀ n ∈ l.tail.take (k + 1), n = 0) :
    ∀ n ∈ l.tail.tail.take k, n = 0 := by
  intro n hn
  cases ht : l.tail with
  | nil => simp [ht] at hn
  | cons a t => exact h n (by simp [ht] at hn ⊢; exact .inr hn)

/-- With no tick at the StepPoints that remain, the command completes. -/
theorem carryOn_quiet (i : Instr) (todo : List Micro) (v : Byte) (s : State) (h : s.quiet todo.length) :
    State.carryOn i todo v s =
      { runMicros todo v s with
        csp := s.csp + i.words, inflight := none, ticks := s.ticks.drop (todo.length + 1) } := by
  induction todo generalizing v s with
  | nil => simp [State.carryOn, State.complete]
  | cons m ms ih =>
    have hd : s.leavePoint.tickDue = false := (State.tickDue_false_iff _).2 (headD_tail_of_quiet h)
    have hl : s.leavePoint = { s with csp := s.csp, inflight := s.inflight, port := s.port, ticks := s.ticks.tail } := rfl
    rw [State.carryOn, if_neg (by simp [hd]), ih, runMicros_cons]
    · rw [hl, Micro.latch_control, Micro.effect_control, runMicros_control]
      simp [List.drop_tail]
    · intro n hn
      refine quiet_tail (k := ms.length) h n ?_
      simpa [State.leavePoint] using hn

/-- A tick at the first StepPoint that has one parks the command there. -/
theorem carryOn_preempted (i : Instr) (done : List Micro) (m : Micro) (rest : List Micro) (v : Byte) (s : State)
    (h : s.quiet done.length) (hd : 0 < s.ticks.getD (done.length + 1) 0) :
    State.carryOn i (done ++ m :: rest) v s =
      { runMicros done v s with
        inflight := some ⟨i, m :: rest, latchMicros done v s⟩, ticks := s.ticks.drop (done.length + 1) } := by
  induction done generalizing v s with
  | nil =>
    have hd' : s.leavePoint.tickDue = true := by
      rw [State.tickDue_iff]
      cases hs : s.ticks with
      | nil => simp [hs] at hd
      | cons a t => cases t <;> simp_all [State.leavePoint]
    rw [List.nil_append, State.carryOn, if_pos hd']
    simp [State.park, State.leavePoint, latchMicros]
  | cons m' ms ih =>
    have hd0 : s.leavePoint.tickDue = false := (State.tickDue_false_iff _).2 (headD_tail_of_quiet h)
    have hl : s.leavePoint = { s with csp := s.csp, inflight := s.inflight, port := s.port, ticks := s.ticks.tail } := rfl
    rw [List.cons_append, State.carryOn, if_neg (by simp [hd0]), ih, runMicros_cons]
    · rw [hl, Micro.latch_control, Micro.effect_control, runMicros_control, latchMicros_control]
      simp [List.drop_tail, latchMicros]
    · intro n hn
      refine quiet_tail (k := ms.length) h n ?_
      simpa [State.leavePoint] using hn
    · cases hs : s.ticks with
      | nil => simp [hs] at hd
      | cons a t => simpa [State.leavePoint, hs] using hd

/-- A command that no tick interrupts does all its micro-steps and completes (spec/20_memory.md R61). -/
theorem issue_quiet (i : Instr) (ms : List Micro) (s : State) (h : s.quiet (ms.length - 1)) :
    s.issue i ms =
      { runMicros ms 0#8 s with
        csp := s.csp + i.words, inflight := none, ticks := s.ticks.drop (max 1 ms.length) } := by
  cases ms with
  | nil => simp [State.issue, State.resume, State.complete]
  | cons m rest =>
    have h' : (m.effect 0#8 s).quiet rest.length := by simpa [State.quiet] using h
    have := carryOn_quiet i rest (m.latch 0#8 s) (m.effect 0#8 s) h'
    simp only [State.issue, State.resume, this]
    simp

/-- A command of at most one micro-step has no StepPoint: it completes whatever ticks arrive (spec/20_memory.md R62). -/
theorem issue_nil (i : Instr) (s : State) :
    s.issue i [] = { s with csp := s.csp + i.words, inflight := none, ticks := s.ticks.tail } := rfl

theorem issue_one (i : Instr) (m : Micro) (s : State) :
    s.issue i [m] =
      { m.effect 0#8 s with csp := s.csp + i.words, inflight := none, ticks := s.ticks.tail } := by
  simp [State.issue, State.resume, State.carryOn, State.complete]

/-- A command with a tick at the StepPoint after its first `done` micro-steps, and none before, parks there. -/
theorem issue_preempted (i : Instr) (d : Micro) (done : List Micro) (m : Micro) (rest : List Micro) (s : State)
    (h : s.quiet done.length) (hd : 0 < s.ticks.getD (done.length + 1) 0) :
    s.issue i (d :: done ++ m :: rest) =
      { runMicros (d :: done) 0#8 s with
        inflight := some ⟨i, m :: rest, latchMicros (d :: done) 0#8 s⟩, ticks := s.ticks.drop (done.length + 1) } := by
  have h' : (d.effect 0#8 s).quiet done.length := by simpa [State.quiet] using h
  have := carryOn_preempted i done m rest (d.latch 0#8 s) (d.effect 0#8 s) h' (by simpa using hd)
  simpa [State.issue, State.resume, latchMicros] using this

/-- A property that the micro-steps of `todo`, leaving a point, parking and completing keep holds wherever CMD next
stands. -/
theorem carryOn_keeps {P : State → Prop} {i : Instr} {todo : List Micro}
    (hm : ∀ m ∈ todo, ∀ v s, P s → P (m.effect v s))
    (hl : ∀ s, P s → P s.leavePoint) (hc : ∀ s, P s → P (s.complete i))
    (hp : ∀ s ms v, ms ≠ [] → (∀ m ∈ ms, m ∈ todo) → P s → P (s.park i ms v))
    (v : Byte) {s : State} (hs : P s) : P (State.carryOn i todo v s) := by
  induction todo generalizing v s with
  | nil => exact hc s hs
  | cons m ms ih =>
    unfold State.carryOn
    split
    · exact hp _ _ _ (by simp) (fun _ h => h) (hl s hs)
    · exact ih (fun m' h' => hm m' (by simp [h']))
        (fun s' ms' v' h0 h1 => hp s' ms' v' h0 fun m' h' => by simp [h1 m' h'])
        _ (hm m (by simp) _ _ (hl s hs))

theorem resume_keeps {P : State → Prop} {c : InFlight}
    (hm : ∀ m ∈ c.todo, ∀ v s, P s → P (m.effect v s))
    (hl : ∀ s, P s → P s.leavePoint) (hc : ∀ s, P s → P (s.complete c.command))
    (hp : ∀ s ms v, ms ≠ [] → (∀ m ∈ ms, m ∈ c.todo.tail) → P s → P (s.park c.command ms v))
    {s : State} (hs : P s) : P (s.resume c) := by
  obtain ⟨i, todo, v⟩ := c
  cases todo with
  | nil => exact hc s hs
  | cons m ms =>
    exact carryOn_keeps (fun m' h' => hm m' (List.mem_cons_of_mem _ h')) hl hc hp _ (hm m (by simp) _ _ hs)

/-- A property that the micro-steps of a command, leaving a point, parking and completing keep holds when CMD next
stands at a point. -/
theorem issue_keeps {P : State → Prop} {i : Instr} {ms : List Micro}
    (hm : ∀ m ∈ ms, ∀ v s, P s → P (m.effect v s))
    (hl : ∀ s, P s → P s.leavePoint) (hc : ∀ s, P s → P (s.complete i))
    (hp : ∀ s ms' v, ms' ≠ [] → (∀ m ∈ ms', m ∈ ms.tail) → P s → P (s.park i ms' v))
    {s : State} (hs : P s) : P (s.issue i ms) :=
  resume_keeps (c := ⟨i, ms, 0#8⟩) hm hl hc hp hs

/-- Where CMD next stands after `todo`: the command is complete, or parked at the point before a non-empty end of
`todo` with a tick due there (spec/20_memory.md R62). -/
theorem carryOn_cases (i : Instr) (todo : List Micro) (v : Byte) (s : State) :
    (State.carryOn i todo v s =
      { runMicros todo v s with csp := s.csp + i.words, inflight := none, ticks := s.ticks.drop (todo.length + 1) }) ∨
    (∃ done m rest, todo = done ++ m :: rest ∧ 0 < s.ticks.getD (done.length + 1) 0 ∧
      State.carryOn i todo v s =
        { runMicros done v s with
          inflight := some ⟨i, m :: rest, latchMicros done v s⟩, ticks := s.ticks.drop (done.length + 1) }) := by
  by_cases hq : s.quiet todo.length
  · exact .inl (carryOn_quiet i todo v s hq)
  · right
    have : ∃ k, k < todo.length ∧ s.quiet k ∧ 0 < s.ticks.getD (k + 1) 0 := by
      simp only [State.quiet] at hq ⊢
      generalize s.ticks = l at hq ⊢
      generalize todo.length = n at hq
      have hget : ∀ k, l.getD (k + 1) 0 = l.tail.getD k 0 := by
        intro k; cases l <;> simp
      simp only [hget]
      generalize l.tail = l at hq ⊢
      clear hget
      induction n generalizing l with
      | zero => simp at hq
      | succ n ih =>
        cases l with
        | nil => simp at hq
        | cons a l =>
          by_cases ha : a = 0
          · subst ha
            have : ¬ ∀ x ∈ List.take n l, x = 0 := by simpa using hq
            obtain ⟨k, hk, h1, h2⟩ := ih l this
            exact ⟨k + 1, by omega, by simpa using h1, by simpa using h2⟩
          · exact ⟨0, by omega, by simp, by simp; omega⟩
    obtain ⟨k, hk, h1, h2⟩ := this
    have hsplit : todo = todo.take k ++ todo[k] :: todo.drop (k + 1) := by simp
    have hlen : (todo.take k).length = k := by simp; omega
    refine ⟨todo.take k, todo[k], todo.drop (k + 1), hsplit, by rw [hlen]; exact h2, ?_⟩
    conv => lhs; rw [hsplit]
    exact carryOn_preempted i _ _ _ v s (by rw [hlen]; exact h1) (by rw [hlen]; exact h2)

/-- Where CMD next stands after going on with a command: some of the micro-steps left are done, all of them exactly when
it is complete. -/
theorem resume_prefix (c : InFlight) (s : State) :
    ∃ done rest n v, c.todo = done ++ rest ∧
      s.resume c =
        { runMicros done c.latch s with
          csp := if rest = [] then s.csp + c.command.words else s.csp
          inflight := if rest = [] then none else some ⟨c.command, rest, v⟩
          ticks := s.ticks.drop n } := by
  obtain ⟨i, ms, l⟩ := c
  cases ms with
  | nil => exact ⟨[], [], 1, l, rfl, by simp [State.resume, State.complete]⟩
  | cons m ms =>
    have e0 : s.resume ⟨i, m :: ms, l⟩ = State.carryOn i ms (m.latch l s) (m.effect l s) := rfl
    rcases carryOn_cases i ms (m.latch l s) (m.effect l s) with e | ⟨done, m', rest, hd, ht, e⟩
    · refine ⟨m :: ms, [], ms.length + 1, l, by simp, ?_⟩
      rw [e0, e]; simp
    · refine ⟨m :: done, m' :: rest, done.length + 1, latchMicros (m :: done) l s, by simp [hd], ?_⟩
      rw [e0, e]; simp [latchMicros]

/-- Where CMD next stands after starting a command: some of its micro-steps are done, all of them exactly when it is
complete. -/
theorem issue_prefix (i : Instr) (ms : List Micro) (s : State) :
    ∃ done rest n v, ms = done ++ rest ∧
      s.issue i ms =
        { runMicros done 0#8 s with
          csp := if rest = [] then s.csp + i.words else s.csp
          inflight := if rest = [] then none else some ⟨i, rest, v⟩
          ticks := s.ticks.drop n } :=
  resume_prefix ⟨i, ms, 0#8⟩ s

end Sys2Proof.Machine
end

