-- ==== Sys2Proof/Laws/Tick.lean ====
section
/-! SUPPORT. What a tick does: the events it emits, the one framebuffer byte it can change, and that no bit but a dummy
bit changes. -/

namespace Sys2Proof.Machine

theorem State.tick_stopped {s : State} (h : s.running = false) : s.tick = s := by simp [State.tick, h]

/-- A transmission changes the framebuffer, TRACE and the strobe levels alone (spec/43_refresh.md R207). -/
theorem State.transmitRow_eq (s : State) (r : Nat) (hw : Memory.wf s.fb) :
    s.transmitRow r (r == 0) =
      { s with
        fb := (s.clearDummyBits r).fb
        fsLvl := if r = 0 then false else s.fsLvl
        llLvl := false
        trace := s.trace ++ s.rowEvents r } := by
  have hsent : ∀ t : State, t.cfg = s.cfg → t.fb = s.fb →
      ((List.range s.cfg.bpr).map fun k => Event.byte ((t.clearDummyBits r).fbRead (s.cfg.byteAddr r k))) =
        (s.sentBytes r).map .byte := by
    intro t hc hf
    rw [State.sentBytes, List.map_map]
    refine List.map_congr_left fun k hk => ?_
    have hk : k < s.cfg.bpr := List.mem_range.1 hk
    have hrd : ∀ a, t.fbRead a = s.fbRead a := State.fbRead_congr hc hf
    have h0 : s.cfg.byteAddr r 0 = r * s.cfg.bpr := by simp [Config.byteAddr]
    simp only [Function.comp, State.clearDummyBits, hc, hrd, h0]
    by_cases hk0 : k = 0
    · subst hk0
      by_cases ha : r * s.cfg.bpr < s.cfg.fbSize
      · simp only [if_true, h0]
        rw [State.fbRead_fbWrite_same (by rw [hf]; exact hw) _ (by rw [hc]; exact ha)]
      · simp only [if_true, h0]
        rw [State.fbRead_outside (by simpa [hc] using ha), State.fbRead_outside ha]
        simp
    · have hne : s.cfg.byteAddr r k ≠ r * s.cfg.bpr := by unfold Config.byteAddr; omega
      rw [State.fbRead_fbWrite_other _ hne, hrd]
      simp [hk0, Config.byteAddr]
  have hclear : ∀ t : State, t.cfg = s.cfg → t.fb = s.fb → (t.clearDummyBits r).fb = (s.clearDummyBits r).fb := by
    intro t hc hf
    unfold State.clearDummyBits State.fbWrite
    simp only [hc, State.fbRead_congr hc hf, hf]
    split <;> simp [hf]
  by_cases h0 : r = 0
  · subst h0
    have h1 := hsent (s.setFs true) rfl rfl
    have h2 := hclear (s.setFs true) rfl rfl
    simp only [State.transmitRow, beq_self_eq_true, if_true, State.rowEvents, State.pulseLatch, State.sendRow]
    simp only [State.setFs, State.setLl, State.emit] at h1 h2 ⊢
    simp only [State.clearDummyBits, State.fbWrite_cfg, State.fbWrite_csp, State.fbWrite_inflight, State.fbWrite_ug,
      State.fbWrite_curCol, State.fbWrite_curRow, State.fbWrite_uExp, State.fbWrite_uAcc, State.fbWrite_running,
      State.fbWrite_refreshRow, State.fbWrite_timerPeriod, State.fbWrite_timerEn, State.fbWrite_sessionOpen,
      State.fbWrite_resp, State.fbWrite_port, State.fbWrite_ticks, State.fbWrite_trace] at h1 h2 ⊢
    rw [h1, h2]
    simp [List.append_assoc]
  · have h1 := hsent s rfl rfl
    have hb : (r == 0) = false := by simp [h0]
    simp only [State.transmitRow, hb, State.rowEvents, State.pulseLatch, State.sendRow, h0, if_false]
    simp only [State.setLl, State.emit] at h1 ⊢
    simp only [State.clearDummyBits, State.fbWrite_cfg, State.fbWrite_csp, State.fbWrite_inflight, State.fbWrite_ug,
      State.fbWrite_curCol, State.fbWrite_curRow, State.fbWrite_uExp, State.fbWrite_uAcc, State.fbWrite_running,
      State.fbWrite_refreshRow, State.fbWrite_timerPeriod, State.fbWrite_timerEn, State.fbWrite_sessionOpen,
      State.fbWrite_fsLvl, State.fbWrite_resp, State.fbWrite_port, State.fbWrite_ticks, State.fbWrite_trace] at h1 ⊢
    simp [h1, List.append_assoc]

/-- A tick of a Running block, whole (spec/43_refresh.md R206 and R207). -/
theorem State.tick_running {s : State} (h : s.running = true) (hw : Memory.wf s.fb) :
    s.tick =
      { s with
        fb := (s.clearDummyBits s.refreshRow.toNat).fb
        fsLvl := if s.refreshRow.toNat = 0 then false else s.fsLvl
        llLvl := false
        trace := s.trace ++ s.rowEvents s.refreshRow.toNat
        refreshRow := BitVec.ofNat 10 ((s.refreshRow.toNat + 1) % s.cfg.height) } := by
  simp [State.tick, h, State.transmitRow_eq s _ hw]

/-- Clearing a row's dummy bits changes no other byte. -/
theorem State.clearDummyBits_fbRead_other (s : State) (r a : Nat) (h : a ≠ r * s.cfg.bpr) :
    (s.clearDummyBits r).fbRead a = s.fbRead a := by
  unfold State.clearDummyBits
  exact State.fbRead_fbWrite_other _ (by simpa [Config.byteAddr] using h)

/-- Clearing a row's dummy bits leaves byte 0 with exactly those bits 0 (spec/43_refresh.md R208). -/
theorem State.clearDummyBits_fbRead_first {s : State} (hw : Memory.wf s.fb) (r : Nat) :
    (s.clearDummyBits r).fbRead (r * s.cfg.bpr) = s.fbRead (r * s.cfg.bpr) &&& ~~~s.cfg.dummyMask := by
  have h0 : s.cfg.byteAddr r 0 = r * s.cfg.bpr := by simp [Config.byteAddr]
  unfold State.clearDummyBits
  rw [h0]
  by_cases ha : r * s.cfg.bpr < s.cfg.fbSize
  · exact State.fbRead_fbWrite_same hw _ ha
  · rw [State.fbWrite_outside _ ha, State.fbRead_outside ha]; simp

/-- Clearing a row's dummy bits changes no stored bit but a dummy bit (spec/43_refresh.md R208). -/
theorem State.clearDummyBits_rawBit {s : State} (hw : Memory.wf s.fb) (r r' p : Nat) (hp : s.cfg.dummyBits ≤ p)
    (hp' : p < 8 * s.cfg.bpr) : (s.clearDummyBits r).rawBit r' p = s.rawBit r' p := by
  have hcfg : (s.clearDummyBits r).cfg = s.cfg := State.fbWrite_cfg ..
  unfold State.rawBit
  rw [hcfg]
  by_cases ha : r' * s.cfg.bpr + p / 8 = r * s.cfg.bpr
  · rw [ha, State.clearDummyBits_fbRead_first hw]
    have hk := s.cfg.byteAddr_inj (r := r') (k := p / 8) (r' := r) (k' := 0) (by omega)
      (by have := s.cfg.bpr_bounds; omega) (by simpa [Config.byteAddr] using ha)
    have hp8 : p < 8 := by omega
    rw [BitVec.getLsbD_and, BitVec.getLsbD_not, Config.dummyMask_getLsbD]
    have hlt : 7 - p % 8 < 8 := by omega
    have : ¬ (8 - s.cfg.dummyBits ≤ 7 - p % 8) := by omega
    simp [hlt, this]
  · rw [State.clearDummyBits_fbRead_other _ _ _ ha]

/-- A tick changes no command-side state (spec/43_refresh.md R215, spec/60_exceptions.md R259). -/
theorem State.tick_sameText (s : State) (hw : Memory.wf s.fb) : SameText s s.tick := by
  cases h : s.running
  · rw [State.tick_stopped h]; constructor <;> rfl
  · rw [State.tick_running h hw]; constructor <;> rfl

/-- The framebuffer after a tick: as before, or with the dummy bits of one row cleared. -/
theorem State.tick_fbRead_congr (s : State) (hw : Memory.wf s.fb) (a : Nat) :
    s.tick.fbRead a = if s.running then (s.clearDummyBits s.refreshRow.toNat).fbRead a else s.fbRead a := by
  cases h : s.running
  · rw [State.tick_stopped h]; rfl
  · rw [State.tick_running h hw]
    rw [if_pos rfl]
    refine State.fbRead_congr ?_ ?_ a
    · simp [State.clearDummyBits]
    · rfl

theorem State.tick_wf {s : State} (hw : Memory.wf s.fb) : Memory.wf s.tick.fb := by
  cases h : s.running
  · rw [State.tick_stopped h]; exact hw
  · rw [State.tick_running h hw]; exact State.fbWrite_wf hw _ _

@[simp] theorem State.tick_cfg (s : State) : s.tick.cfg = s.cfg := by
  unfold State.tick
  split
  · rfl
  · simp only [State.transmitRow, State.clearDummyBits, State.sendRow, State.pulseLatch]
    split <;> simp

/-- No tick changes a stored bit but a dummy bit (spec/43_refresh.md R208). -/
theorem State.tick_rawBit {s : State} (hw : Memory.wf s.fb) (r p : Nat) (hp : s.cfg.dummyBits ≤ p)
    (hp' : p < 8 * s.cfg.bpr) : s.tick.rawBit r p = s.rawBit r p := by
  cases h : s.running
  · rw [State.tick_stopped h]
  · rw [← State.clearDummyBits_rawBit hw s.refreshRow.toNat r p hp hp']
    have := State.tick_fbRead_congr s hw (r * s.cfg.bpr + p / 8)
    simp only [State.rawBit, State.tick_cfg, this, h, if_true]
    simp [State.clearDummyBits]

end Sys2Proof.Machine
end

