-- ==== Sys2Proof/Laws/Exec.lean ====
section
/-! SUPPORT. Every meaning is the issue of a list of micro-steps, and what a step can be. -/

namespace Sys2Proof.Machine

/-- The micro-steps of a command started in `s`. -/
def microsOf (i : Instr) (s : State) : List Micro :=
  match i with
  | .nop => []
  | .clear => (List.range s.cfg.fbSize).map fun a => .writeByte a 0x00
  | .setpix x y on => pixWrite s.cfg x.toNat y.toNat on
  | .getpix x y =>
    if s.cfg.inDisplay x.toNat y.toNat then
      [.readByte (s.cfg.pixelAddr x.toNat y.toNat), .respondBit (s.cfg.pixelPos x.toNat % 8)]
    else [.respond [0x00]]
  | .setcur col row => [.placeCursor col row]
  | .write b => writeByteSteps s b ++ [.respond [0x01]]
  | .wglyph g => drawAtCursor s (columnsFor s g)
  | .setug i bm => if h : i.toNat < 8 then [.setUserGlyph ⟨i.toNat, h⟩ (bitmapColumns bm)] else []
  | .rdglyph g => [.respond (columnsFor s g).toList]
  | .start period => [.startRefresh period]
  | .stop => [.stopRefresh]
  | .rdfb addr => if addr.toNat < s.cfg.fbSize then [.readByte addr.toNat, .respondByte] else [.respond [0x00]]
  | .wrfb addr v => if addr.toNat < s.cfg.fbSize then [.writeByte addr.toNat v] else []
  | .rdstat => [.readStatus]
  | .reserved0E _ => []
  | .reserved10 _ => []
  | .reserved20 _ => []
  | .reserved40 _ => []
  | .reserved80 _ => []

theorem exec_eq_issue (i : Instr) (s : State) : exec i s = .next (s.issue i (microsOf i s)) := by
  cases i <;> rfl

/-- What exec leaves in progress is a tail of the command's micro-steps. -/
theorem exec_inflight_suffix {i : Instr} {s t : State} {c : InFlight} (h : exec i s = .next t)
    (hc : t.inflight = some c) : c.command = i ∧ c.todo ≠ [] ∧ c.todo <:+ microsOf i s := by
  rw [exec_eq_issue] at h
  obtain ⟨done, rest, n, v, hd, he⟩ := issue_prefix i (microsOf i s) s
  cases (Host.Outcome.next.inj h).symm.trans he
  by_cases hr : rest = []
  · simp [hr] at hc
  · simp only [hr, if_false, Option.some.injEq] at hc
    subst hc
    exact ⟨rfl, hr, ⟨done, hd.symm⟩⟩

/-- The micro-steps left of a command in progress are the last of those it has in some state of the configuration. -/
theorem InFlight.isOwn.suffix {c : InFlight} {cfg : Config} (h : c.isOwn cfg) :
    ∃ s0 : State, s0.cfg = cfg ∧ c.todo <:+ microsOf c.command s0 := by
  obtain ⟨s0, t0, c0, h1, h2, h3, h4⟩ := h
  exact ⟨s0, h1, h4.trans (exec_inflight_suffix h2 h3).2.2⟩

/-- What exec leaves in progress is the command's own. -/
theorem exec_inflight_own {i : Instr} {s t : State} {c : InFlight} (h : exec i s = .next t)
    (hc : t.inflight = some c) : c.isOwn s.cfg :=
  ⟨s, t, c, rfl, by rw [(exec_inflight_suffix h hc).1]; exact h, hc, List.suffix_refl _⟩

/-- A tail of what is the command's own is its own. -/
theorem InFlight.isOwn.tail {c d : InFlight} {cfg : Config} (h : c.isOwn cfg) (hi : d.command = c.command)
    (hd : d.todo <:+ c.todo) : d.isOwn cfg := by
  obtain ⟨s0, t0, c0, h1, h2, h3, h4⟩ := h
  exact ⟨s0, t0, c0, h1, by rw [hi]; exact h2, h3, hd.trans h4⟩

/-- A command that no tick interrupts completes with all its micro-steps done. -/
theorem exec_quiet {i : Instr} {s : State} (h : s.quiet ((microsOf i s).length - 1)) :
    exec i s = .next
      { runMicros (microsOf i s) 0#8 s with
        csp := s.csp + i.words, inflight := none
        ticks := s.ticks.drop (max 1 (microsOf i s).length) } := by
  rw [exec_eq_issue, issue_quiet i _ s h]

/-- The same with the command's length in micro-steps and their whole effect named. -/
theorem exec_done {i : Instr} {s u : State} {n : Nat} (hl : (microsOf i s).length = n + 1) (hq : s.quiet n)
    (hr : runMicros (microsOf i s) 0#8 s = u) :
    exec i s = .next { u with csp := s.csp + i.words, inflight := none, ticks := s.ticks.drop (n + 1) } := by
  rw [exec_quiet (by rw [hl]; exact hq), hl, hr, Nat.max_eq_right (by omega)]

/-- The four moves of the machine (spec/20_memory.md R61 and R62, spec/30_encoding.md R90). -/
theorem step_cases (s : State) :
    (s.tickDue = true ∧ step s = .next s.takeTick) ∨
    (s.tickDue = false ∧ ∃ c, s.inflight = some c ∧ step s = .next (s.resume c)) ∨
    (s.tickDue = false ∧ s.inflight = none ∧ ∃ i rest, decode s.port = .ok (i, rest) ∧
      step s = .next (({ s with port := rest } : State).issue i (microsOf i { s with port := rest }))) ∨
    (s.tickDue = false ∧ s.inflight = none ∧ (∃ e, decode s.port = .error e) ∧
      step s = .next s.leavePoint) := by
  unfold step
  cases ht : s.tickDue
  · cases hi : s.inflight with
    | some c => exact .inr (.inl ⟨rfl, c, rfl, by simp⟩)
    | none =>
      cases hd : decode s.port with
      | ok p => exact .inr (.inr (.inl ⟨rfl, rfl, p.1, p.2, rfl, by simp [exec_eq_issue]⟩))
      | error e => exact .inr (.inr (.inr ⟨rfl, rfl, ⟨e, rfl⟩, by simp⟩))
  · exact .inl ⟨rfl, by simp⟩

/-- The kinds of micro-step a command has. -/
def mayUse (i : Instr) (m : Micro) : Bool :=
  match i, m with
  | .clear, .writeByte _ _ => true
  | .setpix _ _ _, .readByte _ => true
  | .setpix _ _ _, .writeBit _ _ _ => true
  | .getpix _ _, .readByte _ => true
  | .getpix _ _, .respondBit _ => true
  | .getpix _ _, .respond _ => true
  | .setcur _ _, .placeCursor _ _ => true
  | .write _, .readByte _ => true
  | .write _, .writeBit _ _ _ => true
  | .write _, .respond _ => true
  | .write _, .decoderIdle => true
  | .write _, .decoderPend _ => true
  | .write _, .newLine => true
  | .write _, .advance => true
  | .wglyph _, .readByte _ => true
  | .wglyph _, .writeBit _ _ _ => true
  | .wglyph _, .advance => true
  | .setug _ _, .setUserGlyph _ _ => true
  | .rdglyph _, .respond _ => true
  | .start _, .startRefresh _ => true
  | .stop, .stopRefresh => true
  | .rdfb _, .readByte _ => true
  | .rdfb _, .respondByte => true
  | .rdfb _, .respond _ => true
  | .wrfb _ _, .writeByte _ _ => true
  | .rdstat, .readStatus => true
  | _, _ => false

/-- Every micro-step of a command is of a kind it has. -/
theorem microsOf_mayUse (i : Instr) (s : State) : ∀ m ∈ microsOf i s, mayUse i m = true := by
  have hpix : ∀ (c : Config) x y on, ∀ m ∈ pixWrite c x y on,
      (∃ a, m = .readByte a) ∨ ∃ a k o, m = .writeBit a k o := by
    intro c x y on m hm
    unfold pixWrite at hm
    split at hm <;> simp at hm
    rcases hm with rfl | rfl
    · exact .inl ⟨_, rfl⟩
    · exact .inr ⟨_, _, _, rfl⟩
  have hdraw : ∀ cols, ∀ m ∈ drawAtCursor s cols,
      (∃ a, m = .readByte a) ∨ (∃ a k o, m = .writeBit a k o) ∨ m = .advance := by
    intro cols m hm
    simp only [drawAtCursor, drawGlyph, List.mem_append, List.mem_flatMap, List.mem_singleton] at hm
    rcases hm with (⟨_, _, _, _, hm⟩ | ⟨_, _, hm⟩) | rfl
    · rcases hpix _ _ _ _ m hm with h | h
      · exact .inl h
      · exact .inr (.inl h)
    · rcases hpix _ _ _ _ m hm with h | h
      · exact .inl h
      · exact .inr (.inl h)
    · exact .inr (.inr rfl)
  have hcp : ∀ cp b, ∀ m ∈ completeCodepoint s cp, mayUse (.write b) m = true := by
    intro cp b m hm
    rcases List.mem_cons.1 hm with rfl | hm
    · rfl
    · rcases hdraw _ m hm with ⟨_, rfl⟩ | ⟨_, _, _, rfl⟩ | rfl <;> rfl
  intro m hm
  cases i <;> simp only [microsOf] at hm
  case setpix x y on => rcases hpix _ _ _ _ m hm with ⟨_, rfl⟩ | ⟨_, _, _, rfl⟩ <;> rfl
  case wglyph g => rcases hdraw _ m hm with ⟨_, rfl⟩ | ⟨_, _, _, rfl⟩ | rfl <;> rfl
  case write b =>
    simp only [List.mem_append, List.mem_singleton] at hm
    rcases hm with hm | rfl
    · unfold writeByteSteps decodeIdleByte decodeContinuationByte at hm
      split at hm
      · simp at hm
      · split at hm
        · simp at hm; subst hm; rfl
        · split at hm <;> split at hm
          · exact hcp _ _ m hm
          · split at hm
            · simp at hm; subst hm; rfl
            · exact hcp _ _ m hm
          · exact hcp _ _ m hm
          · exact hcp _ _ m hm
    · rfl
  case clear =>
    obtain ⟨_, _, rfl⟩ := List.mem_map.1 hm; rfl
  case getpix => split at hm <;> simp at hm <;> (first | subst hm | rcases hm with rfl | rfl) <;> rfl
  case rdfb => split at hm <;> simp at hm <;> (first | subst hm | rcases hm with rfl | rfl) <;> rfl
  case wrfb => split at hm <;> simp at hm; subst hm; rfl
  case setug => split at hm <;> simp at hm; subst hm; rfl
  all_goals simp at hm
  all_goals subst hm; rfl

/-- Every micro-step of a command but START and STOP leaves the refresh state alone (spec/10_state.md R37). -/
theorem microsOf_refresh {i : Instr} {s : State} (h1 : ∀ p, i ≠ .start p) (h2 : i ≠ .stop) :
    ∀ m ∈ microsOf i s, (∀ p, m ≠ .startRefresh p) ∧ m ≠ .stopRefresh := by
  intro m hm
  have h := microsOf_mayUse i s m hm
  constructor
  · rintro p rfl
    cases i <;> first | exact h1 _ rfl | exact Bool.noConfusion h
  · rintro rfl
    cases i <;> first | exact h2 rfl | exact Bool.noConfusion h

end Sys2Proof.Machine
end

