-- ==== Sys2Proof/Laws/Draw.lean ====
section
/-! SUPPORT. Pixel writes as wholes: what one PixWrite, and a list of them such as DrawGlyph, does to every stored bit of
the framebuffer when no tick falls inside. -/

namespace Sys2Proof.Machine

/-- The stored bit at a position, at the linear address of its byte. -/
theorem State.rawBit_eq (s : State) (r p : Nat) :
    s.rawBit r p = (s.fbRead (s.cfg.byteAddr r (p / 8))).getLsbD (7 - p % 8) := rfl

theorem State.rawBit_congr {s t : State} (hc : t.cfg = s.cfg) (hf : t.fb = s.fb) (r p : Nat) :
    t.rawBit r p = s.rawBit r p := by
  rw [State.rawBit_eq, State.rawBit_eq, hc, State.fbRead_congr hc hf]

theorem State.pixel_eq (s : State) (x y : Nat) : s.pixel x y = s.rawBit y (s.cfg.pixelPos x) := rfl

/-- The byte that PixWrite puts back (spec/40_pixel.md R110). -/
def putBit (v mask : Byte) (on : Bool) : Byte := if on then v ||| mask else v &&& ~~~mask

theorem putBit_getLsbD (v : Byte) (p : Nat) (on : Bool) {j : Nat} (hj : j < 8) :
    (putBit v (bitMask p) on).getLsbD j = if j = 7 - p % 8 then on else v.getLsbD j := by
  cases on
  · simp only [putBit, Bool.false_eq_true, if_false, BitVec.getLsbD_and, BitVec.getLsbD_not, bitMask_getLsbD]
    by_cases h : j = 7 - p % 8 <;> simp [h, hj]
  · simp only [putBit, if_true, BitVec.getLsbD_or, bitMask_getLsbD]
    by_cases h : j = 7 - p % 8 <;> simp [h]

/-- PixWrite that no tick interrupts (spec/40_pixel.md R110). -/
def State.putPixel (s : State) (x y : Nat) (on : Bool) : State :=
  if s.cfg.inDisplay x y then
    s.fbWrite (s.cfg.pixelAddr x y) (putBit (s.fbRead (s.cfg.pixelAddr x y)) (s.cfg.pixelMask x) on)
  else s

@[simp] theorem State.putPixel_cfg (s : State) (x y : Nat) (on : Bool) : (s.putPixel x y on).cfg = s.cfg := by
  unfold State.putPixel; split <;> simp

theorem State.putPixel_frame (s : State) (x y : Nat) (on : Bool) :
    s.putPixel x y on = { s with fb := (s.putPixel x y on).fb } := by
  unfold State.putPixel State.fbWrite
  split
  · split <;> rfl
  · rfl

theorem State.putPixel_wf {s : State} (hw : Memory.wf s.fb) (x y : Nat) (on : Bool) :
    Memory.wf (s.putPixel x y on).fb := by
  unfold State.putPixel; split
  · exact State.fbWrite_wf hw _ _
  · exact hw

theorem State.putPixel_outside {s : State} {x y : Nat} (on : Bool) (h : ¬ s.cfg.inDisplay x y) :
    s.putPixel x y on = s := by
  unfold State.putPixel; rw [if_neg h]

theorem runMicros_pixWrite (s : State) (x y : Nat) (on : Bool) (v : Byte) :
    runMicros (pixWrite s.cfg x y on) v s = s.putPixel x y on := by
  unfold pixWrite State.putPixel
  by_cases h : s.cfg.inDisplay x y
  · have h1 : ¬ (s.cfg.width ≤ x ∨ s.cfg.height ≤ y) := by unfold Config.inDisplay at h; omega
    rw [if_neg h1, if_pos h]; rfl
  · have h1 : s.cfg.width ≤ x ∨ s.cfg.height ≤ y := by unfold Config.inDisplay at h; omega
    rw [if_pos h1, if_neg h]; rfl

theorem pixWrite_length {c : Config} {x y : Nat} (h : c.inDisplay x y) (on : Bool) : (pixWrite c x y on).length = 2 := by
  have h1 : ¬ (c.width ≤ x ∨ c.height ≤ y) := by unfold Config.inDisplay at h; omega
  simp [pixWrite, h1]

/-- One pixel write sets its own bit and no other bit of any row (spec/40_pixel.md R113 and R118). -/
theorem State.putPixel_rawBit {s : State} (hw : Memory.wf s.fb) (x y : Nat) (on : Bool) (r p : Nat)
    (hp : p < 8 * s.cfg.bpr) :
    (s.putPixel x y on).rawBit r p =
      if s.cfg.inDisplay x y ∧ r = y ∧ p = s.cfg.pixelPos x then on else s.rawBit r p := by
  by_cases h : s.cfg.inDisplay x y
  · rw [State.rawBit_eq, State.rawBit_eq, State.putPixel_cfg]
    unfold State.putPixel
    rw [if_pos h, State.fbRead_fbWrite hw _ (s.cfg.pixelAddr_lt h.1 h.2)]
    by_cases ha : s.cfg.byteAddr r (p / 8) = s.cfg.pixelAddr x y
    · obtain ⟨hr, hk⟩ := s.cfg.byteAddr_inj (s.cfg.pos_div_lt_bpr hp) (s.cfg.pixelPos_div_lt h.1) ha
      rw [if_pos ha, Config.pixelMask, putBit_getLsbD _ _ _ (by omega), ha]
      by_cases hq : 7 - p % 8 = 7 - s.cfg.pixelPos x % 8
      · have : p = s.cfg.pixelPos x := by omega
        rw [if_pos hq, if_pos ⟨h, hr, this⟩]
      · rw [if_neg hq, if_neg (by rintro ⟨-, -, e⟩; exact hq (by rw [e]))]
    · rw [if_neg ha, if_neg]
      rintro ⟨-, e1, e2⟩
      exact ha (by rw [e1, e2]; rfl)
  · rw [State.putPixel_outside on h, if_neg (by rintro ⟨h', -⟩; exact h h')]

/-- A byte that the pixel does not lie in reads as before. -/
theorem State.putPixel_fbRead_other (s : State) (x y : Nat) (on : Bool) {a : Nat} (h : a ≠ s.cfg.pixelAddr x y) :
    (s.putPixel x y on).fbRead a = s.fbRead a := by
  unfold State.putPixel; split
  · exact State.fbRead_fbWrite_other _ h
  · rfl

/-- Pixel writes in order: column, row and value of each. -/
def State.putPixels (s : State) (ps : List (Nat × Nat × Bool)) : State :=
  ps.foldl (fun t q => t.putPixel q.1 q.2.1 q.2.2) s

@[simp] theorem State.putPixels_nil (s : State) : s.putPixels [] = s := rfl
@[simp] theorem State.putPixels_cons (s : State) (q : Nat × Nat × Bool) (ps : List (Nat × Nat × Bool)) :
    s.putPixels (q :: ps) = (s.putPixel q.1 q.2.1 q.2.2).putPixels ps := rfl

@[simp] theorem State.putPixels_cfg (s : State) (ps : List (Nat × Nat × Bool)) : (s.putPixels ps).cfg = s.cfg := by
  induction ps generalizing s with
  | nil => rfl
  | cons q ps ih => rw [State.putPixels_cons, ih, State.putPixel_cfg]

theorem State.putPixels_frame (s : State) (ps : List (Nat × Nat × Bool)) :
    s.putPixels ps = { s with fb := (s.putPixels ps).fb } := by
  induction ps generalizing s with
  | nil => rfl
  | cons q ps ih =>
    rw [State.putPixels_cons, ih]
    generalize ((s.putPixel q.1 q.2.1 q.2.2).putPixels ps).fb = f
    rw [State.putPixel_frame]

theorem State.putPixels_wf {s : State} (hw : Memory.wf s.fb) (ps : List (Nat × Nat × Bool)) :
    Memory.wf (s.putPixels ps).fb := by
  induction ps generalizing s with
  | nil => exact hw
  | cons q ps ih => exact ih (State.putPixel_wf hw _ _ _)

theorem runMicros_pixWrites (s : State) (ps : List (Nat × Nat × Bool)) (v : Byte) :
    runMicros (ps.flatMap fun q => pixWrite s.cfg q.1 q.2.1 q.2.2) v s = s.putPixels ps := by
  induction ps generalizing s v with
  | nil => rfl
  | cons q ps ih =>
    rw [List.flatMap_cons, runMicros_append, runMicros_pixWrite, State.putPixels_cons]
    have := ih (s.putPixel q.1 q.2.1 q.2.2) (latchMicros (pixWrite s.cfg q.1 q.2.1 q.2.2) v s)
    rwa [State.putPixel_cfg] at this

/-- The bits that no written pixel lies in are as before. -/
theorem State.putPixels_rawBit_other {s : State} (hw : Memory.wf s.fb) (ps : List (Nat × Nat × Bool)) (r p : Nat)
    (hp : p < 8 * s.cfg.bpr) (h : ∀ q ∈ ps, s.cfg.inDisplay q.1 q.2.1 → r = q.2.1 → p ≠ s.cfg.pixelPos q.1) :
    (s.putPixels ps).rawBit r p = s.rawBit r p := by
  induction ps generalizing s with
  | nil => rfl
  | cons q ps ih =>
    rw [State.putPixels_cons, ih (State.putPixel_wf hw _ _ _) (by simpa using hp)
      (by simpa using fun q' hq' => h q' (by simp [hq'])), State.putPixel_rawBit hw _ _ _ _ _ hp, if_neg]
    rintro ⟨h1, h2, h3⟩
    exact h q (by simp) h1 h2 h3

/-- A bit that some written pixel lies in holds the value written, where every write of that pixel has one value. -/
theorem State.putPixels_rawBit_written {s : State} (hw : Memory.wf s.fb) (ps : List (Nat × Nat × Bool)) (r p : Nat)
    (b : Bool) (hp : p < 8 * s.cfg.bpr)
    (h1 : ∃ q ∈ ps, s.cfg.inDisplay q.1 q.2.1 ∧ r = q.2.1 ∧ p = s.cfg.pixelPos q.1)
    (h2 : ∀ q ∈ ps, s.cfg.inDisplay q.1 q.2.1 → r = q.2.1 → p = s.cfg.pixelPos q.1 → q.2.2 = b) :
    (s.putPixels ps).rawBit r p = b := by
  induction ps generalizing s with
  | nil => simp at h1
  | cons q ps ih =>
    rw [State.putPixels_cons]
    by_cases h : ∃ q ∈ ps, s.cfg.inDisplay q.1 q.2.1 ∧ r = q.2.1 ∧ p = s.cfg.pixelPos q.1
    · exact ih (State.putPixel_wf hw _ _ _) (by simpa using hp) (by simpa using h)
        (by simpa using fun q' hq' => h2 q' (by simp [hq']))
    · rw [State.putPixels_rawBit_other (State.putPixel_wf hw _ _ _) ps r p (by simpa using hp)
        (fun q' hq' a b c => h ⟨q', hq', by simpa using a, b, by simpa using c⟩),
        State.putPixel_rawBit hw _ _ _ _ _ hp]
      obtain ⟨q', hq', ha, hb, hc⟩ := h1
      rcases List.mem_cons.1 hq' with rfl | hq'
      · rw [if_pos ⟨ha, hb, hc⟩]; exact h2 q' (by simp) ha hb hc
      · exact absurd ⟨q', hq', ha, hb, hc⟩ h

/-- The 42 pixel writes of DrawGlyph at (x0, y0), in order (spec/42_text.md R181). -/
def cellPixels (x0 y0 : Nat) (cols : GlyphCols) : List (Nat × Nat × Bool) :=
  ((List.finRange 5).flatMap fun j => (List.range glyphDrawRows).map fun r => (x0 + j.val, y0 + r, cols[j].getLsbD r)) ++
    (List.range glyphDrawRows).map fun r => (x0 + 5, y0 + r, false)

theorem drawGlyph_eq (c : Config) (x0 y0 : Nat) (cols : GlyphCols) :
    drawGlyph c x0 y0 cols = (cellPixels x0 y0 cols).flatMap fun q => pixWrite c q.1 q.2.1 q.2.2 := by
  simp only [drawGlyph, cellPixels, List.flatMap_append, List.flatMap_assoc, List.flatMap_map]

/-- What DrawGlyph writes to a pixel of the cell's rows 0..6. -/
theorem mem_cellPixels {x0 y0 : Nat} {cols : GlyphCols} {q : Nat × Nat × Bool} :
    q ∈ cellPixels x0 y0 cols ↔
      x0 ≤ q.1 ∧ q.1 < x0 + 6 ∧ y0 ≤ q.2.1 ∧ q.2.1 < y0 + 7 ∧
        q.2.2 = (cols.toList.getD (q.1 - x0) 0#8).getLsbD (q.2.1 - y0) := by
  obtain ⟨x, y, b⟩ := q
  simp only [cellPixels, List.mem_append, List.mem_flatMap, List.mem_map, List.mem_range, glyphDrawRows,
    List.mem_finRange, true_and, Prod.mk.injEq]
  constructor
  · rintro (⟨j, r, hr, rfl, rfl, rfl⟩ | ⟨r, hr, rfl, rfl, rfl⟩)
    · refine ⟨by omega, by omega, by omega, by omega, ?_⟩
      simp
    · refine ⟨by omega, by omega, by omega, by omega, ?_⟩
      simp
  · rintro ⟨h1, h2, h3, h4, h5⟩
    by_cases h : x - x0 < 5
    · refine .inl ⟨⟨x - x0, h⟩, y - y0, by omega, by simp; omega, by omega, ?_⟩
      rw [h5]
      simp [h]
    · refine .inr ⟨y - y0, by omega, by omega, by omega, ?_⟩
      rw [h5]
      have : x - x0 = 5 := by omega
      simp [this]

/-- DrawGlyph is 84 micro-steps (spec/42_text.md R181). -/
theorem drawGlyph_length {c : Config} {col row : Nat} (hc : col < c.cols) (hr : row < c.rows) (cols : GlyphCols) :
    (drawGlyph c (col * charW) (row * charH) cols).length = 84 := by
  have h : ∀ q ∈ cellPixels (col * charW) (row * charH) cols, (pixWrite c q.1 q.2.1 q.2.2).length = 2 := by
    intro q hq
    obtain ⟨h1, h2, h3, h4, -⟩ := mem_cellPixels.1 hq
    exact pixWrite_length (c.cell_inDisplay hc hr (by simpa [charW] using h2) (by simp [charH] at h4; omega)) _
  rw [drawGlyph_eq, List.length_flatMap, List.map_congr_left h]
  simp [cellPixels, glyphDrawRows, List.finRange, Function.comp_def]

/-- Drawing in the cell at the cursor and advancing, with no tick inside: the cursor and the framebuffer change alone
(spec/42_text.md R181 and R185). -/
theorem runMicros_drawAtCursor (s : State) (cols : GlyphCols) (v : Byte) :
    runMicros (drawAtCursor s cols) v s =
      (s.putPixels (cellPixels (s.curCol.toNat * charW) (s.curRow.toNat * charH) cols)).advance := by
  unfold drawAtCursor
  rw [runMicros_append, drawGlyph_eq, runMicros_pixWrites]
  rfl

/-- Every pixel of the display after a glyph is drawn in a cell (spec/42_text.md R181). -/
theorem State.putPixels_cell_pixel {s : State} (hw : Memory.wf s.fb) (x0 y0 : Nat) (cols : GlyphCols) {x y : Nat}
    (h : s.cfg.inDisplay x y) :
    (s.putPixels (cellPixels x0 y0 cols)).pixel x y =
      if x0 ≤ x ∧ x < x0 + 6 ∧ y0 ≤ y ∧ y < y0 + 7 then (cols.toList.getD (x - x0) 0#8).getLsbD (y - y0)
      else s.pixel x y := by
  have hp : s.cfg.pixelPos x < 8 * s.cfg.bpr := by
    have := s.cfg.pixelPos_range h.1; have := s.cfg.bpr_bits; omega
  rw [State.pixel_eq, State.pixel_eq, State.putPixels_cfg]
  split
  · next hin =>
    refine State.putPixels_rawBit_written hw _ _ _ _ hp
      ⟨(x, y, (cols.toList.getD (x - x0) 0#8).getLsbD (y - y0)),
        mem_cellPixels.2 ⟨hin.1, hin.2.1, hin.2.2.1, hin.2.2.2, rfl⟩, h, rfl, rfl⟩ ?_
    intro q hq h1 h2 h3
    rw [(mem_cellPixels.1 hq).2.2.2.2, ← h2, s.cfg.pixelPos_inj h.1 h1.1 h3]
  · next hout =>
    refine State.putPixels_rawBit_other hw _ _ _ hp ?_
    intro q hq h1 h2 h3
    have h4 := mem_cellPixels.1 hq
    rw [← h2, ← s.cfg.pixelPos_inj h.1 h1.1 h3] at h4
    exact hout ⟨h4.1, h4.2.1, h4.2.2.1, h4.2.2.2.1⟩

/-- No pixel write touches a dummy bit or a pad bit (spec/40_pixel.md R118). -/
theorem State.putPixels_rawBit_unmapped {s : State} (hw : Memory.wf s.fb) (ps : List (Nat × Nat × Bool)) (r p : Nat)
    (hp : p < 8 * s.cfg.bpr) (h : p < s.cfg.dummyBits ∨ s.cfg.dummyBits + s.cfg.width ≤ p) :
    (s.putPixels ps).rawBit r p = s.rawBit r p := by
  refine State.putPixels_rawBit_other hw ps r p hp ?_
  intro q _ h1 _ h3
  have := s.cfg.pixelPos_range h1.1
  omega

end Sys2Proof.Machine
end

