-- ==== Sys2Proof/Laws/Bus.lean ====
section
/-! SUPPORT. What a row transmission puts on the serial bus, bit by bit (spec/20_memory.md R54). -/

namespace Sys2Proof.Machine

@[simp] theorem transferBits_length (b : Byte) : (transferBits b).length = 8 := by simp [transferBits]

/-- Bit positions 0..8·n-1 are eight of each byte in turn. -/
theorem range_blocks (n : Nat) : List.range (8 * n) = (List.range n).flatMap fun k => (List.range 8).map (8 * k + ·) := by
  induction n with
  | zero => rfl
  | succ n ih => rw [Nat.mul_succ, List.range_add, List.range_succ (n := n), List.flatMap_append, ih, List.flatMap_singleton]

/-- The bits of a row as a tick sends it, in ascending physical position: the dummy bits 0, every other bit as stored
(spec/20_memory.md R54, spec/43_refresh.md R208). -/
theorem State.sentBytes_bits (s : State) (r : Nat) :
    (s.sentBytes r).flatMap transferBits =
      (List.range (8 * s.cfg.bpr)).map fun p => decide (s.cfg.dummyBits ≤ p) && s.rawBit r p := by
  rw [State.sentBytes, range_blocks, List.flatMap_map, List.map_flatMap]
  refine List.flatMap_congr fun k _ => ?_
  rw [transferBits, List.map_map]
  refine List.map_congr_left fun n hn => ?_
  have hn : n < 8 := List.mem_range.1 hn
  have h1 : (8 * k + n) / 8 = k := by omega
  have h2 : (8 * k + n) % 8 = n := by omega
  simp only [Function.comp, State.rawBit, h1, h2]
  have hd := s.cfg.dummyBits_range
  split
  · next h =>
    subst h
    rw [BitVec.getLsbD_and, BitVec.getLsbD_not, Config.dummyMask_getLsbD]
    have : (7 - n < 8) := by omega
    by_cases hx : s.cfg.dummyBits ≤ n
    · have h3 : ¬ (8 - s.cfg.dummyBits ≤ 7 - n) := by omega
      simp [hx, this, h3]
    · have h3 : (8 - s.cfg.dummyBits ≤ 7 - n) := by omega
      simp [hx, h3, this]
  · have : s.cfg.dummyBits ≤ 8 * k + n := by omega
    simp [this]

/-- The same by the classes of positions: the dummy bits, the pixels with x falling from W - 1 to 0, the pad bits. -/
theorem State.sentBytes_bits_classes (s : State) (r : Nat) :
    (s.sentBytes r).flatMap transferBits =
      List.replicate s.cfg.dummyBits false ++
        (List.range s.cfg.width).map (fun n => s.pixel (s.cfg.width - 1 - n) r) ++
        (List.range (8 * s.cfg.bpr - (s.cfg.dummyBits + s.cfg.width))).map
          (fun n => s.rawBit r (s.cfg.dummyBits + s.cfg.width + n)) := by
  have hb := s.cfg.bpr_bits
  have e : 8 * s.cfg.bpr = s.cfg.dummyBits + s.cfg.width + (8 * s.cfg.bpr - (s.cfg.dummyBits + s.cfg.width)) := by omega
  rw [State.sentBytes_bits, e, List.range_add, List.range_add, List.map_append, List.map_append, List.map_map, List.map_map, ← e]
  congr 1
  · congr 1
    · rw [List.eq_replicate_iff]
      refine ⟨by simp, ?_⟩
      intro b hb
      obtain ⟨p, hp, rfl⟩ := List.mem_map.1 hb
      have : ¬ s.cfg.dummyBits ≤ p := by have := List.mem_range.1 hp; omega
      simp [this]
    · refine List.map_congr_left fun n hn => ?_
      have hn := List.mem_range.1 hn
      have : s.cfg.pixelPos (s.cfg.width - 1 - n) = s.cfg.dummyBits + n := by unfold Config.pixelPos; omega
      simp [State.pixel_eq, this]
  · refine List.map_congr_left fun n hn => ?_
    have : s.cfg.dummyBits ≤ s.cfg.dummyBits + s.cfg.width + n := by omega
    simp [this]

/-- Events put their bits on the bus after those already there. -/
@[simp] theorem State.busBits_append (s : State) (evs : List Event) :
    ({ s with trace := s.trace ++ evs } : State).busBits = s.busBits ++ evs.flatMap Event.busBits := by
  simp [State.busBits]

/-- A transmission puts its row's bytes on the bus and nothing else. -/
theorem State.rowEvents_busBits (s : State) (r : Nat) : (s.rowEvents r).flatMap Event.busBits = (s.sentBytes r).flatMap transferBits := by
  unfold State.rowEvents
  by_cases h : r = 0 <;> simp [h, Event.busBits, List.flatMap_map]

end Sys2Proof.Machine
end

