-- ==== Sys2Proof/Laws/Decode.lean ====
section
/-! SUPPORT. Bit fields of a word written as a concatenation, and decoding opcode by opcode. -/

namespace Sys2Proof

theorem opcodeOf_append (opc : Byte) (opr : BitVec 24) : opcodeOf (opc ++ opr) = opc := by
  unfold opcodeOf
  exact BitVec.extractLsb'_append_eq_left

/-- Reading one command when its extension words are there. -/
theorem decode_cons {w0 : Word} {rest : List Word} (h : lengthOfOpcode (opcodeOf w0) - 1 ≤ rest.length) :
    decode (w0 :: rest) =
      .ok (decodeWords w0 (rest.getD 0 0) (rest.getD 1 0), rest.drop (lengthOfOpcode (opcodeOf w0) - 1)) := by
  simp [decode, Nat.not_lt.2 h]

/-- A command of one word needs nothing after its lead word. -/
theorem decode_one {w0 : Word} (rest : List Word) (h7 : opcodeOf w0 ≠ 0x07#8) (hC : opcodeOf w0 ≠ 0x0C#8) :
    decode (w0 :: rest) = .ok (decodeWords w0 (rest.getD 0 0) (rest.getD 1 0), rest) := by
  have : lengthOfOpcode (opcodeOf w0) = 1 := by simp [lengthOfOpcode, h7, hC]
  rw [decode_cons (by simp [this]), this]; rfl

/-- A lead word with a reserved opcode (spec/30_encoding.md R87). -/
theorem decodeWords_reserved (w0 w1 w2 : Word) (h : 0x0E ≤ (opcodeOf w0).toNat) :
    decodeWords w0 w1 w2 = decodeReserved (opcodeOf w0) := by
  unfold decodeWords
  simp only
  generalize opcodeOf w0 = opc at h
  have hne : ∀ k : Byte, k.toNat < 0x0E → opc ≠ k := fun k hk e => by subst e; omega
  simp only [hne 0 (by decide), hne 1 (by decide), hne 2 (by decide), hne 3 (by decide), hne 4 (by decide),
    hne 5 (by decide), hne 6 (by decide), hne 7 (by decide), hne 8 (by decide), hne 9 (by decide),
    hne 10 (by decide), hne 11 (by decide), hne 12 (by decide), hne 13 (by decide), if_false]

theorem decode_reserved (w0 : Word) (rest : List Word) (h : 0x0E ≤ (opcodeOf w0).toNat) :
    decode (w0 :: rest) = .ok (decodeReserved (opcodeOf w0), rest) := by
  have hne : ∀ k : Byte, k.toNat < 0x0E → opcodeOf w0 ≠ k := fun k hk e => by rw [e] at h; omega
  rw [decode_one rest (hne 7 (by decide)) (hne 0x0C (by decide)), decodeWords_reserved _ _ _ h]

/-- What a read gives: its opcode is the lead word's, its length its opcode's, and the rest is what follows it
(spec/30_encoding.md R84 and R89). -/
theorem decode_ok {ws rest : List Word} {i : Instr} (h : decode ws = .ok (i, rest)) :
    ws.length = i.words + rest.length ∧ rest = ws.drop i.words ∧ WellFormed i = true := by
  cases ws with
  | nil => simp [decode] at h
  | cons w0 tl =>
    unfold decode at h
    simp only at h
    split at h
    · simp at h
    · next hlen =>
      simp only [Except.ok.injEq, Prod.mk.injEq] at h
      obtain ⟨rfl, rfl⟩ := h
      have key : (decodeWords w0 (tl.getD 0 0) (tl.getD 1 0)).words = lengthOfOpcode (opcodeOf w0) ∧
          WellFormed (decodeWords w0 (tl.getD 0 0) (tl.getD 1 0)) = true := by
        by_cases hr : 0x0E ≤ (opcodeOf w0).toNat
        · rw [decodeWords_reserved _ _ _ hr]
          revert hr
          generalize opcodeOf w0 = opc
          revert opc; decide
        · have hmem : opcodeOf w0 ∈ [0#8, 1#8, 2#8, 3#8, 4#8, 5#8, 6#8, 7#8, 8#8, 9#8, 10#8, 11#8, 12#8, 13#8] := by
            revert hr; clear hlen
            generalize opcodeOf w0 = opc
            revert opc; decide
          simp only [List.mem_cons, List.not_mem_nil, or_false] at hmem
          unfold decodeWords
          rcases hmem with h | h | h | h | h | h | h | h | h | h | h | h | h | h <;>
            simp [h, Instr.words, WellFormed, lengthOfOpcode]
      have hpos : 1 ≤ lengthOfOpcode (opcodeOf w0) := by
        unfold lengthOfOpcode; split <;> (try split) <;> decide
      refine ⟨?_, ?_, key.2⟩
      · rw [key.1]; simp; omega
      · rw [key.1]
        have : lengthOfOpcode (opcodeOf w0) = lengthOfOpcode (opcodeOf w0) - 1 + 1 := by omega
        conv => rhs; rw [this, List.drop_succ_cons]

end Sys2Proof
end

