-- ==== Sys2Proof/Laws/Run.lean ====
section
/-! SUPPORT. Runs of several steps, and the moves of the machine one by one. -/

namespace Sys2Proof.Machine

/-- `k` steps from `s` lead to `t`. -/
def Reaches (k : Nat) (s t : State) : Prop := Host.Core.run Sys2Proof.core k s = .next t

theorem Reaches.refl (s : State) : Reaches 0 s s := rfl

/-- The first step of a run, of any machine. -/
theorem run_succ {M : Host.Core} {k : Nat} {s t : M.State} (h : M.step s = .next t) : M.run (k + 1) s = M.run k t := by
  simp [Host.Core.run, h]

theorem run_uncons {M : Host.Core} {k : Nat} {s u : M.State} (h : M.run (k + 1) s = .next u) :
    ∃ t, M.step s = .next t ∧ M.run k t = .next u := by
  unfold Host.Core.run at h
  split at h
  · next t ht => exact ⟨t, ht, h⟩
  · simp at h
  · simp at h

theorem Reaches.head {k : Nat} {s t u : State} (h : step s = .next t) (hk : Reaches k t u) : Reaches (k + 1) s u :=
  (run_succ (M := Sys2Proof.core) h).trans hk

/-- The first step of a run. -/
theorem Reaches.uncons {k : Nat} {s u : State} (h : Reaches (k + 1) s u) : ∃ t, step s = .next t ∧ Reaches k t u :=
  run_uncons (M := Sys2Proof.core) h

theorem Reaches.eq_of_zero {s t : State} (h : Reaches 0 s t) : s = t := by
  have h' : (Host.Outcome.next s : Host.Outcome State Fault Refusal) = .next t := h
  exact Host.Outcome.next.inj h'

theorem Reaches.trans {j k : Nat} {s t u : State} (h : Reaches j s t) (hk : Reaches k t u) : Reaches (j + k) s u := by
  induction j generalizing s with
  | zero => rw [h.eq_of_zero]; simpa using hk
  | succ j ih =>
    obtain ⟨s', hs, h'⟩ := h.uncons
    rw [Nat.succ_add]
    exact Reaches.head hs (ih h')

theorem step_tick {s : State} (h : s.tickDue = true) : step s = .next s.takeTick := by simp [step, h]

theorem step_resume {s : State} {c : InFlight} (h : s.tickDue = false) (hi : s.inflight = some c) :
    step s = .next (s.resume c) := by simp [step, h, hi]

theorem step_decoded {s : State} {i : Instr} {rest : List Word} (h : s.tickDue = false) (hi : s.inflight = none)
    (hd : decode s.port = .ok (i, rest)) : step s = exec i { s with port := rest } := by simp [step, h, hi, hd]

theorem step_waits {s : State} {e : DecodeError} (h : s.tickDue = false) (hi : s.inflight = none)
    (hd : decode s.port = .error e) : step s = .next s.leavePoint := by simp [step, h, hi, hd]

@[simp] theorem State.takeTick_ticks (s : State) : s.takeTick.ticks = (s.ticks.headD 0 - 1) :: s.ticks.tail := rfl

/-- A tick leaves CMD's side alone (spec/60_exceptions.md R259). -/
theorem State.tick_command (s : State) :
    s.tick.inflight = s.inflight ∧ s.tick.csp = s.csp ∧ s.tick.port = s.port ∧ s.tick.resp = s.resp ∧
    s.tick.running = s.running ∧ s.tick.timerEn = s.timerEn ∧ s.tick.ticks = s.ticks ∧ SameText s s.tick := by
  unfold State.tick
  split
  · exact ⟨rfl, rfl, rfl, rfl, rfl, rfl, rfl, ⟨rfl, rfl, rfl, rfl, rfl⟩⟩
  · simp only [State.transmitRow, State.clearDummyBits, State.sendRow, State.pulseLatch]
    refine ⟨?_, ?_, ?_, ?_, ?_, ?_, ?_, ⟨?_, ?_, ?_, ?_, ?_⟩⟩ <;> split <;> simp

@[simp] theorem State.takeTick_inflight (s : State) : s.takeTick.inflight = s.inflight := s.tick_command.1
@[simp] theorem State.takeTick_csp (s : State) : s.takeTick.csp = s.csp := s.tick_command.2.1
@[simp] theorem State.takeTick_port (s : State) : s.takeTick.port = s.port := s.tick_command.2.2.1
@[simp] theorem State.takeTick_resp (s : State) : s.takeTick.resp = s.resp := s.tick_command.2.2.2.1
@[simp] theorem State.takeTick_running (s : State) : s.takeTick.running = s.running := s.tick_command.2.2.2.2.1
@[simp] theorem State.takeTick_timerEn (s : State) : s.takeTick.timerEn = s.timerEn := s.tick_command.2.2.2.2.2.1
@[simp] theorem State.takeTick_cfg (s : State) : s.takeTick.cfg = s.cfg := s.tick_cfg
@[simp] theorem State.takeTick_fbRead (s : State) (a : Nat) : s.takeTick.fbRead a = s.tick.fbRead a := rfl
@[simp] theorem State.takeTick_rawBit (s : State) (r p : Nat) : s.takeTick.rawBit r p = s.tick.rawBit r p := rfl

end Sys2Proof.Machine
end

