-- ==== Sys2Proof/Laws/Interleave.lean ====
section
/-! SUPPORT. A command among ticks: a property that every micro-step and every tick keeps holds at the command's end, and
what ticks between a pixel's read and its write can change. -/

namespace Sys2Proof.Machine

theorem sum_eq_head_add_tail (l : List Nat) : l.sum = l.headD 0 + l.tail.sum := by cases l <;> simp

theorem sum_drop_le (l : List Nat) (n : Nat) : (l.drop n).sum ≤ l.sum := by
  have := congrArg List.sum (List.take_append_drop n l)
  rw [List.sum_append] at this
  omega

theorem headD_drop (l : List Nat) (n : Nat) : (l.drop n).headD 0 = l.getD n 0 := by
  induction l generalizing n with
  | nil => simp
  | cons a l ih => cases n <;> simp

/-- A property of a command in progress (its held byte, the micro-steps left, the state) that looks at nothing of CSP,
CMD_INFLIGHT, the port and the tick arrivals, and that every micro-step and every tick keeps. -/
structure Kept (P : Byte → List Micro → State → Prop) : Prop where
  control : ∀ v ms s (a : Nat) (b : Option InFlight) (p : List Word) (d : List Nat),
    P v ms s → P v ms { s with csp := a, inflight := b, port := p, ticks := d }
  micro : ∀ v m ms s, P v (m :: ms) s → P (m.latch v s) ms (m.effect v s)
  tick : ∀ v ms s, P v ms s → P v ms s.tick

theorem Kept.runMicros {P : Byte → List Micro → State → Prop} (hP : Kept P) (xs ys : List Micro) (v : Byte) (s : State)
    (h : P v (xs ++ ys) s) : P (latchMicros xs v s) ys (runMicros xs v s) := by
  induction xs generalizing v s with
  | nil => exact h
  | cons m ms ih => exact ih _ _ (hP.micro v m _ s h)

theorem Kept.takeTick {P : Byte → List Micro → State → Prop} (hP : Kept P) {v : Byte} {ms : List Micro} {s : State}
    (h : P v ms s) : P v ms s.takeTick :=
  hP.control v ms s.tick s.tick.csp s.tick.inflight s.tick.port _ (hP.tick v ms s h)

/-- Where CMD next stands when it goes on with a command: at its end, or at a later StepPoint with a tick due. The kept
property holds there. -/
theorem Kept.resume {P : Byte → List Micro → State → Prop} (hP : Kept P) {i : Instr} {todo : List Micro} {v : Byte}
    {s : State} (h : P v todo s) :
    (∃ w, (s.resume ⟨i, todo, v⟩).inflight = none ∧ (s.resume ⟨i, todo, v⟩).csp = s.csp + i.words ∧
      (s.resume ⟨i, todo, v⟩).port = s.port ∧ P w [] (s.resume ⟨i, todo, v⟩) ∧
      (s.resume ⟨i, todo, v⟩).ticks.sum ≤ s.ticks.sum) ∨
    (∃ c, (s.resume ⟨i, todo, v⟩).inflight = some c ∧ c.command = i ∧ c.todo.length < todo.length ∧
      (s.resume ⟨i, todo, v⟩).csp = s.csp ∧ (s.resume ⟨i, todo, v⟩).port = s.port ∧
      (s.resume ⟨i, todo, v⟩).tickDue = true ∧ P c.latch c.todo (s.resume ⟨i, todo, v⟩) ∧
      (s.resume ⟨i, todo, v⟩).ticks.sum ≤ s.ticks.sum) := by
  cases todo with
  | nil =>
    refine .inl ⟨v, rfl, rfl, rfl, hP.control v [] s _ _ s.port _ h, ?_⟩
    have := sum_eq_head_add_tail s.ticks
    show s.ticks.tail.sum ≤ _
    omega
  | cons m ms =>
    have h1 := hP.micro v m ms s h
    have e0 : s.resume ⟨i, m :: ms, v⟩ = State.carryOn i ms (m.latch v s) (m.effect v s) := rfl
    rcases carryOn_cases i ms (m.latch v s) (m.effect v s) with e | ⟨done, m', rest, hd, ht, e⟩
    · left
      rw [e0, e]
      have h2 := hP.runMicros ms [] (m.latch v s) (m.effect v s) (by rwa [List.append_nil])
      refine ⟨latchMicros ms (m.latch v s) (m.effect v s), rfl, by simp, by simp,
        hP.control _ [] _ _ _ (Sys2Proof.Machine.runMicros ms (m.latch v s) (m.effect v s)).port _ h2, ?_⟩
      simpa using sum_drop_le s.ticks (ms.length + 1)
    · right
      subst hd
      rw [e0, e]
      have h2 := hP.runMicros done (m' :: rest) (m.latch v s) (m.effect v s) h1
      refine ⟨_, rfl, rfl, by simp, by simp, by simp, ?_,
        hP.control _ _ _ (Sys2Proof.Machine.runMicros done (m.latch v s) (m.effect v s)).csp _
          (Sys2Proof.Machine.runMicros done (m.latch v s) (m.effect v s)).port _ h2, ?_⟩
      · rw [State.tickDue_iff]
        show 0 < ((m.effect v s).ticks.drop (done.length + 1)).headD 0
        rw [headD_drop]; exact ht
      · simpa using sum_drop_le s.ticks (done.length + 1)

/-- A command in progress comes to its end, whatever ticks arrive, and the kept property holds there: n ticks arriving in
all, it takes at most 2·n steps when a tick is due now and 2·n + 1 otherwise (spec/20_memory.md R62). -/
theorem Kept.finish {P : Byte → List Micro → State → Prop} (hP : Kept P) (n : Nat) (s : State) (c : InFlight)
    (hn : c.todo.length + s.ticks.sum ≤ n) (hi : s.inflight = some c) (h : P c.latch c.todo s) :
    ∃ k t w, k ≤ 2 * s.ticks.sum + (if s.tickDue then 0 else 1) ∧ Reaches k s t ∧ t.inflight = none ∧
      t.csp = s.csp + c.command.words ∧ t.port = s.port ∧ P w [] t := by
  induction n generalizing s c with
  | zero =>
    have hsum : s.ticks.sum = 0 := by omega
    have hd : s.tickDue = false := by
      have := sum_eq_head_add_tail s.ticks
      rw [State.tickDue_false_iff]; omega
    obtain ⟨i, todo, v⟩ := c
    have hnil : todo = [] := List.length_eq_zero_iff.1 (by simp only at hn; omega)
    subst hnil
    rcases hP.resume (i := i) (todo := []) (v := v) h with ⟨w, h1, h2, h3, h4, -⟩ | ⟨c', -, -, hlt, -⟩
    · exact ⟨1, _, w, by simp [hd], Reaches.head (step_resume hd hi) (Reaches.refl _), h1, h2, h3, h4⟩
    · simp at hlt
  | succ n ih =>
    cases hd : s.tickDue
    · obtain ⟨i, todo, v⟩ := c
      rcases hP.resume (i := i) (todo := todo) (v := v) h with ⟨w, h1, h2, h3, h4, -⟩ | ⟨c', h1, hc, hlt, h2, h3, hd', h4, hs⟩
      · exact ⟨1, _, w, by simp, Reaches.head (step_resume hd hi) (Reaches.refl _), h1, h2, h3, h4⟩
      · obtain ⟨k, t, w, hk, hr, g1, g2, g3, g4⟩ := ih _ c' (by simp only at hn hlt; omega) h1 h4
        rw [hd'] at hk
        exact ⟨k + 1, t, w, by simp at hk ⊢; omega, Reaches.head (step_resume hd hi) hr, g1,
          by rw [g2, h2, hc], by rw [g3, h3], g4⟩
    · have hpos := (State.tickDue_iff s).1 hd
      have hsum := sum_eq_head_add_tail s.ticks
      have hts : s.takeTick.ticks.sum = s.ticks.sum - 1 := by
        rw [State.takeTick_ticks, List.sum_cons]; omega
      obtain ⟨k, t, w, hk, hr, g1, g2, g3, g4⟩ :=
        ih s.takeTick c (by rw [hts]; omega) (by rw [State.takeTick_inflight]; exact hi) (hP.takeTick h)
      refine ⟨k + 1, t, w, ?_, Reaches.head (step_tick hd) hr, g1, by rw [g2]; simp, by rw [g3]; simp, g4⟩
      rw [hts] at hk
      split at hk <;> simp <;> omega

/-- Ticks due between two commands are taken first. -/
theorem take_ticks_between (s : State) (n : Nat) (hn : s.ticks.headD 0 = n) (hi : s.inflight = none) :
    ∃ t, Reaches n s t ∧ t.tickDue = false ∧ t.inflight = none ∧ t.csp = s.csp ∧ t.port = s.port ∧ t.resp = s.resp ∧
      t.ticks.sum + n = s.ticks.sum ∧ t.ticks = List.replicate (min 1 s.ticks.length) 0 ++ s.ticks.tail ∧
      ∀ Q : State → Prop, (∀ u d, Q u → Q { u with ticks := d }) → (∀ u, Q u → Q u.tick) → Q s → Q t := by
  induction n generalizing s with
  | zero =>
    refine ⟨s, Reaches.refl s, (State.tickDue_false_iff s).2 hn, hi, rfl, rfl, rfl, by omega, ?_, fun Q _ _ h => h⟩
    cases hs : s.ticks with
    | nil => simp
    | cons a l => rw [hs] at hn; simp at hn; simp [hn]
  | succ n ih =>
    have hd : s.tickDue = true := by rw [State.tickDue_iff]; omega
    have hsum := sum_eq_head_add_tail s.ticks
    obtain ⟨t, h1, h2, h3, h4, h5, h6, h7, h8, h9⟩ := ih s.takeTick
      (by rw [State.takeTick_ticks, List.headD_cons, hn]; rfl) (by simpa using hi)
    refine ⟨t, Reaches.head (step_tick hd) h1, h2, h3, by simpa using h4, by simpa using h5, by simpa using h6, ?_, ?_,
      fun Q c1 c2 h => h9 Q c1 c2 (c1 _ _ (c2 _ h))⟩
    · rw [State.takeTick_ticks, List.sum_cons] at h7; omega
    · rw [h8]
      cases hs : s.ticks with
      | nil => rw [hs] at hn; simp at hn
      | cons a l => simp [State.takeTick, hs]

/-- The command at the front of the port runs to completion whatever ticks arrive, and a property kept by its micro-steps
and by ticks holds at its end. -/
theorem Kept.command {P : Byte → List Micro → State → Prop} (hP : Kept P) {s : State} {i : Instr} {rest : List Word}
    (hi : s.inflight = none) (hd : decode s.port = .ok (i, rest))
    (h : ∀ t, t.inflight = none → t.port = s.port → t.resp = s.resp →
      (∀ Q : State → Prop, (∀ u d, Q u → Q { u with ticks := d }) → (∀ u, Q u → Q u.tick) → Q s → Q t) →
      P 0#8 (microsOf i { t with port := rest }) { t with port := rest }) :
    ∃ k t w, k ≤ 2 * s.ticks.sum + 1 ∧ Reaches k s t ∧ t.inflight = none ∧ t.csp = s.csp + i.words ∧ t.port = rest ∧
      P w [] t := by
  obtain ⟨t, h1, h2, h3, h4, h5, h6, h7, -, h9⟩ := take_ticks_between s _ rfl hi
  have hstep := step_decoded h2 h3 (by rw [h5]; exact hd)
  rw [exec_eq_issue] at hstep
  have hp := h t h3 h5 h6 h9
  rcases hP.resume (i := i) hp with ⟨w, g1, g2, g3, g4, -⟩ | ⟨c, g1, hc, -, g2, g3, g5, g4, g6⟩
  · exact ⟨s.ticks.headD 0 + 1, _, w, by omega, h1.trans (Reaches.head hstep (Reaches.refl _)), g1,
      by rw [← h4]; exact g2, g3, g4⟩
  · obtain ⟨k, u, w, hk, hr, e1, e2, e3, e4⟩ := hP.finish _ _ c (Nat.le_refl _) g1 g4
    rw [g5] at hk
    refine ⟨s.ticks.headD 0 + (k + 1), u, w, ?_, h1.trans (Reaches.head hstep hr), e1, ?_, by rw [e3, g3], e4⟩
    · simp only [if_true] at hk
      have : ({ t with port := rest } : State).ticks = t.ticks := rfl
      rw [this] at g6
      omega
    · rw [e2, g2, hc]; show t.csp + _ = _; rw [h4]

end Sys2Proof.Machine
end

