-- ==== Sys2Proof/Laws/Pairs.lean ====
section
/-! SUPPORT. The read and the write of a pixel as a pair: every write of a pixel's bit follows the read of its byte, so
that ticks between them change none of the bits a command draws. -/

namespace Sys2Proof.Machine

/-- An address and a mask that are a pixel's (spec/20_memory.md R52). -/
def OnPixel (c : Config) (addr : Nat) (mask : Byte) (x y : Nat) : Prop :=
  c.inDisplay x y ∧ addr = c.pixelAddr x y ∧ mask = c.pixelMask x

/-- `m` is the read that a following write of a pixel's bit needs, if a write follows. -/
def Feeds (c : Config) (m : Micro) (next : List Micro) : Prop :=
  ∀ addr mask on rest, next = .writeBit addr mask on :: rest →
    m = .readByte addr ∧ ∃ x y, OnPixel c addr mask x y

/-- Every write of a bit but a first one follows the read of its byte (spec/40_pixel.md R110). -/
def Paired (c : Config) (ms : List Micro) : Prop :=
  match ms with
  | [] => True
  | m :: rest => Feeds c m rest ∧ Paired c rest

/-- The first micro-step writes no bit. -/
def Fresh (ms : List Micro) : Prop := ∀ addr mask on rest, ms ≠ .writeBit addr mask on :: rest

theorem fresh_nil : Fresh [] := by simp [Fresh]

theorem Feeds.of_fresh {c : Config} {m : Micro} {next : List Micro} (h : Fresh next) : Feeds c m next :=
  fun addr mask on rest e => absurd e (h addr mask on rest)

theorem Fresh.append {xs ys : List Micro} (hx : Fresh xs) (hy : Fresh ys) : Fresh (xs ++ ys) := by
  cases xs with
  | nil => exact hy
  | cons m ms =>
    intro addr mask on rest e
    rw [List.cons_append, List.cons.injEq] at e
    exact hx addr mask on ms (by rw [e.1])

theorem Paired.append {c : Config} {xs ys : List Micro} (hx : Paired c xs) (hy : Paired c ys) (hf : Fresh ys) :
    Paired c (xs ++ ys) := by
  induction xs with
  | nil => exact hy
  | cons m ms ih =>
    refine ⟨?_, ih hx.2⟩
    cases ms with
    | nil => exact .of_fresh hf
    | cons m' ms' =>
      intro addr mask on rest e
      replace e : m' :: (ms' ++ ys) = .writeBit addr mask on :: rest := e
      rw [List.cons.injEq] at e
      exact hx.1 addr mask on ms' (by rw [e.1])

theorem Paired.tail {c : Config} {m : Micro} {ms : List Micro} (h : Paired c (m :: ms)) : Paired c ms := h.2

theorem paired_pixWrite (c : Config) (x y : Nat) (on : Bool) : Paired c (pixWrite c x y on) := by
  unfold pixWrite
  split
  · trivial
  · next h =>
    refine ⟨?_, .of_fresh fresh_nil, trivial⟩
    intro addr mask on' rest e
    simp only [List.cons.injEq, Micro.writeBit.injEq] at e
    obtain ⟨⟨rfl, rfl, -⟩, -⟩ := e
    exact ⟨rfl, x, y, by unfold Config.inDisplay; omega, rfl, rfl⟩

theorem fresh_pixWrite (c : Config) (x y : Nat) (on : Bool) : Fresh (pixWrite c x y on) := by
  unfold pixWrite
  split <;> simp [Fresh]

theorem paired_pixWrites (c : Config) (ps : List (Nat × Nat × Bool)) :
    Paired c (ps.flatMap fun q => pixWrite c q.1 q.2.1 q.2.2) ∧ Fresh (ps.flatMap fun q => pixWrite c q.1 q.2.1 q.2.2) := by
  induction ps with
  | nil => exact ⟨trivial, fresh_nil⟩
  | cons q ps ih =>
    rw [List.flatMap_cons]
    exact ⟨(paired_pixWrite c _ _ _).append ih.1 ih.2, Fresh.append (fresh_pixWrite c _ _ _) ih.2⟩

/-- A list with no write of a bit is paired. -/
theorem paired_of_none {c : Config} {ms : List Micro} (h : ∀ m ∈ ms, ∀ addr mask on, m ≠ .writeBit addr mask on) :
    Paired c ms ∧ Fresh ms := by
  induction ms with
  | nil => exact ⟨trivial, fresh_nil⟩
  | cons m ms ih =>
    have := ih fun m' hm' => h m' (by simp [hm'])
    refine ⟨⟨.of_fresh this.2, this.1⟩, ?_⟩
    intro addr mask on rest e
    exact h m (by simp) addr mask on (by rw [List.cons.injEq] at e; exact e.1)

theorem paired_drawAtCursor (s : State) (cols : GlyphCols) :
    Paired s.cfg (drawAtCursor s cols) ∧ Fresh (drawAtCursor s cols) := by
  have h := paired_pixWrites s.cfg (cellPixels (s.curCol.toNat * charW) (s.curRow.toNat * charH) cols)
  have h1 : Paired s.cfg [.advance] ∧ Fresh [.advance] := paired_of_none (by simp)
  rw [← drawGlyph_eq] at h
  exact ⟨h.1.append h1.1 h1.2, h.2.append h1.2⟩

theorem paired_completeCodepoint (s : State) (cp : BitVec 11) :
    Paired s.cfg (completeCodepoint s cp) ∧ Fresh (completeCodepoint s cp) := by
  have h := paired_drawAtCursor s (columnsFor s (resolveGlyph cp))
  refine ⟨⟨.of_fresh h.2, h.1⟩, ?_⟩
  intro addr mask on rest e
  simp [completeCodepoint] at e

theorem paired_writeByteSteps (s : State) (b : Byte) :
    Paired s.cfg (writeByteSteps s b) ∧ Fresh (writeByteSteps s b) := by
  unfold writeByteSteps decodeIdleByte decodeContinuationByte
  split
  · exact paired_of_none (by simp)
  · split
    · exact paired_of_none (by simp)
    · split <;> split
      · exact paired_completeCodepoint ..
      · split
        · exact paired_of_none (by simp)
        · exact paired_completeCodepoint ..
      · exact paired_completeCodepoint ..
      · exact paired_completeCodepoint ..

/-- In every command each write of a bit follows the read of its byte. -/
theorem paired_microsOf (i : Instr) (s : State) : Paired s.cfg (microsOf i s) ∧ Fresh (microsOf i s) := by
  cases i <;> simp only [microsOf]
  case setpix x y on => exact ⟨paired_pixWrite _ _ _ _, fresh_pixWrite _ _ _ _⟩
  case wglyph g => exact paired_drawAtCursor ..
  case write b =>
    have h := paired_writeByteSteps s b
    have h1 : Paired s.cfg [.respond [0x01]] ∧ Fresh [.respond [0x01]] := paired_of_none (by simp)
    exact ⟨h.1.append h1.1 h1.2, h.2.append h1.2⟩
  case getpix => split <;> exact paired_of_none (by simp)
  case rdfb => split <;> exact paired_of_none (by simp)
  case wrfb => split <;> exact paired_of_none (by simp)
  case setug => split <;> exact paired_of_none (by simp)
  case clear =>
    refine paired_of_none fun m hm => ?_
    obtain ⟨_, -, rfl⟩ := List.mem_map.1 hm
    simp
  all_goals exact paired_of_none (by simp)

/-- The held byte agrees, on the bits that are no dummy bits, with the stored byte that the next micro-step writes to. -/
def LatchOk (v : Byte) (ms : List Micro) (s : State) : Prop :=
  ∀ addr mask on rest, ms = .writeBit addr mask on :: rest →
    ∃ x y, OnPixel s.cfg addr mask x y ∧
      ∀ p, s.cfg.dummyBits ≤ p → p / 8 = s.cfg.pixelPos x / 8 → v.getLsbD (7 - p % 8) = s.rawBit y p

theorem LatchOk.of_fresh {v : Byte} {ms : List Micro} {s : State} (h : Fresh ms) : LatchOk v ms s :=
  fun addr mask on rest e => absurd e (h addr mask on rest)

/-- The read of a byte makes the held byte agree with it. -/
theorem LatchOk.next {c : Config} {m : Micro} {ms : List Micro} {v : Byte} {s : State} (hc : s.cfg = c)
    (h : Paired c (m :: ms)) : LatchOk (m.latch v s) ms (m.effect v s) := by
  intro addr mask on rest e
  obtain ⟨rfl, x, y, hp⟩ := h.1 addr mask on rest e
  refine ⟨x, y, by rw [Micro.effect_cfg, hc]; exact hp, fun p _ h2 => ?_⟩
  show (s.fbRead addr).getLsbD _ = s.rawBit y p
  rw [State.rawBit_eq, h2, hp.2.1, ← hc]
  rfl

theorem LatchOk.congr {v : Byte} {ms : List Micro} {s t : State} (hc : t.cfg = s.cfg)
    (hb : ∀ r p, s.cfg.dummyBits ≤ p → p < 8 * s.cfg.bpr → t.rawBit r p = s.rawBit r p) (h : LatchOk v ms s) :
    LatchOk v ms t := by
  intro addr mask on rest e
  obtain ⟨x, y, hp, hv⟩ := h addr mask on rest e
  refine ⟨x, y, by rwa [hc], fun p h1 h2 => ?_⟩
  rw [hc] at h1 h2
  have := s.cfg.pixelPos_div_lt hp.1.1
  rw [hv p h1 h2, hb y p h1 (by omega)]

/-- A write of a pixel's bit, the held byte being right, sets that bit and no other pixel or pad bit. -/
theorem writeBit_rawBit {s : State} (hw : Memory.wf s.fb) {addr : Nat} {mask v : Byte} {on : Bool} {x y : Nat}
    (hp : OnPixel s.cfg addr mask x y)
    (hv : ∀ p, s.cfg.dummyBits ≤ p → p / 8 = s.cfg.pixelPos x / 8 → v.getLsbD (7 - p % 8) = s.rawBit y p)
    (r p : Nat) (h1 : s.cfg.dummyBits ≤ p) (h2 : p < 8 * s.cfg.bpr) :
    ((Micro.writeBit addr mask on).effect v s).rawBit r p =
      if r = y ∧ p = s.cfg.pixelPos x then on else s.rawBit r p := by
  obtain ⟨hin, rfl, rfl⟩ := hp
  rw [State.rawBit_eq, Micro.effect_cfg]
  show ((s.fbWrite _ (putBit v (s.cfg.pixelMask x) on)).fbRead _).getLsbD _ = _
  rw [State.fbRead_fbWrite hw _ (s.cfg.pixelAddr_lt hin.1 hin.2)]
  by_cases ha : s.cfg.byteAddr r (p / 8) = s.cfg.pixelAddr x y
  · obtain ⟨rfl, hk⟩ := s.cfg.byteAddr_inj (s.cfg.pos_div_lt_bpr h2) (s.cfg.pixelPos_div_lt hin.1) ha
    rw [if_pos ha, Config.pixelMask, putBit_getLsbD _ _ _ (by omega), hv p h1 hk]
    by_cases hq : 7 - p % 8 = 7 - s.cfg.pixelPos x % 8
    · rw [if_pos hq, if_pos ⟨rfl, by omega⟩]
    · rw [if_neg hq, if_neg (by rintro ⟨-, e⟩; exact hq (by rw [e]))]
  · rw [if_neg ha, if_neg, State.rawBit_eq]
    rintro ⟨e1, e2⟩
    exact ha (by rw [e1, e2]; rfl)

/-- Two states that agree on the configuration, on the state only CMD owns, and on every pixel bit and pad bit. -/
structure Agree (s t : State) : Prop where
  cfg : t.cfg = s.cfg
  text : SameText s t
  bits : ∀ r p, s.cfg.dummyBits ≤ p → p < 8 * s.cfg.bpr → t.rawBit r p = s.rawBit r p

theorem Agree.refl (s : State) : Agree s s := ⟨rfl, ⟨rfl, rfl, rfl, rfl, rfl⟩, fun _ _ _ _ => rfl⟩

/-- A tick keeps agreement (spec/43_refresh.md R208 and R215). -/
theorem Agree.tick {s t : State} (h : Agree s t) (hw : Memory.wf t.fb) : Agree s t.tick := by
  have h1 := t.tick_sameText hw
  refine ⟨by rw [State.tick_cfg, h.cfg], ⟨?_, ?_, ?_, ?_, ?_⟩, fun r p hp hp' => ?_⟩
  · rw [h1.curCol, h.text.curCol]
  · rw [h1.curRow, h.text.curRow]
  · rw [h1.uExp, h.text.uExp]
  · rw [h1.uAcc, h.text.uAcc]
  · rw [h1.ug, h.text.ug]
  · rw [State.tick_rawBit hw r p (by rwa [h.cfg]) (by rwa [h.cfg]), h.bits r p hp hp']

/-- Agreement of two states that differ from an agreeing pair in the framebuffer alone. -/
theorem Agree.of_fb {s t s' t' : State} (h : Agree s t) (hs : s' = { s with fb := s'.fb }) (ht : t' = { t with fb := t'.fb })
    (hb : ∀ r p, s.cfg.dummyBits ≤ p → p < 8 * s.cfg.bpr → t'.rawBit r p = s'.rawBit r p) : Agree s' t' := by
  have hc : s'.cfg = s.cfg := by rw [hs]
  refine ⟨by rw [hc, ht]; exact h.cfg, ?_, by rw [hc]; exact hb⟩
  rw [hs, ht]
  exact ⟨h.text.curCol, h.text.curRow, h.text.uExp, h.text.uAcc, h.text.ug⟩

theorem State.fbWrite_frame (s : State) (a : Nat) (v : Byte) : s.fbWrite a v = { s with fb := (s.fbWrite a v).fb } := by
  unfold State.fbWrite; split <;> rfl

/-- A micro-step keeps agreement, whatever each side's held byte has for dummy bits. -/
theorem Agree.effect {s t : State} {m : Micro} {ms : List Micro} {v w : Byte} (h : Agree s t) (hs : Memory.wf s.fb)
    (ht : Memory.wf t.fb) (lv : LatchOk v (m :: ms) s) (lw : LatchOk w (m :: ms) t) :
    Agree (m.effect v s) (m.effect w t) := by
  have hc := h.cfg
  have htx := h.text
  cases m
  case writeBit addr mask on =>
    obtain ⟨x, y, hp, hv⟩ := lv addr mask on ms rfl
    obtain ⟨x', y', hp', hv'⟩ := lw addr mask on ms rfl
    refine h.of_fb (State.fbWrite_frame ..) (State.fbWrite_frame ..) fun r p h1 h2 => ?_
    have ha : t.cfg.byteAddr y' (t.cfg.pixelPos x' / 8) = t.cfg.byteAddr y (t.cfg.pixelPos x / 8) := by
      have e1 := hp'.2.1; have e2 := hp.2.1
      rw [← hc] at e2
      exact e1.symm.trans e2
    have hin : t.cfg.inDisplay x y := by rw [hc]; exact hp.1
    obtain ⟨ey, ek⟩ := t.cfg.byteAddr_inj (t.cfg.pixelPos_div_lt hp'.1.1) (t.cfg.pixelPos_div_lt hin.1) ha
    have em : bitMask (t.cfg.pixelPos x') = bitMask (t.cfg.pixelPos x) := by
      have e1 := hp'.2.2; have e2 := hp.2.2
      rw [← hc] at e2
      exact e1.symm.trans e2
    have eb : t.cfg.pixelPos x' = t.cfg.pixelPos x := by
      have h3 := congrArg (fun b => b.getLsbD (7 - t.cfg.pixelPos x' % 8)) em
      simp only [bitMask_getLsbD] at h3
      have h4 := of_decide_eq_true (h3.symm.trans (by simp))
      omega
    rw [writeBit_rawBit hs hp hv r p h1 h2, writeBit_rawBit ht hp' hv' r p (by rwa [hc]) (by rwa [hc]), ey, eb, hc,
      h.bits r p h1 h2]
  case writeByte addr b =>
    refine h.of_fb (State.fbWrite_frame ..) (State.fbWrite_frame ..) fun r p h1 h2 => ?_
    show (t.fbWrite addr b).rawBit r p = (s.fbWrite addr b).rawBit r p
    by_cases ha : addr < s.cfg.fbSize
    · rw [State.rawBit_eq, State.rawBit_eq, State.fbWrite_cfg, State.fbWrite_cfg, hc, State.fbRead_fbWrite hs b ha,
        State.fbRead_fbWrite ht b (by rwa [hc])]
      split
      · rfl
      · have := h.bits r p h1 h2
        rwa [State.rawBit_eq, State.rawBit_eq, hc] at this
    · rw [State.fbWrite_outside b ha, State.fbWrite_outside b (by rwa [hc]), h.bits r p h1 h2]
  case startRefresh p =>
    by_cases hp : p = 0#24
    · subst hp; simpa only [Micro.effect, State.startRefresh_zero] using h
    · simp only [Micro.effect, State.startRefresh_eq _ hp]
      exact ⟨hc, ⟨htx.1, htx.2, htx.3, htx.4, htx.5⟩, h.bits⟩
  case stopRefresh =>
    simp only [Micro.effect, State.stopRefresh_eq]
    exact ⟨hc, ⟨htx.1, htx.2, htx.3, htx.4, htx.5⟩, h.bits⟩
  case newLine =>
    refine ⟨hc, ⟨rfl, ?_, htx.3, htx.4, htx.5⟩, h.bits⟩
    show (if _ then _ else _ : BitVec 10) = if _ then _ else _
    rw [hc, htx.curRow]
  case advance =>
    refine ⟨hc, ⟨?_, htx.2, htx.3, htx.4, htx.5⟩, h.bits⟩
    show (if _ then _ else _ : BitVec 10) = if _ then _ else _
    rw [hc, htx.curCol]
  case placeCursor col row =>
    refine ⟨hc, ⟨?_, ?_, htx.3, htx.4, htx.5⟩, h.bits⟩
    · show clampCell _ _ = clampCell _ _; rw [hc]
    · show clampCell _ _ = clampCell _ _; rw [hc]
  case setUserGlyph i cols =>
    refine ⟨hc, ⟨htx.1, htx.2, htx.3, htx.4, ?_⟩, h.bits⟩
    show t.ug.set _ _ = s.ug.set _ _; rw [htx.ug]
  case decoderIdle => exact ⟨hc, ⟨htx.1, htx.2, rfl, rfl, htx.5⟩, h.bits⟩
  case decoderPend acc => exact ⟨hc, ⟨htx.1, htx.2, rfl, rfl, htx.5⟩, h.bits⟩
  all_goals exact ⟨hc, ⟨htx.1, htx.2, htx.3, htx.4, htx.5⟩, h.bits⟩

/-- "The rest of the command leaves what it leaves with no tick, but for dummy bits": kept by every micro-step and every
tick. `goal` is the state the undisturbed command ends in. -/
def Tracks (goal : State) (v : Byte) (ms : List Micro) (s : State) : Prop :=
  Memory.wf s.fb ∧ Paired s.cfg ms ∧ LatchOk v ms s ∧
    ∃ w u, Memory.wf u.fb ∧ LatchOk w ms u ∧ Agree u s ∧ runMicros ms w u = goal

theorem kept_tracks (goal : State) : Kept (Tracks goal) where
  control := by
    rintro v ms s a b p d ⟨h1, h2, h3, w, u, h4, h5, h6, h7⟩
    exact ⟨h1, h2, h3, w, u, h4, h5, ⟨h6.cfg, ⟨h6.text.1, h6.text.2, h6.text.3, h6.text.4, h6.text.5⟩, h6.bits⟩, h7⟩
  micro := by
    rintro v m ms s ⟨h1, h2, h3, w, u, h4, h5, h6, h7⟩
    exact ⟨Micro.effect_wf m v h1, by rw [Micro.effect_cfg]; exact h2.2, .next rfl h2, m.latch w u, m.effect w u,
      Micro.effect_wf m w h4, .next (c := s.cfg) h6.cfg.symm h2, h6.effect h4 h1 h5 h3, h7⟩
  tick := by
    rintro v ms s ⟨h1, h2, h3, w, u, h4, h5, h6, h7⟩
    exact ⟨State.tick_wf h1, by rw [State.tick_cfg]; exact h2,
      h3.congr s.tick_cfg fun r p hp hp' => State.tick_rawBit h1 r p hp hp', w, u, h4, h5, h6.tick h1, h7⟩

theorem Tracks.start {s u : State} (i : Instr) (h : Memory.wf s.fb) (hu : Memory.wf u.fb) (ha : Agree u s)
    (he : microsOf i u = microsOf i s) :
    Tracks (runMicros (microsOf i u) 0#8 u) 0#8 (microsOf i s) s :=
  ⟨h, (paired_microsOf i s).1, .of_fresh (paired_microsOf i s).2, 0#8, u, hu, .of_fresh (he ▸ (paired_microsOf i s).2), ha,
    by rw [he]⟩

theorem Tracks.done {goal s : State} {v : Byte} (h : Tracks goal v [] s) : Agree goal s := by
  obtain ⟨-, -, -, w, u, -, -, h1, h2⟩ := h
  rw [← h2]; exact h1

/-- What a command starts with depends on the configuration and on the state only CMD owns. -/
theorem microsOf_congr {s t : State} (i : Instr) (hc : t.cfg = s.cfg) (ht : SameText s t) :
    microsOf i t = microsOf i s := by
  have h1 : ∀ g, columnsFor t g = columnsFor s g := by
    intro g; unfold columnsFor; rw [hc]; simp only [ht.ug]
  have h2 : ∀ cols, drawAtCursor t cols = drawAtCursor s cols := by
    intro cols; unfold drawAtCursor; rw [hc, ht.curCol, ht.curRow]
  have h3 : ∀ cp, completeCodepoint t cp = completeCodepoint s cp := by
    intro cp; unfold completeCodepoint; rw [h1, h2]
  cases i <;> simp only [microsOf, hc, h1, h2]
  case write b => simp only [writeByteSteps, decodeIdleByte, decodeContinuationByte, h3, ht.uExp, ht.uAcc]

end Sys2Proof.Machine
end

