-- ==== Sys2Proof/Laws/PerInstr.lean ====
section
/-! SUPPORT. Statements about every command as syntax, one lemma a constructor. Family TableRow: the encoder's words are
words of the command's own row of spec/opcode_table.json, in match, mask and length. -/

namespace Sys2Proof.Laws.TableRow

/-- The match and the mask of a command's row of spec/opcode_table.json (spec/30_encoding.md R85). -/
def matchMask (i : Instr) : Word × Word :=
  match i with
  | .nop => (0x00000000, 0xFF000000)
  | .clear => (0x01000000, 0xFF000000)
  | .setpix _ _ _ => (0x02000000, 0xFF000000)
  | .getpix _ _ => (0x03000000, 0xFF000000)
  | .setcur _ _ => (0x04000000, 0xFF000000)
  | .write _ => (0x05000000, 0xFF000000)
  | .wglyph _ => (0x06000000, 0xFF000000)
  | .setug _ _ => (0x07000000, 0xFF000000)
  | .rdglyph _ => (0x08000000, 0xFF000000)
  | .start _ => (0x09000000, 0xFF000000)
  | .stop => (0x0A000000, 0xFF000000)
  | .rdfb _ => (0x0B000000, 0xFF000000)
  | .wrfb _ _ => (0x0C000000, 0xFF000000)
  | .rdstat => (0x0D000000, 0xFF000000)
  | .reserved0E _ => (0x0E000000, 0xFE000000)
  | .reserved10 _ => (0x10000000, 0xF0000000)
  | .reserved20 _ => (0x20000000, 0xE0000000)
  | .reserved40 _ => (0x40000000, 0xC0000000)
  | .reserved80 _ => (0x80000000, 0x80000000)

/-- A well-formed command's lead word is its row's, and its words are as many as the row says
(spec/30_encoding.md R84 and R85). -/
def Statement (i : Instr) : Prop :=
  WellFormed i = true →
    (encode i).length = i.words ∧ ∃ w0 ws, encode i = w0 :: ws ∧ w0 &&& (matchMask i).2 = (matchMask i).1

/-- An opcode over any operand area, under a mask that looks at the opcode alone. -/
theorem lead_masked (opc m : Byte) (opr : BitVec 24) :
    (opc ++ opr : Word) &&& (m ++ 0#24 : Word) = ((opc &&& m) ++ 0#24 : Word) := by
  apply BitVec.eq_of_getLsbD_eq
  intro j hj
  rw [BitVec.getLsbD_and, BitVec.getLsbD_append, BitVec.getLsbD_append, BitVec.getLsbD_append]
  split <;> simp

theorem nop : Statement (.nop) := fun _ => ⟨rfl, _, _, rfl, lead_masked 0x00 0xFF _⟩

theorem clear : Statement (.clear) := fun _ => ⟨rfl, _, _, rfl, lead_masked 0x01 0xFF _⟩

theorem setpix (x : BitVec 10) (y : BitVec 10) (on : Bool) : Statement (.setpix x y on) := fun _ => ⟨rfl, _, _, rfl, lead_masked 0x02 0xFF _⟩

theorem getpix (x : BitVec 10) (y : BitVec 10) : Statement (.getpix x y) := fun _ => ⟨rfl, _, _, rfl, lead_masked 0x03 0xFF _⟩

theorem setcur (col : BitVec 10) (row : BitVec 10) : Statement (.setcur col row) := fun _ => ⟨rfl, _, _, rfl, lead_masked 0x04 0xFF _⟩

theorem write (b : Byte) : Statement (.write b) := fun _ => ⟨rfl, _, _, rfl, lead_masked 0x05 0xFF _⟩

theorem wglyph (g : Byte) : Statement (.wglyph g) := fun _ => ⟨rfl, _, _, rfl, lead_masked 0x06 0xFF _⟩

theorem setug (i : Byte) (bm : Vector Byte 8) : Statement (.setug i bm) := fun _ => ⟨rfl, _, _, rfl, lead_masked 0x07 0xFF _⟩

theorem rdglyph (g : Byte) : Statement (.rdglyph g) := fun _ => ⟨rfl, _, _, rfl, lead_masked 0x08 0xFF _⟩

theorem start (period : BitVec 24) : Statement (.start period) := fun _ => ⟨rfl, _, _, rfl, lead_masked 0x09 0xFF _⟩

theorem stop : Statement (.stop) := fun _ => ⟨rfl, _, _, rfl, lead_masked 0x0A 0xFF _⟩

theorem rdfb (addr : BitVec 24) : Statement (.rdfb addr) := fun _ => ⟨rfl, _, _, rfl, lead_masked 0x0B 0xFF _⟩

theorem wrfb (addr : BitVec 24) (v : Byte) : Statement (.wrfb addr v) := fun _ => ⟨rfl, _, _, rfl, lead_masked 0x0C 0xFF _⟩

theorem rdstat : Statement (.rdstat) := fun _ => ⟨rfl, _, _, rfl, lead_masked 0x0D 0xFF _⟩

theorem reserved0E (opc : Byte) : Statement (.reserved0E opc) := fun h =>
  ⟨rfl, _, _, rfl, (lead_masked opc 0xFE#8 0).trans (by rw [(by simpa [WellFormed] using h : opc &&& 0xFE#8 = 0x0E#8)]; rfl)⟩

theorem reserved10 (opc : Byte) : Statement (.reserved10 opc) := fun h =>
  ⟨rfl, _, _, rfl, (lead_masked opc 0xF0#8 0).trans (by rw [(by simpa [WellFormed] using h : opc &&& 0xF0#8 = 0x10#8)]; rfl)⟩

theorem reserved20 (opc : Byte) : Statement (.reserved20 opc) := fun h =>
  ⟨rfl, _, _, rfl, (lead_masked opc 0xE0#8 0).trans (by rw [(by simpa [WellFormed] using h : opc &&& 0xE0#8 = 0x20#8)]; rfl)⟩

theorem reserved40 (opc : Byte) : Statement (.reserved40 opc) := fun h =>
  ⟨rfl, _, _, rfl, (lead_masked opc 0xC0#8 0).trans (by rw [(by simpa [WellFormed] using h : opc &&& 0xC0#8 = 0x40#8)]; rfl)⟩

theorem reserved80 (opc : Byte) : Statement (.reserved80 opc) := fun h =>
  ⟨rfl, _, _, rfl, (lead_masked opc 0x80#8 0).trans (by rw [(by simpa [WellFormed] using h : opc &&& 0x80#8 = 0x80#8)]; rfl)⟩

end Sys2Proof.Laws.TableRow
end

