-- ==== Sys2Proof/Laws/Respond.lean ====
section
/-! SUPPORT. Which micro-steps append to RESP: in every command at most the last (spec/10_state.md R39). -/

namespace Sys2Proof.Machine

/-- The micro-step appends nothing to RESP. -/
def Micro.isSilent (m : Micro) : Bool :=
  match m with
  | .respond _ => false
  | .respondBit _ => false
  | .respondByte => false
  | .readStatus => false
  | _ => true

theorem Micro.effect_resp_silent {m : Micro} (h : m.isSilent = true) (v : Byte) (s : State) :
    (m.effect v s).resp = s.resp := by
  cases m <;> try first | rfl | exact Bool.noConfusion h
  case writeBit => simp [Micro.effect]
  case writeByte => simp [Micro.effect]
  case startRefresh p =>
    by_cases hp : p = 0#24
    · subst hp; simp only [Micro.effect, State.startRefresh_zero]
    · simp only [Micro.effect, State.startRefresh_eq _ hp]
  case stopRefresh => simp only [Micro.effect, State.stopRefresh_eq]

theorem runMicros_resp_silent {ms : List Micro} (h : ∀ m ∈ ms, m.isSilent = true) (v : Byte) (s : State) :
    (runMicros ms v s).resp = s.resp :=
  runMicros_keeps (P := fun t => t.resp = s.resp)
    (fun m hm v _ ht => (Micro.effect_resp_silent (h m hm) v _).trans ht) v rfl

/-- WRITE's micro-steps before its response append nothing to RESP. -/
theorem writeByteSteps_silent (s : State) (b : Byte) : ∀ m ∈ writeByteSteps s b, m.isSilent = true := by
  intro m hm
  have h : mayUse (.write b) m = true := microsOf_mayUse (.write b) s m (List.mem_append_left _ hm)
  have hn : ∀ bs, m ≠ .respond bs := by
    rintro bs rfl
    unfold writeByteSteps decodeIdleByte decodeContinuationByte completeCodepoint drawAtCursor drawGlyph pixWrite at hm
    simp [apply_ite (fun l : List Micro => Micro.respond bs ∈ l)] at hm
  cases m <;> first | rfl | exact absurd rfl (hn _) | exact Bool.noConfusion h

/-- A command without a response has silent micro-steps only; in every other one the last appends the whole response
and the ones before it are silent (spec/10_state.md R39, spec/42_text.md R172). -/
theorem microsOf_responds (i : Instr) (s : State) :
    (responseLength i = 0 ∧ ∀ m ∈ microsOf i s, m.isSilent = true) ∨
    ∃ pre last, microsOf i s = pre ++ [last] ∧ (∀ m ∈ pre, m.isSilent = true) ∧
      ∀ v t, ∃ bs, (last.effect v t).resp = t.resp ++ bs ∧ bs.length = responseLength i ∧
        ∀ b, i = .write b → bs = [0x01] := by
  have hm := microsOf_mayUse i s
  cases i
  case write b =>
    exact .inr ⟨writeByteSteps s b, _, rfl, writeByteSteps_silent s b, fun v t => ⟨[1], rfl, rfl, fun _ _ => rfl⟩⟩
  case getpix x y =>
    by_cases h : s.cfg.inDisplay x.toNat y.toNat
    · exact .inr ⟨[_], _, if_pos h, by simp [Micro.isSilent], fun v t => ⟨[_], rfl, rfl, by simp⟩⟩
    · exact .inr ⟨[], _, if_neg h, by simp, fun v t => ⟨[_], rfl, rfl, by simp⟩⟩
  case rdfb a =>
    by_cases h : a.toNat < s.cfg.fbSize
    · exact .inr ⟨[_], _, if_pos h, by simp [Micro.isSilent], fun v t => ⟨[_], rfl, rfl, by simp⟩⟩
    · exact .inr ⟨[], _, if_neg h, by simp, fun v t => ⟨[_], rfl, rfl, by simp⟩⟩
  case rdglyph g => exact .inr ⟨[], _, rfl, by simp, fun v t => ⟨_, rfl, by simp [responseLength], by simp⟩⟩
  case rdstat => exact .inr ⟨[], _, rfl, by simp, fun v t => ⟨_, rfl, rfl, by simp⟩⟩
  all_goals refine .inl ⟨rfl, fun m hmm => ?_⟩
  all_goals have := hm m hmm
  all_goals cases m <;> first | rfl | exact Bool.noConfusion this

end Sys2Proof.Machine
end

