-- ==== Sys2Proof/Tests/Slice0.lean ====
section
/-! SUPPORT. Tests. Expected values are the vectors of spec/95_test_vectors.md (the reference configuration RC) and words
written out from spec/30_encoding.md R91; each theorem names the rule or section its values come from. The last section
holds, for every obligation that has hypotheses, a concrete state and operands that meet all of them together. -/

namespace Sys2Proof.Tests

open Sys2Proof Sys2Proof.Machine

/-! ## Well-formedness: the check refuses an opcode outside its row -/

theorem test_wf_reserved0E : WellFormed (.reserved0E 0x0D) = false ∧ WellFormed (.reserved0E 0x0F) = true := by decide
theorem test_wf_reserved10 : WellFormed (.reserved10 0x20) = false ∧ WellFormed (.reserved10 0x1F) = true := by decide
theorem test_wf_reserved20 : WellFormed (.reserved20 0x40) = false ∧ WellFormed (.reserved20 0x3F) = true := by decide
theorem test_wf_reserved40 : WellFormed (.reserved40 0x80) = false ∧ WellFormed (.reserved40 0x7F) = true := by decide
theorem test_wf_reserved80 : WellFormed (.reserved80 0x7F) = false ∧ WellFormed (.reserved80 0xFF) = true := by decide

/-! ## Decoding: every constructor, by words of spec/30_encoding.md R91 and spec/95_test_vectors.md section 3 -/

theorem test_decode_nop : decode [0x00000000] = .ok (.nop, []) ∧ decode [0x00FFFFFF] = .ok (.nop, []) := by decide
theorem test_decode_clear : decode [0x01000000] = .ok (.clear, []) := by decide
theorem test_decode_setpix :
    decode [0x02100C05] = .ok (.setpix 5 3 true, []) ∧ decode [0x02103C0D] = .ok (.setpix 13 15 true, []) ∧
    decode [0x021FFFFF] = .ok (.setpix 1023 1023 true, []) ∧ decode [0x02F00000] = .ok (.setpix 0 0 true, []) := by decide
theorem test_decode_getpix :
    decode [0x03000C05] = .ok (.getpix 5 3, []) ∧ decode [0x03100000] = .ok (.getpix 0 0, []) := by decide
theorem test_decode_setcur :
    decode [0x04000405] = .ok (.setcur 5 1, []) ∧ decode [0x04001C00] = .ok (.setcur 0 7, []) ∧
    decode [0x04F00000] = .ok (.setcur 0 0, []) := by decide
theorem test_decode_write : decode [0x05000041] = .ok (.write 0x41, []) := by decide
theorem test_decode_wglyph : decode [0x060000FF] = .ok (.wglyph 0xFF, []) := by decide
theorem test_decode_setug :
    decode [0x07000000, 0x08040201, 0x111F0010] =
      .ok (.setug 0 #v[0x01, 0x02, 0x04, 0x08, 0x10, 0x00, 0x1F, 0x11], []) ∧
    decode [0x0700FF03, 0x00080000, 0x00000000, 0x0D000000] =
      .ok (.setug 3 #v[0, 0, 0x08, 0, 0, 0, 0, 0], [0x0D000000]) := by decide
theorem test_decode_rdglyph : decode [0x08000080] = .ok (.rdglyph 0x80, []) := by decide
theorem test_decode_start :
    decode [0x090003E8] = .ok (.start 1000, []) ∧ decode [0x09FFFFFF] = .ok (.start 16777215, []) := by decide
theorem test_decode_stop : decode [0x0A000000] = .ok (.stop, []) := by decide
theorem test_decode_rdfb :
    decode [0x0B000013] = .ok (.rdfb 19, []) ∧ decode [0x0BFFFFFF] = .ok (.rdfb 0xFFFFFF, []) := by decide
theorem test_decode_wrfb :
    decode [0x0C000030, 0x00000055] = .ok (.wrfb 48 0x55, []) ∧
    decode [0x0C000007, 0x1234ABCD] = .ok (.wrfb 7 0xCD, []) := by decide
theorem test_decode_rdstat : decode [0x0D000000] = .ok (.rdstat, []) := by decide
theorem test_decode_reserved0E : decode [0x0E000000] = .ok (.reserved0E 0x0E, []) := by decide
theorem test_decode_reserved10 : decode [0x10000000] = .ok (.reserved10 0x10, []) := by decide
theorem test_decode_reserved20 : decode [0x3F000001] = .ok (.reserved20 0x3F, []) := by decide
theorem test_decode_reserved40 : decode [0x7F000000] = .ok (.reserved40 0x7F, []) := by decide
theorem test_decode_reserved80 : decode [0xFF123456] = .ok (.reserved80 0xFF, []) := by decide

/-- A stream that ends inside a command is not read (spec/30_encoding.md R90). -/
theorem test_decode_cut_off :
    decode [] = .error .noLeadWord ∧ decode [0x07000000, 0x08040201] = .error .missingExtension ∧
    decode [0x0C000000] = .error .missingExtension := by decide

/-- The assembler's words (spec/30_encoding.md R91). -/
theorem test_encode :
    encode (.setpix 5 3 true) = [0x02100C05] ∧ encode (.setcur 5 1) = [0x04000405] ∧
    encode (.wrfb 48 0x55) = [0x0C000030, 0x00000055] ∧
    encode (.setug 0 #v[0x01, 0x02, 0x04, 0x08, 0x10, 0x00, 0x1F, 0x11]) = [0x07000000, 0x08040201, 0x111F0010] := by
  decide

/-- The table's numbering: the extension words count on from bit 32. -/
theorem test_table_word :
    decodeTableWord 32 0x02100C05 = some (.setpix 5 3 true) ∧
    decodeTableWord 64 0x000000550C000030 = some (.wrfb 48 0x55) ∧
    decodeTableWord 32 0x07000005 = some (.setug 5 (Vector.replicate 8 0)) := by decide

/-! ## One step of each command, in RC -/

/-- The byte number n of a font that tells its glyphs apart. -/
def fontByte (n : Nat) : Byte := BitVec.ofNat 8 (n * 7 + 1)

/-- RC with contents for what RC leaves symbolic, so that a test can name them. -/
def rcConfig : Config :=
  { Config.reference with
    font := Vector.ofFn fun n => fontByte n.val
    extFont := Vector.ofFn fun e => Vector.ofFn fun c => BitVec.ofNat 8 (16 * e.val + 2 * c.val)
    pulseUs := 3, busClockHz := 1000000, busMode := 2, pulseUs_pos := by decide }

/-- The state after reset in RC with the framebuffer all 0x00. -/
def rc : State := State.resetWith rcConfig [] (Vector.replicate 8 (Vector.replicate 5 0))

/-- `rc` with the framebuffer's listed cells. -/
def rcFb (m : Memory) : State := { rc with fb := m }

/-- `rc` Running at a row. -/
def rcRunning (row : BitVec 10) (m : Memory) : State :=
  { rc with fb := m, running := true, timerEn := true, sessionOpen := true, refreshRow := row, timerPeriod := 1000 }

/-- The outcome is a next state of which p holds. -/
def nextIs (o : Host.Outcome State Fault Refusal) (p : State → Bool) : Bool :=
  match o with
  | .next t => p t
  | .fault _ => false
  | .refused _ => false

/-- spec/44_system.md R230. -/
theorem test_nop : nextIs (exec .nop rc) (fun t => t.csp == 1 && t.fb == [] && t.resp == []) = true := by decide

/-- spec/44_system.md R231: 0xFF123456 changes nothing but CSP. -/
theorem test_reserved80 : nextIs (exec (.reserved80 0xFF) rc) (fun t => t.csp == 1 && t.resp == [] && t.trace == []) = true := by
  decide
theorem test_reserved0E : nextIs (exec (.reserved0E 0x0E) rc) (fun t => t.csp == 1 && t.trace == []) = true := by decide
theorem test_reserved10 : nextIs (exec (.reserved10 0x10) rc) (fun t => t.csp == 1 && t.trace == []) = true := by decide
theorem test_reserved20 : nextIs (exec (.reserved20 0x20) rc) (fun t => t.csp == 1 && t.trace == []) = true := by decide
theorem test_reserved40 : nextIs (exec (.reserved40 0x7F) rc) (fun t => t.csp == 1 && t.trace == []) = true := by decide

set_option maxRecDepth 4000 in
/-- spec/40_pixel.md R112: all 48 bytes are 0x00, pad and dummy bits included. -/
theorem test_clear :
    nextIs (exec .clear (rcFb [(0, 0xFF), (2, 0x3F), (47, 0x01)])) (fun t => t.fb == [] && t.csp == 1) = true := by
  decide

/-- spec/40_pixel.md R113: SETPIX 0, 0, 1 writes FB[0][2] = 0x40 and SETPIX 13, 15, 1 address 45 = 0x08. -/
theorem test_setpix :
    nextIs (exec (.setpix 0 0 true) rc) (fun t => t.fb == [(2, 0x40)]) = true ∧
    nextIs (exec (.setpix 13 15 true) rc) (fun t => t.fb == [(45, 0x08)]) = true := by decide

/-- spec/95_test_vectors.md 3.1: clearing keeps the other bits, and an out-of-range pixel changes nothing. -/
theorem test_setpix_clear :
    nextIs (exec (.setpix 0 0 false) (rcFb [(2, 0xFF)])) (fun t => t.fb == [(2, 0xBF)]) = true ∧
    nextIs (exec (.setpix 14 0 true) rc) (fun t => t.fb == []) = true ∧
    nextIs (exec (.setpix 0 16 true) rc) (fun t => t.fb == []) = true := by decide

/-- spec/40_pixel.md R114: GETPIX 0, 0 responds 0x01, GETPIX 1, 0 and GETPIX 14, 0 respond 0x00. -/
theorem test_getpix :
    nextIs (exec (.getpix 0 0) (rcFb [(2, 0x40)])) (fun t => t.resp == [0x01]) = true ∧
    nextIs (exec (.getpix 1 0) (rcFb [(2, 0x40)])) (fun t => t.resp == [0x00]) = true ∧
    nextIs (exec (.getpix 14 0) (rcFb [(2, 0x40)])) (fun t => t.resp == [0x00]) = true := by decide

/-- spec/95_test_vectors.md 3.3: the cursor clamps. -/
theorem test_setcur :
    nextIs (exec (.setcur 5 1) rc) (fun t => t.curCol == 1 && t.curRow == 1) = true ∧
    nextIs (exec (.setcur 0 7) rc) (fun t => t.curCol == 0 && t.curRow == 1) = true ∧
    nextIs (exec (.setcur 1023 1023) rc) (fun t => t.curCol == 1 && t.curRow == 1) = true := by decide

/-- spec/95_test_vectors.md 3.3: 0xC3 leaves (1, 0x03), and LF or CR inside a sequence leaves the decoder alone. -/
theorem test_write_pends :
    nextIs (exec (.write 0xC3) rc) (fun t => t.uExp == 1 && t.uAcc == 3 && t.resp == [0x01] && t.fb == []) = true ∧
    nextIs (exec (.write 0x0A) { rc with uExp := 1, uAcc := 3, curCol := 1 })
      (fun t => t.uExp == 1 && t.uAcc == 3 && t.curRow == 1 && t.curCol == 0) = true ∧
    nextIs (exec (.write 0x0D) { rc with uExp := 1, uAcc := 3, curCol := 1 })
      (fun t => t.uExp == 1 && t.uAcc == 3 && t.curRow == 0 && t.curCol == 1 && t.resp == [0x01]) = true := by decide

/-- The pixel of a drawn glyph: bit r of column j of the cell at (col, row). -/
def cellShows (t : State) (col row : Nat) (cols : GlyphCols) : Bool :=
  (List.range 6).all fun j => (List.range 7).all fun r =>
    t.pixel (6 * col + j) (8 * row + r) == (cols.toList.getD j 0).getLsbD r

/-- spec/95_test_vectors.md 3.3: (1, 0x03) then 0x84 draws E(0) with columns 1 and 3 OR-ed with 0x01; 0x41 there draws
the `?` of FONT[155..159] instead. -/
theorem test_write_draws :
    nextIs (exec (.write 0x84) { rc with uExp := 1, uAcc := 3 })
      (fun t => cellShows t 0 0 #v[0x00, 0x03, 0x04, 0x07, 0x08] && t.uExp == 0 && t.uAcc == 0 && t.curCol == 1) = true ∧
    nextIs (exec (.write 0x41) { rc with uExp := 1, uAcc := 3, curCol := 1 })
      (fun t => cellShows t 1 0 #v[fontByte 155, fontByte 156, fontByte 157, fontByte 158, fontByte 159] &&
        t.curCol == 1) = true := by
  decide +kernel

/-- spec/95_test_vectors.md 3.3: WGLYPH 0 with UG[0] = (D0, 48, 44, 42, C1). -/
theorem test_wglyph :
    nextIs (exec (.wglyph 0) { rc with ug := rc.ug.set 0 #v[0xD0, 0x48, 0x44, 0x42, 0xC1] })
      (fun t => t.curCol == 1 && t.resp == [] && t.fb == [(1, 0x04), (4, 0x02), (7, 0x01), (11, 0x80), (14, 0x40),
        (19, 0x07), (20, 0xC0)]) = true := by
  decide +kernel

/-- spec/42_text.md R181: the spacing column is cleared in rows 0..6 and row 7 keeps its bits (D40). -/
theorem test_wglyph_spacing :
    nextIs (exec (.wglyph 0) (rcFb [(1, 0x08), (19, 0x08), (22, 0xFF)])) (fun t => t.fb == [(22, 0xFF)]) = true := by
  decide +kernel

/-- spec/41_glyph.md R140 and spec/95_test_vectors.md 3.2. -/
theorem test_setug :
    nextIs (exec (.setug 0 #v[0x01, 0x02, 0x04, 0x08, 0x10, 0x00, 0x1F, 0x11]) rc)
      (fun t => t.ug[0] == #v[0xD0, 0x48, 0x44, 0x42, 0xC1] && t.csp == 3) = true ∧
    nextIs (exec (.setug 7 #v[0, 0, 0, 0, 0, 0, 0, 0x01]) rc) (fun t => t.ug[7] == #v[0, 0, 0, 0, 0x80]) = true := by
  decide

/-- spec/95_test_vectors.md 3.2: bits 7..5 are ignored, and index 8 changes nothing. -/
theorem test_setug_ignored :
    nextIs (exec (.setug 5 (Vector.replicate 8 0xE0)) rc) (fun t => t.ug == rc.ug) = true ∧
    nextIs (exec (.setug 8 (Vector.replicate 8 0xFF)) rc) (fun t => t.ug == rc.ug && t.csp == 3) = true := by decide

/-- spec/95_test_vectors.md 3.2: RDGLYPH 0x7E responds FONT[470..474], 0x80 E(0), 0x86 EXT_FONT[6], 0x87 `?`. -/
theorem test_rdglyph :
    nextIs (exec (.rdglyph 0x7E) rc)
      (fun t => t.resp == [fontByte 470, fontByte 471, fontByte 472, fontByte 473, fontByte 474]) = true ∧
    nextIs (exec (.rdglyph 0x80) rc) (fun t => t.resp == [0x00, 0x03, 0x04, 0x07, 0x08]) = true := by decide +kernel
theorem test_rdglyph_classes :
    nextIs (exec (.rdglyph 0x86) rc) (fun t => t.resp == [0x60, 0x62, 0x64, 0x66, 0x68]) = true ∧
    nextIs (exec (.rdglyph 0x87) rc)
      (fun t => t.resp == [fontByte 155, fontByte 156, fontByte 157, fontByte 158, fontByte 159]) = true := by
  decide +kernel

/-- spec/95_test_vectors.md 3.4: START 1000 from reset, and START 500 while Running. -/
theorem test_start :
    nextIs (exec (.start 1000) rc)
      (fun t => t.trace == [.tcfg 1000, .sbegin 1000000 2, .ten] && t.running && t.timerEn && t.sessionOpen &&
        t.timerPeriod == 1000) = true ∧
    nextIs (exec (.start 500) (rcRunning 5 []))
      (fun t => t.trace == [.tcfg 500, .ten] && t.refreshRow == 0 && t.timerPeriod == 500) = true := by decide

/-- spec/95_test_vectors.md 3.4: START 0 changes nothing; STOP while Running keeps REFRESH_ROW; STOP while Stopped. -/
theorem test_stop :
    nextIs (exec (.start 0) rc) (fun t => t.trace == [] && !t.running && t.csp == 1) = true ∧
    nextIs (exec .stop (rcRunning 7 []))
      (fun t => t.trace == [.tdis, .send] && !t.running && !t.timerEn && !t.sessionOpen && t.refreshRow == 7) = true ∧
    nextIs (exec .stop rc) (fun t => t.trace == [.tdis] && !t.running) = true := by decide

/-- spec/95_test_vectors.md 3.1: RDFB 48 responds 0x00, RDFB 0 the stored byte. -/
theorem test_rdfb :
    nextIs (exec (.rdfb 0) (rcFb [(0, 0xFF)])) (fun t => t.resp == [0xFF]) = true ∧
    nextIs (exec (.rdfb 48) rc) (fun t => t.resp == [0x00]) = true := by decide

/-- spec/95_test_vectors.md 3.1: WRFB 7 writes FB[2][1], WRFB 48 changes nothing and both take two words. -/
theorem test_wrfb :
    nextIs (exec (.wrfb 7 0xCD) rc) (fun t => t.fb == [(7, 0xCD)] && t.csp == 2) = true ∧
    nextIs (exec (.wrfb 48 0x55) rc) (fun t => t.fb == [] && t.csp == 2) = true := by decide

/-- spec/44_system.md R232: after reset and START 1000; after WRITE 0xC3 (spec/95_test_vectors.md 3.5). -/
theorem test_rdstat :
    nextIs (exec .rdstat (rcRunning 0 [])) (fun t => t.resp == [0x0D, 0, 0, 0, 0, 0, 0, 0, 0xE8, 0x03, 0]) = true ∧
    nextIs (exec .rdstat { rc with uExp := 1, uAcc := 3 }) (fun t => t.resp == [0x02, 0x03, 0, 0, 0, 0, 0, 0, 0, 0, 0]) = true := by
  decide

/-! ## Ticks -/

/-- spec/43_refresh.md R216: FB[0] = (FF, 12, 40) at row 0. -/
theorem test_tick_row0 :
    nextIs (step { rcRunning 0 [(0, 0xFF), (1, 0x12), (2, 0x40)] with ticks := [1] })
      (fun t => t.trace == [.fs true, .byte 0x0F, .byte 0x12, .byte 0x40, .ll true, .wait 3, .ll false, .fs false] &&
        t.fb == [(0, 0x0F), (1, 0x12), (2, 0x40)] && t.refreshRow == 1 && t.ticks == [0]) = true := by decide

/-- spec/20_memory.md R54 on the row of spec/43_refresh.md R216: 0x0F, 0x12, 0x40 most-significant bit first. -/
theorem test_bus_bit_order :
    ({ rc with trace := [.fs true, .byte 0x0F, .byte 0x12, .byte 0x40, .ll true] } : State).busBits =
      [false, false, false, false, true, true, true, true, false, false, false, true, false, false, true, false,
       false, true, false, false, false, false, false, false] := by decide

/-- spec/95_test_vectors.md 3.4: FB[15] = (F8, 00, 3F) at row 15. -/
theorem test_tick_last_row :
    nextIs (step { rcRunning 15 [(45, 0xF8), (47, 0x3F)] with ticks := [1] })
      (fun t => t.trace == [.byte 0x08, .byte 0x00, .byte 0x3F, .ll true, .wait 3, .ll false] &&
        t.fb == [(45, 0x08), (47, 0x3F)] && t.refreshRow == 0) = true := by decide

/-- spec/95_test_vectors.md P4: a tick inside SETPIX 13, 0, 1 sends the old byte, and the write puts 0xF8. -/
theorem test_tick_inside_setpix :
    nextIs (exec (.setpix 13 0 true) { rcRunning 0 [(0, 0xF0)] with ticks := [0, 1] })
      (fun u => u.csp == 0 && nextIs (step u) fun v =>
        v.trace == [.fs true, .byte 0x00, .byte 0x00, .byte 0x00, .ll true, .wait 3, .ll false, .fs false] &&
        nextIs (step v) fun t => t.fb == [(0, 0xF8)] && t.csp == 1 && t.inflight == none) = true := by decide

/-- spec/30_encoding.md R90: a command cut off by the end of the stream waits. -/
theorem test_waits : nextIs (step { rc with port := [0x07000000, 0x08040201] }) (fun t => t.csp == 0 && t.port.length == 2) = true := by
  decide

/-! ## Every obligation's hypotheses are met by something -/

theorem own_of_none {s : State} (h : s.inflight = none) : ∀ c, s.inflight = some c → c.isOwn s.cfg := by simp [h]

theorem rc_inv : rc.Inv := by
  constructor <;> first | exact own_of_none rfl | decide

/-- `rc` Running at row 0 with listed cells, a cursor in the last cell and ticks to come. -/
def rcBusy (ticks : List Nat) : State :=
  { rcRunning 0 [(0, 0xF0), (47, 0x01)] with curCol := 1, curRow := 1, ticks := ticks }

theorem rcBusy_quiet_inv : (rcBusy []).Inv := by constructor <;> first | exact own_of_none rfl | decide

theorem rcBusy_inv (ticks : List Nat) : (rcBusy ticks).Inv :=
  let h := rcBusy_quiet_inv
  ⟨h.1, h.2, h.3, h.4, h.5, h.6, h.7, h.8, h.9, h.10, h.11, h.12, h.13⟩

theorem witness_DecodeOfEncodeIsTheCommand :
    WellFormed (.reserved0E 0x0E) = true ∧ WellFormed (.reserved80 0xFF) = true ∧
    WellFormed (.setug 255 (Vector.replicate 8 0xFF)) = true := by decide

theorem witness_EncodeOfDecodeClearsOnlyIgnoredBits :
    decode [0x0700FF03, 0xFFFFFFFF, 0xFFFFFFFF] = .ok (.setug 3 (Vector.replicate 8 0xFF), []) ∧
    decode [0x0C000007, 0x1234ABCD, 0] = .ok (.wrfb 7 0xCD, [0]) ∧
    decode [0x02F00000, 0, 0] = .ok (.setpix 0 0 true, [0, 0]) := by decide

theorem witness_ReservedLeadWordDoesNothing :
    0x0E ≤ ((0x0E000000 : Word).extractLsb' 24 8).toNat ∧ 0x0E ≤ ((0xFF123456 : Word).extractLsb' 24 8).toNat := by decide

theorem witness_NopAndReservedOnlyAdvance :
    Instr.reserved80 0xFF ∈ [.nop, .reserved0E 0xFF, .reserved10 0xFF, .reserved20 0xFF, .reserved40 0xFF, .reserved80 0xFF] := by
  decide

theorem witness_StepRunsTheDecodedCommand :
    let s : State := { rc with port := [0x0C000007, 0x1234ABCD, 0x0D000000] }
    s.tickDue = false ∧ s.inflight = none ∧ decode s.port = .ok (.wrfb 7 0xCD, [0x0D000000]) := by decide

theorem witness_FetchWordRunsNext : decodeTableWord 64 0x000000550C000030 = some (.wrfb 48 0x55) := by decide

theorem witness_TruncatedCommandWaits :
    rc.tickDue = false ∧ rc.inflight = none ∧ rc.port = [] ∧
    (∃ w0 ws, [0x07000000, 0x08040201] = (w0 :: ws : List Word) ∧ w0.extractLsb' 24 8 = 0x07 ∧ ws.length < 2) ∧
    (∃ w0, [0x0C000000] = ([w0] : List Word) ∧ w0.extractLsb' 24 8 = 0x0C) :=
  ⟨by decide, by decide, by decide, ⟨_, _, rfl, by decide, by decide⟩, ⟨_, rfl, by decide⟩⟩

theorem witness_TakingATickSavesNothing : (rcBusy [1]).tickDue = true := by decide

/-- SETPIX 13, 0, 1 at its StepPoint. -/
def inSetpix : InFlight := ⟨.setpix 13 0 true, [.writeBit 0 0x08 true], 0xF0⟩

/-- WRITE of LF before its response. -/
def inWriteLf : InFlight := ⟨.write 0x0A, [.respond [0x01]], 0x00⟩

/-- A command that a tick stopped, in a state that meets the invariant, with no further tick due. -/
theorem rcBusy_stopped_inv (c : InFlight) (ha : isAtomic c.command = false) (hn : c.todo ≠ [])
    (ho : c.isOwn rcConfig) : ({ rcBusy [0] with inflight := some c } : State).Inv := by
  have h := rcBusy_inv [0]
  refine ⟨h.1, h.2, h.3, h.4, h.5, h.6, h.7, h.8, h.9, h.10, ?_, ?_, ?_⟩ <;> rintro d ⟨⟩
  exacts [hn, ha, ho]

theorem inSetpix_inv : ({ rcBusy [0] with inflight := some inSetpix } : State).Inv :=
  rcBusy_stopped_inv _ (by decide) (by decide)
    ⟨rcBusy [0, 1], _, inSetpix, rfl, rfl, by decide, List.suffix_refl _⟩

theorem inWriteLf_inv : ({ rcBusy [0] with inflight := some inWriteLf } : State).Inv :=
  rcBusy_stopped_inv _ (by decide) (by decide)
    ⟨rcBusy [0, 1], _, inWriteLf, rfl, rfl, by decide, List.suffix_refl _⟩

theorem witness_CommandResumesWhereItWas :
    ({ rcBusy [0] with inflight := some inSetpix } : State).tickDue = false ∧
    ({ rcBusy [0] with inflight := some inSetpix } : State).inflight = some inSetpix := by decide

theorem witness_EveryCommandRunsToCompletion :
    let s : State := { rcBusy [1, 2, 3] with port := [0x0210000D, 0x0D000000] }
    s.inflight = none ∧ decode s.port = .ok (.setpix 13 0 true, [0x0D000000]) := by decide

theorem witness_StepKeepsTheInvariant : (rcBusy [1]).Inv ∧ ∃ t, step (rcBusy [1]) = .next t := ⟨rcBusy_inv _, _, rfl⟩

theorem witness_ResetMeetsTheInvariant :
    Memory.wf [(0, 0xFF), (47, 0x01)] ∧ ∀ c ∈ ([(0, 0xFF), (47, 0x01)] : Memory), c.1 < rcConfig.fbSize := by decide

theorem witness_ResetLeavesTheSpecsValues :
    rc = State.resetWith rcConfig [] (Vector.replicate 8 (Vector.replicate 5 0)) ∧
    decode [0x01000000] = .ok (.clear, []) := ⟨rfl, by decide⟩

theorem witness_NoStepChangesTheConfiguration : ∃ t, step (rcBusy [1]) = .next t := ⟨_, rfl⟩
theorem witness_OutputStreamsOnlyGrow : ∃ t, step (rcBusy [1]) = .next t := ⟨_, rfl⟩
theorem witness_CommandWordsAreConserved : ∃ t, step { rc with port := [0x00000000] } = .next t := ⟨_, rfl⟩

theorem witness_OnlyStartAndStopTouchTheRefreshState :
    ((∃ t, exec .rdstat (rcBusy []) = .next t) ∧ (∀ p, Instr.rdstat ≠ .start p) ∧ Instr.rdstat ≠ .stop) ∧
    (let s : State := { rcBusy [0] with inflight := some inSetpix }
     s.Inv ∧ s.tickDue = false ∧ ∃ t, step s = .next t) :=
  ⟨⟨⟨_, rfl⟩, by simp, by simp⟩, inSetpix_inv, by decide, _, rfl⟩

theorem witness_OnlyTheNamedCommandsWriteEachPart :
    (let s : State := { rcBusy [0] with inflight := some inSetpix }
     s.Inv ∧ s.tickDue = false ∧ ∃ t, step s = .next t) ∧
    (∃ t, exec (.rdfb 0) (rcBusy []) = .next t) ∧ Instr.rdfb 0 ≠ .clear ∧ (∀ x y on, Instr.rdfb 0 ≠ .setpix x y on) ∧
    (∀ a v, Instr.rdfb 0 ≠ .wrfb a v) ∧ (∀ b, Instr.rdfb 0 ≠ .write b) ∧ (∀ g, Instr.rdfb 0 ≠ .wglyph g) ∧
    (∀ n bm, Instr.rdfb 0 ≠ .setug n bm) ∧ (∀ c r, Instr.rdfb 0 ≠ .setcur c r) :=
  ⟨⟨inSetpix_inv, by decide, _, rfl⟩, ⟨_, rfl⟩, by simp, by simp, by simp, by simp, by simp, by simp, by simp⟩

/-- Every clause: a command and a WRITE that complete, a command and a WRITE that a tick stops at a StepPoint, and a
stopped WRITE that goes on to its end. -/
theorem witness_ResponsesComeFromFiveCommands :
    nextIs (exec (.rdfb 0) (rcBusy [])) (fun t => t.inflight == none) = true ∧
    nextIs (exec (.write 0x0A) (rcBusy [])) (fun t => t.inflight == none && t.resp == [0x01]) = true ∧
    nextIs (exec (.rdfb 0) (rcBusy [0, 1])) (fun t => t.inflight != none) = true ∧
    nextIs (exec (.write 0x0A) (rcBusy [0, 1])) (fun t => t.inflight == some inWriteLf && t.resp == []) = true ∧
    (let s : State := { rcBusy [0] with inflight := some inWriteLf }
     s.Inv ∧ s.tickDue = false ∧ nextIs (step s) (fun t => t.inflight == none && t.resp == [0x01]) = true) :=
  ⟨by decide, by decide, by decide, by decide, inWriteLf_inv, by decide, by decide⟩

theorem witness_OnlyClearAndWrfbChangeDummyAndPadBits :
    Memory.wf (rcBusy []).fb ∧ (∃ t, exec (.setpix 0 0 true) (rcBusy []) = .next t) ∧
    Instr.setpix 0 0 true ≠ .clear ∧ (∀ a v, Instr.setpix 0 0 true ≠ .wrfb a v) ∧
    (3 < 8 * rcConfig.bpr ∧ 3 < rcConfig.dummyBits) ∧
    (18 < 8 * rcConfig.bpr ∧ rcConfig.dummyBits + rcConfig.width ≤ 18) ∧ 23 < 8 * rcConfig.bpr :=
  ⟨by decide, ⟨_, rfl⟩, by simp, by simp, by decide, by decide, by decide⟩

theorem witness_PixelTransformIsABijection :
    13 < rcConfig.width ∧ (rcConfig.dummyBits ≤ 4 ∧ 17 < rcConfig.dummyBits + rcConfig.width) ∧
    rcConfig.inDisplay 13 15 ∧ rcConfig.inDisplay 0 0 := by decide

theorem witness_MirrorProperty :
    Memory.wf rc.fb ∧ rc.quiet 1 ∧ ((0 : BitVec 10).toNat < rc.cfg.width ∧ (13 : BitVec 10).toNat = rc.cfg.width - 1) ∧
    (15 : BitVec 10).toNat < rc.cfg.height ∧ rcConfig.width = 14 ∧ rcConfig.height = 16 ∧ rcConfig.dummyBits = 4 := by
  decide

theorem witness_CellsLieOnTheDisplay :
    (1 < rcConfig.cols ∧ 1 < rcConfig.rows ∧ 1 * 6 ≤ 11 ∧ 11 ≤ 1 * 6 + 5 ∧ 1 * 8 ≤ 15 ∧ 15 ≤ 1 * 8 + 7) ∧
    rcConfig.cols * 6 ≤ 12 ∧ rcConfig.rows * 8 ≤ 16 := by decide

theorem witness_SetpixChangesOneBit :
    Memory.wf (rcBusy []).fb ∧ (rcBusy []).quiet 1 ∧ (rcBusy []).cfg.inDisplay (13 : BitVec 10).toNat (15 : BitVec 10).toNat ∧
    ¬ (15 = (15 : BitVec 10).toNat ∧ 23 = rcConfig.width - 1 - (13 : BitVec 10).toNat + rcConfig.dummyBits) ∧
    23 < 8 * rcConfig.bpr := by decide

theorem witness_SetpixOutOfRangeDoesNothing :
    rc.cfg.width ≤ (14 : BitVec 10).toNat ∧ rc.cfg.height ≤ (16 : BitVec 10).toNat := by decide

theorem witness_TickInsideSetpixSeesTheOldByte :
    (rcBusy [2, 1]).Inv ∧ (rcBusy [2, 1]).running = true ∧ (rcBusy [2, 1]).ticks = 2 :: 1 :: [] ∧
    (rcBusy [2, 1]).cfg.inDisplay (13 : BitVec 10).toNat (0 : BitVec 10).toNat := ⟨rcBusy_inv _, by decide⟩

theorem witness_SetpixThenGetpixUnderAnyTicks :
    ({ rcBusy [1, 1] with port := [0x0210000D, 0x0300000D] } : State).Inv ∧ (rcBusy [1, 1]).inflight = none ∧
    (rcBusy [1, 1]).cfg.inDisplay (13 : BitVec 10).toNat (0 : BitVec 10).toNat ∧
    [0x0210000D, 0x0300000D] = encode (.setpix 13 0 true) ++ encode (.getpix 13 0) ++ [] := by
  refine ⟨?_, by decide, by decide, by decide⟩
  constructor <;> first | exact own_of_none rfl | decide

theorem witness_GetpixAnswersThePixel :
    (rc.cfg.inDisplay (13 : BitVec 10).toNat (15 : BitVec 10).toNat ∧ rc.quiet 1) ∧
    ¬ rc.cfg.inDisplay (14 : BitVec 10).toNat (0 : BitVec 10).toNat := by decide

theorem witness_ReadbacksAreSampledAtTheRead :
    (47 : BitVec 24).toNat < rc.cfg.height * rc.cfg.bpr ∧ rc.cfg.inDisplay (13 : BitVec 10).toNat (15 : BitVec 10).toNat := by
  decide

theorem witness_ClearZeroesEveryByte :
    Memory.wf (rcBusy []).fb ∧ (rcBusy []).quiet ((rcBusy []).cfg.height * (rcBusy []).cfg.bpr - 1) := by decide

theorem witness_ClearGoesUpByteByByte :
    let s := rcBusy (List.replicate 47 0 ++ [1])
    Memory.wf s.fb ∧ 46 + 1 < s.cfg.height * s.cfg.bpr ∧ s.quiet 46 ∧ 0 < s.ticks.getD (46 + 1) 0 := by decide

theorem witness_RdfbAnswersTheStoredByte :
    ((47 : BitVec 24).toNat < rc.cfg.height * rc.cfg.bpr ∧ rc.quiet 1) ∧
    rc.cfg.height * rc.cfg.bpr ≤ (48 : BitVec 24).toNat := by decide

theorem witness_WrfbStoresOneByte :
    Memory.wf (rcBusy []).fb ∧ (47 : BitVec 24).toNat < rc.cfg.height * rc.cfg.bpr ∧
    rc.cfg.height * rc.cfg.bpr ≤ (48 : BitVec 24).toNat ∧ 46 ≠ (47 : BitVec 24).toNat := by decide

theorem witness_SetugTransposesTheBitmap :
    (7 : Byte).toNat < 8 ∧ 8 ≤ (8 : Byte).toNat ∧
    (∀ q : Fin 8, (#v[0, 0, 0x08, 0, 0, 0, 0, 0] : Vector Byte 8)[q] = if q = 2 then 1#8 <<< (4 - (1 : Fin 5).val) else 0) ∧
    (0 : Fin 8).val ≠ (7 : Byte).toNat := by decide

theorem witness_ColumnsForByClass :
    (0x07 : Byte).toNat ≤ 0x07 ∧ (0x20 ≤ (0x20 : Byte).toNat ∧ (0x20 : Byte).toNat ≤ 0x7E) ∧
    (0x20 ≤ (0x7E : Byte).toNat ∧ (0x7E : Byte).toNat ≤ 0x7E) ∧ (0x80 ≤ (0x85 : Byte).toNat ∧ (0x85 : Byte).toNat ≤ 0x85) ∧
    (0x86 : Byte).toNat = 0x86 ∧ (0x08 ≤ (0x1F : Byte).toNat ∧ (0x1F : Byte).toNat ≤ 0x1F) ∧ (0x7F : Byte).toNat = 0x7F ∧
    0x87 ≤ (0x87 : Byte).toNat := by decide

theorem witness_ResolveGlyphByClass :
    (0x20 ≤ (0x7E : BitVec 11).toNat ∧ (0x7E : BitVec 11).toNat ≤ 0x7E) ∧
    ¬ (0x20 ≤ (0x7F : BitVec 11).toNat ∧ (0x7F : BitVec 11).toNat ≤ 0x7E) ∧
    (0x7F : BitVec 11).toNat ∉ [0xC4, 0xD6, 0xDC, 0xE4, 0xF6, 0xFC, 0xDF] := by decide

theorem witness_CodepointsHaveTheirOwnColumns :
    (0x20 ≤ (0x20 : BitVec 11).toNat ∧ (0x20 : BitVec 11).toNat ≤ 0x7E) ∧
    (0x20 ≤ (0x7E : BitVec 11).toNat ∧ (0x7E : BitVec 11).toNat ≤ 0x7E) := by decide

theorem witness_WriteNeverReadsUserGlyphs : ∃ t, exec (.write 0x41) rc = .next t := ⟨_, rfl⟩

theorem witness_WriteLfStartsANewLine : (rcBusy []).Inv ∧ (rcBusy []).quiet 1 := ⟨rcBusy_inv _, by decide⟩

theorem witness_WriteOfALeadByteOnlyPends :
    rc.uExp = 0 ∧ (0xC0 ≤ (0xC0 : Byte).toNat ∧ (0xC0 : Byte).toNat ≤ 0xDF) ∧
    (0xC0 ≤ (0xDF : Byte).toNat ∧ (0xDF : Byte).toNat ≤ 0xDF) ∧ rc.quiet 1 := by decide

/-- Every way to a codepoint: idle with an ASCII byte or an unexpected one; pending with a continuation byte or another. -/
theorem witness_WriteDrawsTheCodepoint :
    (rcBusy []).Inv ∧ ({ rcBusy [] with uExp := 1, uAcc := 3 } : State).Inv ∧ (rcBusy []).quiet 86 ∧
    codepointOf (rcBusy []) 0x7F = some 0x7F ∧ codepointOf (rcBusy []) 0x80 = some 0x3F ∧
    codepointOf (rcBusy []) 0xFF = some 0x3F ∧
    codepointOf { rcBusy [] with uExp := 1, uAcc := 3 } 0x84 = some 0xC4 ∧
    codepointOf { rcBusy [] with uExp := 1, uAcc := 3 } 0xC0 = some 0x3F ∧ (0x7F : Byte) ≠ 0x0D ∧ (0x7F : Byte) ≠ 0x0A := by
  refine ⟨rcBusy_inv _, ?_, by decide⟩
  constructor <;> first | exact own_of_none rfl | decide

theorem witness_WglyphDrawsTheGlyph : (rcBusy []).Inv ∧ (rcBusy []).quiet 84 := ⟨rcBusy_inv _, by decide⟩

theorem witness_StartFromStopped : rc.running = false ∧ (1 : BitVec 24) ≠ 0 := by decide
theorem witness_StartWhileRunning : (rcBusy []).running = true ∧ (0xFFFFFF : BitVec 24) ≠ 0 := by decide
theorem witness_StopEndsTheSession : (rcBusy []).running = true ∧ rc.running = false := by decide

theorem witness_TickTransmitsTheRow : (rcBusy [1]).Inv ∧ (rcBusy [1]).running = true ∧ (rcBusy [1]).tickDue = true :=
  ⟨rcBusy_inv _, by decide⟩

theorem witness_TicksGoRoundRobin :
    (rcBusy [17]).Inv ∧ (rcBusy [17]).running = true ∧ (rcBusy [17]).refreshRow = 0 ∧ 17 ≤ (rcBusy [17]).ticks.headD 0 :=
  ⟨rcBusy_inv _, by decide⟩

/-- A Stopped block with a tick due inside SETPIX, and one that STOP has just left. -/
theorem witness_NoTickTransmitsAfterStop :
    (let s : State := { rc with inflight := some inSetpix, ticks := [2] }
     s.running = false ∧ s.tickDue = true) ∧
    nextIs (exec .stop (rcBusy [0, 3])) (fun t => decide (3 ≤ t.ticks.headD 0)) = true := by decide

theorem witness_StrobeOutputsRestDeasserted : (rcBusy [1]).Inv ∧ ∃ t, step (rcBusy [1]) = .next t :=
  ⟨rcBusy_inv _, _, rfl⟩

theorem witness_TicksNeverChangeWhatACommandDraws :
    ({ rcBusy [1, 1] with port := [0x0500000A] } : State).Inv ∧ (rcBusy [1, 1]).inflight = none ∧
    decode [0x0500000A] = .ok (.write 0x0A, []) ∧ (∀ a, Instr.write 0x0A ≠ .rdfb a) ∧ Instr.write 0x0A ≠ .rdstat ∧
    ∃ u, step { rcBusy [1, 1] with port := [0x0500000A], ticks := [] } = .next u := by
  refine ⟨?_, by decide, by decide, by simp, by simp, _, rfl⟩
  constructor <;> first | exact own_of_none rfl | decide

end Sys2Proof.Tests
end

section
/-! The configuration is constant (spec/10_state.md R42). -/

namespace Sys2Proof.Machine

/-- Going on with a command keeps the configuration, wherever CMD next stands. -/
@[simp] theorem State.resume_cfg (s : State) (c : InFlight) : (s.resume c).cfg = s.cfg := by
  obtain ⟨done, rest, n, v, -, he⟩ := resume_prefix c s
  rw [he]
  exact runMicros_cfg done c.latch s

@[simp] theorem State.issue_cfg (s : State) (i : Instr) (ms : List Micro) : (s.issue i ms).cfg = s.cfg :=
  s.resume_cfg ⟨i, ms, 0#8⟩

/-- Settles O18: each of the four moves of the machine (a tick, a command that goes on, a command that starts, a wait for
words) keeps the configuration. -/
theorem noStepChangesTheConfiguration : Obligations.NoStepChangesTheConfiguration := by
  intro s t h
  rcases step_cases s with ⟨-, he⟩ | ⟨-, c, -, he⟩ | ⟨-, -, i, rest, -, he⟩ | ⟨-, -, -, he⟩ <;>
    cases h.symm.trans he
  case inl => exact s.takeTick_cfg
  case inr.inl => exact s.resume_cfg c
  case inr.inr.inl => exact State.issue_cfg { s with port := rest } i _
  case inr.inr.inr => exact s.leavePoint_cfg

end Sys2Proof.Machine
end

section
/-! A tick of a Running block, seen from its end: the row as it then stands in the framebuffer is the row that was sent
(spec/43_refresh.md R207 to R210, spec/20_memory.md R54). -/

namespace Sys2Proof.Machine

/-- A tick of a Running block between two steps: the strobes come back to rest, so it changes the framebuffer, the row
cursor and TRACE alone, and takes one tick off those due (spec/43_refresh.md R206 and R215). -/
theorem State.takeTick_of_running {s : State} (hi : s.Inv) (hr : s.running = true) :
    s.takeTick =
      { s with
        fb := (s.clearDummyBits s.refreshRow.toNat).fb
        refreshRow := BitVec.ofNat 10 ((s.refreshRow.toNat + 1) % s.cfg.height)
        trace := s.trace ++ s.rowEvents s.refreshRow.toNat
        ticks := (s.ticks.headD 0 - 1) :: s.ticks.tail } := by
  simp [State.takeTick, State.tick_running hr hi.fb_wf, hi.fs_low, hi.ll_low]

/-- The row cursor's next value fits REFRESH_ROW: a display has at most 1024 rows (spec/00_scope.md R6). -/
theorem nextRow_toNat (c : Config) (r : Nat) : (BitVec.ofNat 10 ((r + 1) % c.height)).toNat = (r + 1) % c.height := by
  have hh := c.height_range
  have hlt : (r + 1) % c.height < c.height := Nat.mod_lt _ (by omega)
  rw [BitVec.toNat_ofNat, Nat.mod_eq_of_lt (by omega)]

/-- The bytes sent for a row are the row's bytes as they stand once its dummy bits are cleared
(spec/43_refresh.md R208 and R210). -/
theorem State.sentBytes_eq_clearDummyBits {s : State} (hw : Memory.wf s.fb) (r : Nat) :
    s.sentBytes r = (List.range s.cfg.bpr).map fun k => (s.clearDummyBits r).fbRead (r * s.cfg.bpr + k) := by
  refine List.map_congr_left fun k _ => ?_
  split
  · next h0 => rw [h0, Nat.add_zero, State.clearDummyBits_fbRead_first hw]
  · next h0 => rw [State.clearDummyBits_fbRead_other _ _ _ (by omega)]

/-- What a tick of a Running block leaves in the framebuffer (spec/43_refresh.md R208). -/
theorem State.takeTick_fbRead_of_running {s : State} (hw : Memory.wf s.fb) (hr : s.running = true) (a : Nat) :
    s.takeTick.fbRead a = (s.clearDummyBits s.refreshRow.toNat).fbRead a := by
  rw [State.takeTick_fbRead, State.tick_fbRead_congr s hw, if_pos hr]

/-- TRACE after a tick of a Running block: the row's events, their bytes read from the framebuffer the tick leaves
(spec/43_refresh.md R207 to R211). -/
theorem State.takeTick_trace {s : State} (hi : s.Inv) (hr : s.running = true) :
    s.takeTick.trace = s.trace ++ (if s.refreshRow = 0 then [.fs true] else []) ++
      (List.range s.cfg.bpr).map (fun k => .byte (s.takeTick.fbRead (s.refreshRow.toNat * s.cfg.bpr + k))) ++
      [.ll true, .wait s.cfg.pulseUs, .ll false] ++ (if s.refreshRow = 0 then [.fs false] else []) := by
  have hrow : s.refreshRow.toNat = 0 ↔ s.refreshRow = 0 :=
    (BitVec.toNat_eq (y := 0#10)).symm
  have htrace : s.takeTick.trace = s.trace ++ s.rowEvents s.refreshRow.toNat := by
    rw [State.takeTick_of_running hi hr]
  simp only [htrace, State.rowEvents, hrow, State.sentBytes_eq_clearDummyBits hi.fb_wf, List.map_map,
    Function.comp_def, State.takeTick_fbRead_of_running hi.fb_wf hr, List.append_assoc]

/-- A tick of a Running block puts its row on the bus class by class: dummy bits, pixels with x falling, pad bits
(spec/20_memory.md R54). -/
theorem State.takeTick_busBits {s : State} (hi : s.Inv) (hr : s.running = true) :
    s.takeTick.busBits = s.busBits ++ (List.replicate s.cfg.dummyBits false ++
      (List.range s.cfg.width).map (fun n => s.pixel (s.cfg.width - 1 - n) s.refreshRow.toNat) ++
      (List.range (8 * s.cfg.bpr - (s.cfg.dummyBits + s.cfg.width))).map
        (fun n => s.rawBit s.refreshRow.toNat (s.cfg.dummyBits + s.cfg.width + n))) := by
  rw [← State.sentBytes_bits_classes, ← State.rowEvents_busBits, ← State.busBits_append,
    State.takeTick_of_running hi hr]
  rfl

/-- Settles O55: the step is the tick, whose whole effect is the clearing of one byte, the row's events and the row
cursor's advance; the bytes sent and the bits on the bus are then read off the framebuffer it leaves. -/
theorem tickTransmitsTheRow : Obligations.TickTransmitsTheRow := by
  intro s hi hr hd
  have hw := hi.fb_wf
  have he := State.takeTick_of_running hi hr
  refine ⟨s.takeTick, step_tick hd, ?frame, ?cursor, ?cleared, ?otherBytes, ?bits, ?bus⟩
  case frame =>
    rw [← State.takeTick_trace hi hr, he]
  case cursor =>
    rw [he]
    exact nextRow_toNat s.cfg s.refreshRow.toNat
  case cleared =>
    rw [State.takeTick_fbRead_of_running hw hr]
    exact State.clearDummyBits_fbRead_first hw _
  case otherBytes =>
    intro a ha
    rw [State.takeTick_fbRead_of_running hw hr]
    exact State.clearDummyBits_fbRead_other s _ a ha
  case bits =>
    intro r p hp hp'
    exact State.tick_rawBit hw r p hp hp'
  case bus =>
    simpa only [List.append_assoc] using State.takeTick_busBits hi hr

end Sys2Proof.Machine
end

section
/-! A reserved lead word is a command of one word with no micro-steps (spec/30_encoding.md R87). -/

namespace Sys2Proof.Machine

/-- A one-word command with no micro-steps advances CSP and does nothing else, whatever ticks arrive. -/
theorem exec_of_no_micros {i : Instr} {s : State} (hw : i.words = 1) (hm : microsOf i s = []) :
    exec i s = .next { s with csp := s.csp + 1, inflight := none, ticks := s.ticks.tail } := by
  rw [exec_eq_issue, hm, issue_nil, hw]

/-- Every row of reserved opcodes has length one (spec/30_encoding.md R84 and R87). -/
@[simp] theorem decodeReserved_words (opc : Byte) : (decodeReserved opc).words = 1 := by
  unfold decodeReserved
  split_ifs <;> rfl

/-- No row of reserved opcodes has a micro-step (spec/44_system.md R231). -/
@[simp] theorem microsOf_decodeReserved (opc : Byte) (s : State) : microsOf (decodeReserved opc) s = [] := by
  unfold decodeReserved
  split_ifs <;> rfl

/-- Settles O6: the lead word decodes, by itself, to the command of its reserved row, and that command has no
micro-steps. -/
theorem reservedLeadWordDoesNothing : Obligations.ReservedLeadWordDoesNothing := by
  intro w0 ws h
  exact ⟨decodeReserved (opcodeOf w0), decode_reserved w0 ws h,
    fun s => exec_of_no_micros (decodeReserved_words _) (microsOf_decodeReserved _ s)⟩

end Sys2Proof.Machine
end

section
/-! WRITE of CR is its response alone (spec/42_text.md R171). -/

namespace Sys2Proof.Machine

/-- CR is tested before the decoder, so before its response WRITE of CR has no micro-step, whatever the decoder
expects. -/
@[simp] theorem writeByteSteps_cr (s : State) : writeByteSteps s cr = [] := if_pos rfl

/-- A one-word command whose only micro-step is a response appends it and advances CSP, whatever ticks arrive. -/
theorem exec_of_respond_only {i : Instr} {bytes : List Byte} {s : State} (hw : i.words = 1)
    (hm : microsOf i s = [.respond bytes]) :
    exec i s = .next { s with
      resp := s.resp ++ bytes, csp := s.csp + 1, inflight := none, ticks := s.ticks.tail } := by
  rw [exec_eq_issue, hm, issue_one, hw]
  rfl

/-- Settles O46: the response is the command's only micro-step, so no tick can come between. -/
theorem writeCrIsIgnored : Obligations.WriteCrIsIgnored := by
  intro s
  have hm : microsOf (.write cr) s = [.respond [0x01]] := by simp [microsOf]
  exact exec_of_respond_only rfl hm

end Sys2Proof.Machine
end

section
/-! START with a period of zero (spec/43_refresh.md R203). -/

namespace Sys2Proof.Machine

/-- Settles O53: START is one atomic micro-step, so no tick can come inside it, and with a period of zero that
micro-step gives back the state it was given. -/
theorem startWithPeriodZeroDoesNothing : Obligations.StartWithPeriodZeroDoesNothing := by
  intro s
  have hm : microsOf (.start 0) s = [.startRefresh 0#24] := rfl
  rw [exec_eq_issue, hm, issue_one, Micro.effect, State.startRefresh_zero]
  rfl

end Sys2Proof.Machine
end

section
/-! The state after reset, and the idle TICK agent (spec/70_reset_and_hazards.md R280 and R281). -/

namespace Sys2Proof.Machine

/-- The TICK agent of a Stopped block is idle: the tick it takes comes off those due, and nothing else changes
(spec/43_refresh.md R206). -/
theorem State.takeTick_of_stopped {s : State} (h : s.running = false) :
    s.takeTick = { s with ticks := (s.ticks.headD 0 - 1) :: s.ticks.tail } := by
  rw [State.takeTick, State.tick_stopped h]

theorem step_tick_of_stopped {s : State} (h : s.running = false) (hd : s.tickDue = true) :
    step s = .next { s with ticks := (s.ticks.headD 0 - 1) :: s.ticks.tail } := by
  rw [step_tick hd, State.takeTick_of_stopped h]

/-- Settles O17: the registers are those of the reset state by its definition. It has no tick due and no command in
progress, so the first step decodes the port's front; and it is Stopped, so the ticks that arrive there are idle. -/
theorem resetLeavesTheSpecsValues : Obligations.ResetLeavesTheSpecsValues := by
  rintro cfg fb ug s rfl
  refine ⟨rfl, rfl, rfl, rfl, rfl, rfl, rfl, rfl, rfl, rfl, rfl, rfl, rfl, rfl, rfl, rfl, rfl, ?firstCommand, ?idleTick⟩
  case firstCommand =>
    intro ws i rest hdec
    exact step_decoded rfl rfl hdec
  case idleTick =>
    intro n tl
    exact step_tick_of_stopped rfl ((State.tickDue_iff _).2 n.succ_pos)

end Sys2Proof.Machine
end

section
/-! The formats of a command's words (spec/30_encoding.md R81, R82 and R86): a lead word is its opcode over a 24-bit
operand area, and each opcode has its own reading of that area and of the extension words. -/

namespace Sys2Proof

/-! ## The operands in their area, whatever the ignored bits above them hold -/

/-- A field of the operand area, read off the lead word. -/
theorem operand_append (opc : Byte) (opr : BitVec 24) {start len : Nat} (h : start + len ≤ 24) :
    (opc ++ opr : Word).extractLsb' start len = opr.extractLsb' start len :=
  BitVec.extractLsb'_append_eq_of_add_le h

theorem operandBit_append (opc : Byte) (opr : BitVec 24) {n : Nat} (h : n < 24) :
    (opc ++ opr : Word).getLsbD n = opr.getLsbD n := by
  rw [BitVec.getLsbD_append, if_pos h]

@[simp] theorem pixelArea_x (i4 : BitVec 4) (y x : BitVec 10) : (i4 ++ y ++ x : BitVec 24).extractLsb' 0 10 = x :=
  BitVec.extractLsb'_append_eq_right

@[simp] theorem pixelArea_y (i4 : BitVec 4) (y x : BitVec 10) : (i4 ++ y ++ x : BitVec 24).extractLsb' 10 10 = y :=
  (BitVec.extractLsb'_append_eq_of_le (by decide)).trans BitVec.extractLsb'_append_eq_right

@[simp] theorem pixelArea_on (i3 : BitVec 3) (on : Bool) (y x : BitVec 10) :
    ((i3 ++ BitVec.ofBool on : BitVec 4) ++ y ++ x : BitVec 24).getLsbD 20 = on := by
  rw [BitVec.getLsbD_append, if_neg (by decide), BitVec.getLsbD_append, if_neg (by decide), BitVec.getLsbD_append,
    if_pos (by decide)]
  exact (BitVec.getLsbD_ofBool on _).trans (by simp)

@[simp] theorem byteArea_byte (i16 : BitVec 16) (b : Byte) : (i16 ++ b : BitVec 24).extractLsb' 0 8 = b :=
  BitVec.extractLsb'_append_eq_right

/-- The byte of WRFB's extension word, in the format EV. -/
@[simp] theorem extensionEV_byte (i24 : BitVec 24) (v : Byte) : (i24 ++ v : Word).extractLsb' 0 8 = v :=
  BitVec.extractLsb'_append_eq_right

/-- The bitmap rows of SETUG's extension words, in the format EU: little-endian, four rows a word. -/
theorem bitmapOfWords_append (b0 b1 b2 b3 b4 b5 b6 b7 : Byte) :
    bitmapOfWords (b3 ++ b2 ++ b1 ++ b0) (b7 ++ b6 ++ b5 ++ b4) = #v[b0, b1, b2, b3, b4, b5, b6, b7] := by
  have h0 (a b c d : Byte) : (a ++ b ++ c ++ d : Word).extractLsb' 0 8 = d := BitVec.extractLsb'_append_eq_right
  have h8 (a b c d : Byte) : (a ++ b ++ c ++ d : Word).extractLsb' 8 8 = c :=
    (BitVec.extractLsb'_append_eq_of_le (by decide)).trans BitVec.extractLsb'_append_eq_right
  have h16 (a b c d : Byte) : (a ++ b ++ c ++ d : Word).extractLsb' 16 8 = b :=
    (BitVec.extractLsb'_append_eq_of_le (by decide)).trans
      ((BitVec.extractLsb'_append_eq_of_le (by decide)).trans BitVec.extractLsb'_append_eq_right)
  have h24 (a b c d : Byte) : (a ++ b ++ c ++ d : Word).extractLsb' 24 8 = a :=
    (BitVec.extractLsb'_append_eq_of_le (by decide)).trans
      ((BitVec.extractLsb'_append_eq_of_le (by decide)).trans
        ((BitVec.extractLsb'_append_eq_of_le (by decide)).trans BitVec.extractLsb'_eq_self))
  simp only [bitmapOfWords, h0, h8, h16, h24]

/-! ## What each opcode reads -/

section
variable (opr : BitVec 24) (w1 w2 : Word) (rest : List Word)

/-- The lead word of a command without extension words is read by itself. -/
theorem decode_lead {opc : Byte} (h7 : opc ≠ 0x07#8) (hC : opc ≠ 0x0C#8) :
    decode ((opc ++ opr : Word) :: rest) =
      .ok (decodeWords (opc ++ opr) (rest.getD 0 0) (rest.getD 1 0), rest) :=
  decode_one rest (by rwa [opcodeOf_append]) (by rwa [opcodeOf_append])

theorem decode_nop : decode ((0x00#8 ++ opr : Word) :: rest) = .ok (.nop, rest) := by
  rw [decode_lead opr rest (by decide) (by decide)]
  simp [decodeWords, opcodeOf_append]

theorem decode_clear : decode ((0x01#8 ++ opr : Word) :: rest) = .ok (.clear, rest) := by
  rw [decode_lead opr rest (by decide) (by decide)]
  simp [decodeWords, opcodeOf_append]

theorem decode_setpix :
    decode ((0x02#8 ++ opr : Word) :: rest) =
      .ok (.setpix (opr.extractLsb' 0 10) (opr.extractLsb' 10 10) (opr.getLsbD 20), rest) := by
  rw [decode_lead opr rest (by decide) (by decide)]
  simp [decodeWords, opcodeOf_append, operand_append, operandBit_append, -BitVec.getLsbD_eq_getElem]

theorem decode_getpix :
    decode ((0x03#8 ++ opr : Word) :: rest) = .ok (.getpix (opr.extractLsb' 0 10) (opr.extractLsb' 10 10), rest) := by
  rw [decode_lead opr rest (by decide) (by decide)]
  simp [decodeWords, opcodeOf_append, operand_append]

theorem decode_setcur :
    decode ((0x04#8 ++ opr : Word) :: rest) = .ok (.setcur (opr.extractLsb' 0 10) (opr.extractLsb' 10 10), rest) := by
  rw [decode_lead opr rest (by decide) (by decide)]
  simp [decodeWords, opcodeOf_append, operand_append]

theorem decode_write : decode ((0x05#8 ++ opr : Word) :: rest) = .ok (.write (opr.extractLsb' 0 8), rest) := by
  rw [decode_lead opr rest (by decide) (by decide)]
  simp [decodeWords, opcodeOf_append, operand_append]

theorem decode_wglyph : decode ((0x06#8 ++ opr : Word) :: rest) = .ok (.wglyph (opr.extractLsb' 0 8), rest) := by
  rw [decode_lead opr rest (by decide) (by decide)]
  simp [decodeWords, opcodeOf_append, operand_append]

theorem decode_setug :
    decode ((0x07#8 ++ opr : Word) :: w1 :: w2 :: rest) =
      .ok (.setug (opr.extractLsb' 0 8) (bitmapOfWords w1 w2), rest) := by
  rw [decode_cons (by simp [opcodeOf_append, lengthOfOpcode])]
  simp [decodeWords, opcodeOf_append, operand_append, lengthOfOpcode]

theorem decode_rdglyph : decode ((0x08#8 ++ opr : Word) :: rest) = .ok (.rdglyph (opr.extractLsb' 0 8), rest) := by
  rw [decode_lead opr rest (by decide) (by decide)]
  simp [decodeWords, opcodeOf_append, operand_append]

theorem decode_start : decode ((0x09#8 ++ opr : Word) :: rest) = .ok (.start opr, rest) := by
  rw [decode_lead opr rest (by decide) (by decide)]
  simp [decodeWords, opcodeOf_append, operand_append]

theorem decode_stop : decode ((0x0A#8 ++ opr : Word) :: rest) = .ok (.stop, rest) := by
  rw [decode_lead opr rest (by decide) (by decide)]
  simp [decodeWords, opcodeOf_append]

theorem decode_rdfb : decode ((0x0B#8 ++ opr : Word) :: rest) = .ok (.rdfb opr, rest) := by
  rw [decode_lead opr rest (by decide) (by decide)]
  simp [decodeWords, opcodeOf_append, operand_append]

theorem decode_wrfb :
    decode ((0x0C#8 ++ opr : Word) :: w1 :: rest) = .ok (.wrfb opr (w1.extractLsb' 0 8), rest) := by
  rw [decode_cons (by simp [opcodeOf_append, lengthOfOpcode])]
  simp [decodeWords, opcodeOf_append, operand_append, lengthOfOpcode]

theorem decode_rdstat : decode ((0x0D#8 ++ opr : Word) :: rest) = .ok (.rdstat, rest) := by
  rw [decode_lead opr rest (by decide) (by decide)]
  simp [decodeWords, opcodeOf_append]

end

/-- A reserved command's opcode lies in its row, so its own lead word gives it back (spec/30_encoding.md R85). -/
theorem decodeReserved_of_wellFormed :
    ∀ opc : Byte, ∀ i ∈ [Instr.reserved0E opc, .reserved10 opc, .reserved20 opc, .reserved40 opc, .reserved80 opc],
      WellFormed i = true → decodeReserved opc = i ∧ 0x0E ≤ opc.toNat := by
  decide

theorem decode_of_reserved {opc : Byte} {i : Instr} (hwf : WellFormed i = true)
    (hi : i ∈ [Instr.reserved0E opc, .reserved10 opc, .reserved20 opc, .reserved40 opc, .reserved80 opc])
    (opr : BitVec 24) (rest : List Word) : decode ((opc ++ opr : Word) :: rest) = .ok (i, rest) := by
  obtain ⟨hrow, hlo⟩ := decodeReserved_of_wellFormed opc i hi hwf
  rw [decode_reserved _ _ (by rwa [opcodeOf_append]), opcodeOf_append, hrow]

theorem vector8_eta (bm : Vector Byte 8) : #v[bm[0], bm[1], bm[2], bm[3], bm[4], bm[5], bm[6], bm[7]] = bm := by
  ext j hj
  interval_cases j <;> rfl

/-- Settles O2, by the constructor: the opcode selects its reading of the words, and each operand is found in the bits
where the encoder put it. -/
theorem decodeOfEncodeIsTheCommand : Obligations.DecodeOfEncodeIsTheCommand := by
  intro i rest hwf
  cases i with
  | nop => exact decode_nop _ rest
  | clear => exact decode_clear _ rest
  | setpix x y on =>
    refine (decode_setpix (Instr.setpix x y on).operandArea rest).trans ?_
    simp [Instr.operandArea, -BitVec.getLsbD_eq_getElem]
  | getpix x y => exact (decode_getpix _ rest).trans (by simp [Instr.operandArea])
  | setcur col row => exact (decode_setcur _ rest).trans (by simp [Instr.operandArea])
  | write b => exact (decode_write _ rest).trans (by simp [Instr.operandArea])
  | wglyph g => exact (decode_wglyph _ rest).trans (by simp [Instr.operandArea])
  | setug n bm =>
    refine (decode_setug (Instr.setug n bm).operandArea _ _ rest).trans ?_
    rw [bitmapOfWords_append, vector8_eta]
    simp [Instr.operandArea]
  | rdglyph g => exact (decode_rdglyph _ rest).trans (by simp [Instr.operandArea])
  | start period => exact decode_start period rest
  | stop => exact decode_stop _ rest
  | rdfb addr => exact decode_rdfb addr rest
  | wrfb addr v => exact (decode_wrfb addr _ rest).trans (by simp)
  | rdstat => exact decode_rdstat _ rest
  | reserved0E opc => exact decode_of_reserved (opc := opc) hwf (by simp) _ rest
  | reserved10 opc => exact decode_of_reserved (opc := opc) hwf (by simp) _ rest
  | reserved20 opc => exact decode_of_reserved (opc := opc) hwf (by simp) _ rest
  | reserved40 opc => exact decode_of_reserved (opc := opc) hwf (by simp) _ rest
  | reserved80 opc => exact decode_of_reserved (opc := opc) hwf (by simp) _ rest

end Sys2Proof
end

section
/-! Decoding the words of the spec's formats, and encoding back what was decoded (spec/30_encoding.md R81 to R88). -/

namespace Sys2Proof

/-- The opcode of what a lead word decodes to is the lead word's (spec/30_encoding.md R85). -/
theorem decodeWords_opcode (w0 w1 w2 : Word) : (decodeWords w0 w1 w2).opcode = opcodeOf w0 := by
  have hres (opc : Byte) : (decodeReserved opc).opcode = opc := by
    unfold decodeReserved
    split_ifs <;> rfl
  unfold decodeWords
  simp only [apply_ite Instr.opcode, hres]
  simp only [Instr.opcode]
  generalize opcodeOf w0 = opc
  revert opc
  decide

/-- A well-formed command's length is its opcode's (spec/30_encoding.md R84). -/
theorem words_of_wellFormed {i : Instr} (h : WellFormed i = true) : i.words = lengthOfOpcode i.opcode := by
  cases i with
  | reserved0E opc => revert opc; decide
  | reserved10 opc => revert opc; decide
  | reserved20 opc => revert opc; decide
  | reserved40 opc => revert opc; decide
  | reserved80 opc => revert opc; decide
  | _ => rfl

/-- Three words are enough for every opcode, so the command of the lead word is read whole. -/
theorem decode_three (w0 w1 w2 : Word) (ws : List Word) :
    decode (w0 :: w1 :: w2 :: ws) =
      .ok (decodeWords w0 w1 w2, (w0 :: w1 :: w2 :: ws).drop (decodeWords w0 w1 w2).words) := by
  have hlen : lengthOfOpcode (opcodeOf w0) - 1 ≤ (w1 :: w2 :: ws).length := by
    unfold lengthOfOpcode
    split_ifs <;> simp
  have hdec := decode_cons hlen
  obtain ⟨-, hrest, -⟩ := decode_ok hdec
  exact hrest ▸ hdec

/-- Settles O3, by what three words decode to. -/
theorem opcodeAloneSetsTheLength : Obligations.OpcodeAloneSetsTheLength := by
  intro w0 w1 w2 ws
  have hdec := decode_three w0 w1 w2 ws
  have hopc := decodeWords_opcode w0 w1 w2
  obtain ⟨-, -, hwf⟩ := decode_ok hdec
  exact ⟨decodeWords w0 w1 w2, (words_of_wellFormed hwf).trans (congrArg lengthOfOpcode hopc), hdec, hopc, hwf⟩

/-- Settles O5: every format is an operand area of its own under the opcode. -/
theorem operandsSitWhereTheFormatsSay : Obligations.OperandsSitWhereTheFormatsSay := by
  have assoc4 (opc : Byte) (i4 : BitVec 4) (y x : BitVec 10) :
      (opc ++ i4 ++ y ++ x : Word) = opc ++ (i4 ++ y ++ x : BitVec 24) := by
    rw [BitVec.append_assoc, BitVec.append_assoc, BitVec.append_assoc]; rfl
  have assoc3 (opc : Byte) (i3 : BitVec 3) (on : Bool) (y x : BitVec 10) :
      (opc ++ i3 ++ BitVec.ofBool on ++ y ++ x : Word) =
        opc ++ ((i3 ++ BitVec.ofBool on : BitVec 4) ++ y ++ x : BitVec 24) := by
    rw [← assoc4]
    exact congrArg (fun w : BitVec 12 => w ++ y ++ x) BitVec.append_assoc
  have assoc16 (opc : Byte) (i16 : BitVec 16) (b : Byte) : (opc ++ i16 ++ b : Word) = opc ++ (i16 ++ b : BitVec 24) :=
    BitVec.append_assoc
  intro rest x y on b v n24 i3 i4 i16 i24 b0 b1 b2 b3 b4 b5 b6 b7
  rw [assoc3, assoc4, assoc4, assoc16, assoc16, assoc16, assoc16, decode_nop, decode_clear, decode_setpix,
    decode_getpix, decode_setcur, decode_write, decode_wglyph, decode_setug, decode_rdglyph, decode_start, decode_stop, decode_rdfb,
    decode_wrfb, decode_rdstat, bitmapOfWords_append]
  have hx := pixelArea_x (i3 ++ BitVec.ofBool on) y x
  have hy := pixelArea_y (i3 ++ BitVec.ofBool on) y x
  simp only [hx, hy, pixelArea_x, pixelArea_y, pixelArea_on, byteArea_byte, extensionEV_byte, true_and]
  decide

/-- Settles O1, each word by evaluation of the decoder. -/
theorem decodeReadsTheSpecsWords : Obligations.DecodeReadsTheSpecsWords := by
  unfold Obligations.DecodeReadsTheSpecsWords
  decide

end Sys2Proof
end

section
/-! Encoding back what was decoded: every format keeps its operands and clears the ignored bits
(spec/30_encoding.md R81 and R88). -/

namespace Sys2Proof

theorem exists_eq_append {m n : Nat} (w : BitVec (m + n)) : ∃ (hi : BitVec m) (lo : BitVec n), w = hi ++ lo :=
  ⟨w.extractLsb' n m, w.extractLsb' 0 n, by
    rw [BitVec.extractLsb'_append_extractLsb'_eq_extractLsb' (Nat.zero_add n).symm, BitVec.extractLsb'_eq_self]⟩

theorem clear_pixelArea (i4 : BitVec 4) (y x : BitVec 10) :
    (i4 ++ y ++ x : BitVec 24) &&& 0x0FFFFF#24 = 0#4 ++ y ++ x := by
  rw [show (0x0FFFFF#24) = 0#4 ++ BitVec.allOnes 10 ++ BitVec.allOnes 10 by decide, BitVec.and_append,
    BitVec.and_append]
  simp only [BitVec.and_zero, BitVec.and_allOnes]

theorem clear_setpixArea (i3 : BitVec 3) (b : BitVec 1) (y x : BitVec 10) :
    ((i3 ++ b : BitVec 4) ++ y ++ x : BitVec 24) &&& 0x1FFFFF#24 = (0#3 ++ b : BitVec 4) ++ y ++ x := by
  rw [show (0x1FFFFF#24) = (0#3 ++ BitVec.allOnes 1 : BitVec 4) ++ BitVec.allOnes 10 ++ BitVec.allOnes 10 by decide,
    BitVec.and_append, BitVec.and_append, BitVec.and_append]
  simp only [BitVec.and_zero, BitVec.and_allOnes]

theorem clear_byteArea (i16 : BitVec 16) (b : Byte) : (i16 ++ b : BitVec 24) &&& 0x0000FF#24 = 0#16 ++ b := by
  rw [show (0x0000FF#24) = 0#16 ++ BitVec.allOnes 8 by decide, BitVec.and_append, BitVec.and_zero, BitVec.and_allOnes]

theorem clear_extensionEV (i24 : BitVec 24) (v : Byte) : (i24 ++ v : Word) &&& 0x000000FF#32 = 0#24 ++ v := by
  rw [show (0x000000FF#32) = 0#24 ++ BitVec.allOnes 8 by decide, BitVec.and_append, BitVec.and_zero, BitVec.and_allOnes]

/-- The pixel formats' operands are their area with the ignored bits cleared. -/
theorem pixelOperands_eq (opr : BitVec 24) :
    (0#4 ++ opr.extractLsb' 10 10 ++ opr.extractLsb' 0 10 : BitVec 24) = opr &&& 0x0FFFFF#24 := by
  obtain ⟨hi, x, rfl⟩ := exists_eq_append (m := 14) (n := 10) opr
  obtain ⟨i4, y, rfl⟩ := exists_eq_append (m := 4) (n := 10) hi
  rw [clear_pixelArea, pixelArea_y, pixelArea_x]

theorem setpixOperands_eq (opr : BitVec 24) :
    (0#3 ++ BitVec.ofBool (opr.getLsbD 20) ++ opr.extractLsb' 10 10 ++ opr.extractLsb' 0 10 : BitVec 24) =
      opr &&& 0x1FFFFF#24 := by
  obtain ⟨hi, x, rfl⟩ := exists_eq_append (m := 14) (n := 10) opr
  obtain ⟨i4, y, rfl⟩ := exists_eq_append (m := 4) (n := 10) hi
  obtain ⟨i3, b, rfl⟩ := exists_eq_append (m := 3) (n := 1) i4
  obtain ⟨on, rfl⟩ : ∃ on, b = BitVec.ofBool on := ⟨b.getLsbD 0, by revert b; decide⟩
  rw [clear_setpixArea, pixelArea_y, pixelArea_x, pixelArea_on]

theorem byteOperand_eq (opr : BitVec 24) : (0#16 ++ opr.extractLsb' 0 8 : BitVec 24) = opr &&& 0x0000FF#24 := by
  obtain ⟨i16, b, rfl⟩ := exists_eq_append (m := 16) (n := 8) opr
  rw [clear_byteArea, byteArea_byte]

theorem extensionOperand_eq (w : Word) : (0#24 ++ w.extractLsb' 0 8 : Word) = w &&& 0x000000FF := by
  obtain ⟨i24, v, rfl⟩ := exists_eq_append (m := 24) (n := 8) w
  rw [extensionEV_byte]
  exact (clear_extensionEV i24 v).symm

/-- SETUG's extension words have no ignored bits (spec/30_encoding.md R82). -/
theorem bitmapWords_eq (n : Byte) (w1 w2 : Word) : (Instr.setug n (bitmapOfWords w1 w2)).extensionWords = [w1, w2] := by
  have hword (w : Word) :
      (w.extractLsb' 24 8 ++ w.extractLsb' 16 8 ++ w.extractLsb' 8 8 ++ w.extractLsb' 0 8 : Word) = w := by
    have h16 : (w.extractLsb' 24 8 ++ w.extractLsb' 16 8 : BitVec 16) = w.extractLsb' 16 16 :=
      BitVec.extractLsb'_append_extractLsb'_eq_extractLsb' rfl
    have h8 : (w.extractLsb' 16 16 ++ w.extractLsb' 8 8 : BitVec 24) = w.extractLsb' 8 24 :=
      BitVec.extractLsb'_append_extractLsb'_eq_extractLsb' rfl
    have h0 : (w.extractLsb' 8 24 ++ w.extractLsb' 0 8 : Word) = w.extractLsb' 0 32 :=
      BitVec.extractLsb'_append_extractLsb'_eq_extractLsb' rfl
    rw [h16, h8, h0, BitVec.extractLsb'_eq_self]
  exact congrArg₂ (fun a b => [a, b]) (hword w1) (hword w2)

/-- A lead word's opcode is significant whole; of its operand area the mask of its opcode says what is. -/
theorem lead_and_significantBits {opc : Byte} {mask : BitVec 24} (h : Machine.significantBits opc = 0xFF#8 ++ mask)
    (opr : BitVec 24) : (opc ++ opr : Word) &&& Machine.significantBits opc = opc ++ (opr &&& mask) := by
  rw [h, BitVec.and_append, show (0xFF#8) = BitVec.allOnes 8 by decide, BitVec.and_allOnes]

theorem significantBits_reserved {opc : Byte} (h : 0x0E ≤ opc.toNat) :
    Machine.significantBits opc = 0xFF#8 ++ 0#24 := by
  revert opc
  decide

theorem encode_decodeReserved (opc : Byte) : encode (decodeReserved opc) = [opc ++ 0#24] := by
  unfold decodeReserved
  split_ifs <;> rfl

theorem opcode_reserved_or (opc : Byte) : 0x0E ≤ opc.toNat ∨
    opc = 0x00 ∨ opc = 0x01 ∨ opc = 0x02 ∨ opc = 0x03 ∨ opc = 0x04 ∨ opc = 0x05 ∨ opc = 0x06 ∨ opc = 0x07 ∨
    opc = 0x08 ∨ opc = 0x09 ∨ opc = 0x0A ∨ opc = 0x0B ∨ opc = 0x0C ∨ opc = 0x0D := by
  revert opc
  decide

/-- What a command whose operand area is the lead word's, ignored bits cleared, encodes to. -/
theorem encode_of_area {i : Instr} {opc : Byte} {opr mask : BitVec 24} (ho : i.opcode = opc)
    (hs : Machine.significantBits opc = 0xFF#8 ++ mask) (ha : i.operandArea = opr &&& mask) :
    encode i = ((opc ++ opr : Word) &&& Machine.significantBits opc) :: i.extensionWords := by
  rw [lead_and_significantBits hs, encode, ho, ha]

/-- Settles O4, by the opcode: what is decoded is made of the operands, and the encoder lays the same operands out over
ignored bits 0. -/
theorem encodeOfDecodeClearsOnlyIgnoredBits : Obligations.EncodeOfDecodeClearsOnlyIgnoredBits := by
  intro w0 w1 w2 ws i rest h
  obtain ⟨opc, opr, rfl⟩ := exists_eq_append (m := 8) (n := 24) w0
  rw [show BitVec.extractLsb' 24 8 (opc ++ opr) = opc from opcodeOf_append opc opr]
  rcases opcode_reserved_or opc with hr | hopc
  · rw [decode_reserved _ _ (by rwa [opcodeOf_append]), opcodeOf_append] at h
    cases h
    have h7 : opc ≠ 0x07 := by rintro rfl; exact absurd hr (by decide)
    have hC : opc ≠ 0x0C := by rintro rfl; exact absurd hr (by decide)
    rw [if_neg h7, if_neg hC, lead_and_significantBits (significantBits_reserved hr),
      encode_decodeReserved, BitVec.and_zero]
  · rcases hopc with rfl | rfl | rfl | rfl | rfl | rfl | rfl | rfl | rfl | rfl | rfl | rfl | rfl | rfl
    · cases (decode_nop opr _).symm.trans h
      exact encode_of_area (mask := 0) rfl (by decide) BitVec.and_zero.symm
    · cases (decode_clear opr _).symm.trans h
      exact encode_of_area (mask := 0) rfl (by decide) BitVec.and_zero.symm
    · cases (decode_setpix opr _).symm.trans h
      exact encode_of_area rfl (by decide) (setpixOperands_eq opr)
    · cases (decode_getpix opr _).symm.trans h
      exact encode_of_area rfl (by decide) (pixelOperands_eq opr)
    · cases (decode_setcur opr _).symm.trans h
      exact encode_of_area rfl (by decide) (pixelOperands_eq opr)
    · cases (decode_write opr _).symm.trans h
      exact encode_of_area rfl (by decide) (byteOperand_eq opr)
    · cases (decode_wglyph opr _).symm.trans h
      exact encode_of_area rfl (by decide) (byteOperand_eq opr)
    · cases (decode_setug opr w1 w2 ws).symm.trans h
      have hlead := encode_of_area (i := .setug (opr.extractLsb' 0 8) (bitmapOfWords w1 w2)) (opc := 0x07) rfl
        (by decide) (byteOperand_eq opr)
      rw [hlead, bitmapWords_eq]
      rfl
    · cases (decode_rdglyph opr _).symm.trans h
      exact encode_of_area rfl (by decide) (byteOperand_eq opr)
    · cases (decode_start opr _).symm.trans h
      exact encode_of_area (mask := BitVec.allOnes 24) rfl (by decide) BitVec.and_allOnes.symm
    · cases (decode_stop opr _).symm.trans h
      exact encode_of_area (mask := 0) rfl (by decide) BitVec.and_zero.symm
    · cases (decode_rdfb opr _).symm.trans h
      exact encode_of_area (mask := BitVec.allOnes 24) rfl (by decide) BitVec.and_allOnes.symm
    · cases (decode_wrfb opr w1 (w2 :: ws)).symm.trans h
      exact congrArg (fun w => [0x0C#8 ++ opr, w]) (extensionOperand_eq w1)
    · cases (decode_rdstat opr _).symm.trans h
      exact encode_of_area (mask := 0) rfl (by decide) BitVec.and_zero.symm

/-- A lead word whose extension words are not all there does not decode (spec/30_encoding.md R90). -/
theorem decode_missing {w0 : Word} {rest : List Word} (h : rest.length < lengthOfOpcode (opcodeOf w0) - 1) :
    decode (w0 :: rest) = .error .missingExtension := by
  simp [decode, h]

/-- Settles O10: in each case the words that are there do not decode, and a step with nothing to decode is a wait. -/
theorem truncatedCommandWaits : Obligations.TruncatedCommandWaits := by
  intro s hdue hidle hport
  suffices ∃ e, decode s.port = .error e by
    obtain ⟨e, he⟩ := this
    exact Machine.step_waits hdue hidle he
  rcases hport with hp | ⟨w0, ws, hp, hopc, hlen⟩ | ⟨w0, hp, hopc⟩
  · exact ⟨.noLeadWord, by rw [hp]; rfl⟩
  · exact ⟨.missingExtension, hp ▸ decode_missing (by rw [lengthOfOpcode, opcodeOf, hopc]; exact hlen)⟩
  · exact ⟨.missingExtension, hp ▸ decode_missing (by rw [lengthOfOpcode, opcodeOf, hopc]; decide)⟩

end Sys2Proof
end

section
/-! The invariant: what a tick, a micro-step and a move of CMD each keep of it. -/

namespace Sys2Proof.Machine

/-- The clauses of the invariant that do not look at CMD_INFLIGHT: they hold inside a command too, after each of its
micro-steps. -/
structure State.BodyInv (s : State) : Prop where
  fb_wf : Memory.wf s.fb
  fb_inside : ∀ c ∈ s.fb, c.1 < s.cfg.fbSize
  curCol_lt : s.curCol.toNat < s.cfg.cols
  curRow_lt : s.curRow.toNat < s.cfg.rows
  idle_acc : s.uExp = 0 → s.uAcc = 0
  running_timer : s.timerEn = s.running
  running_session : s.sessionOpen = s.running
  fs_low : s.fsLvl = false
  ll_low : s.llLvl = false
  refreshRow_lt : s.refreshRow.toNat < s.cfg.height

theorem State.Inv.body {s : State} (h : s.Inv) : s.BodyInv := { h with }

/-- The invariant, from its body and its clauses on the command in progress. -/
theorem State.BodyInv.inv {s : State} (h : s.BodyInv)
    (hc : ∀ c, s.inflight = some c → c.todo ≠ [] ∧ isAtomic c.command = false ∧ c.isOwn s.cfg) : s.Inv :=
  { h with
    inflight_todo := fun c e => (hc c e).1
    inflight_atomic := fun c e => (hc c e).2.1
    inflight_own := fun c e => (hc c e).2.2 }

theorem State.Inv.inflight {s : State} (h : s.Inv) (c : InFlight) (e : s.inflight = some c) :
    c.todo ≠ [] ∧ isAtomic c.command = false ∧ c.isOwn s.cfg :=
  ⟨h.inflight_todo c e, h.inflight_atomic c e, h.inflight_own c e⟩

/-- The body looks at nothing of CSP, CMD_INFLIGHT, the port and the tick arrivals. -/
theorem State.BodyInv.control {s : State} (h : s.BodyInv) (a : Nat) (b : Option InFlight) (p : List Word)
    (d : List Nat) : ({ s with csp := a, inflight := b, port := p, ticks := d } : State).BodyInv := { h with }

theorem State.BodyInv.fbWrite {s : State} (h : s.BodyInv) (a : Nat) (v : Byte) : (s.fbWrite a v).BodyInv := by
  rw [State.fbWrite_frame]
  exact { h with
    fb_wf := State.fbWrite_wf h.fb_wf a v
    fb_inside := fun c hc => by simpa using State.fbWrite_inside h.fb_inside a v c hc }

/-- A cursor coordinate that is not the last can be counted up. -/
theorem succ_toNat_of_lt {v : BitVec 10} {n : Nat} (hn : n ≤ 1024) (h : v.toNat < n - 1) :
    (v + 1).toNat = v.toNat + 1 := by
  rw [BitVec.toNat_add, Nat.mod_eq_of_lt (by simp; omega)]
  rfl

theorem countUp_toNat {v : BitVec 10} {n : Nat} (hn : n ≤ 1024) (h : v.toNat < n) :
    (if v.toNat < n - 1 then v + 1 else v).toNat = min (v.toNat + 1) (n - 1) := by
  split
  · next hlt => rw [succ_toNat_of_lt hn hlt]; omega
  · omega

/-- Every micro-step keeps the body of the invariant. -/
theorem State.BodyInv.effect {s : State} (h : s.BodyInv) (m : Micro) (v : Byte) : (m.effect v s).BodyInv := by
  have hcols := s.cfg.cols_bounds
  have hrows := s.cfg.rows_bounds
  cases m with
  | readByte a => exact h
  | writeBit a mask on => exact h.fbWrite a _
  | writeByte a b => exact h.fbWrite a b
  | respondBit pos => exact { h with }
  | respondByte => exact { h with }
  | respond bs => exact { h with }
  | readStatus => exact { h with }
  | decoderIdle => exact { h with idle_acc := fun _ => rfl }
  | decoderPend acc => exact { h with idle_acc := fun (e : (1 : BitVec 1) = 0) => absurd e (by decide) }
  | newLine =>
    have hrow : s.newLine.curRow.toNat < s.cfg.rows := by
      rw [State.newLine_curRow, countUp_toNat hrows.2.2 h.curRow_lt]; omega
    exact { h with curCol_lt := by show 0 < s.cfg.cols; omega, curRow_lt := hrow }
  | advance =>
    have hcol : s.advance.curCol.toNat < s.cfg.cols := by
      rw [State.advance_curCol, countUp_toNat hcols.2.2 h.curCol_lt]; omega
    exact { h with curCol_lt := hcol }
  | placeCursor col row =>
    exact { h with curCol_lt := clampCell_lt col hcols.1, curRow_lt := clampCell_lt row hrows.1 }
  | setUserGlyph n cols => exact { h with }
  | startRefresh period =>
    by_cases hp : period = 0#24
    · rw [hp, Micro.effect, State.startRefresh_zero]
      exact h
    · rw [Micro.effect, State.startRefresh_eq _ hp]
      have hsession : (if s.running then s.sessionOpen else true) = true := by
        cases hr : s.running <;> simp [h.running_session, hr]
      have := s.cfg.height_range
      exact { h with
        running_timer := rfl
        running_session := hsession
        refreshRow_lt := by show 0 < s.cfg.height; omega }
  | stopRefresh =>
    rw [Micro.effect, State.stopRefresh_eq]
    have hsession : (if s.running then false else s.sessionOpen) = false := by
      cases hr : s.running <;> simp [h.running_session, hr]
    exact { h with running_timer := rfl, running_session := hsession }

theorem State.BodyInv.runMicros {s : State} (h : s.BodyInv) (ms : List Micro) (v : Byte) :
    (runMicros ms v s).BodyInv :=
  runMicros_keeps (P := State.BodyInv) (fun m _ v _ h => h.effect m v) v h

/-- A tick keeps the invariant: the command in progress stays where it is (spec/60_exceptions.md R259). -/
theorem State.Inv.takeTick {s : State} (h : s.Inv) : s.takeTick.Inv := by
  cases hr : s.running
  · rw [State.takeTick_of_stopped hr]
    exact { h with }
  · rw [State.takeTick_of_running h hr]
    have hw := h.body.fbWrite (s.cfg.byteAddr s.refreshRow.toNat 0)
      (s.fbRead (s.cfg.byteAddr s.refreshRow.toNat 0) &&& ~~~s.cfg.dummyMask)
    have hh := s.cfg.height_range
    have hrow : (s.refreshRow.toNat + 1) % s.cfg.height < s.cfg.height := Nat.mod_lt _ (by omega)
    exact { h with
      fb_wf := hw.fb_wf
      fb_inside := fun c hc => by simpa using hw.fb_inside c hc
      refreshRow_lt := (nextRow_toNat s.cfg s.refreshRow.toNat).trans_lt hrow }

/-- START, STOP and RDSTAT have no StepPoint, so exec leaves none of them in progress (spec/20_memory.md R63). -/
theorem exec_inflight_not_atomic {i : Instr} {s t : State} {c : InFlight} (h : exec i s = .next t)
    (hc : t.inflight = some c) : isAtomic i = false := by
  have hone {m : Micro} (hm : microsOf i s = [m]) : t.inflight = none := by
    rw [exec_eq_issue, hm, issue_one] at h
    cases h
    rfl
  cases i with
  | start period => exact absurd (hone rfl) (by simp [hc])
  | stop => exact absurd (hone rfl) (by simp [hc])
  | rdstat => exact absurd (hone rfl) (by simp [hc])
  | _ => rfl

/-- Where a command that starts next stands, the invariant holds. -/
theorem State.Inv.exec {i : Instr} {s t : State} (h : s.BodyInv) (he : exec i s = .next t) : t.Inv := by
  have hbody : t.BodyInv := by
    obtain ⟨done, rest, n, v, -, hp⟩ := issue_prefix i (microsOf i s) s
    rw [exec_eq_issue, hp] at he
    cases he
    exact (h.runMicros done 0#8).control _ _ (Machine.runMicros done 0#8 s).port _
  have hcfg : t.cfg = s.cfg := by
    rw [exec_eq_issue] at he
    cases he
    exact State.issue_cfg s i _
  refine hbody.inv fun c hc => ?_
  obtain ⟨hcmd, htodo, -⟩ := exec_inflight_suffix he hc
  exact ⟨htodo, hcmd ▸ exec_inflight_not_atomic he hc, hcfg ▸ exec_inflight_own he hc⟩

/-- Where a command that goes on next stands, the invariant holds: what it has left is the end of what it had. -/
theorem State.Inv.resume {s : State} (h : s.Inv) {c : InFlight} (hc : s.inflight = some c) : (s.resume c).Inv := by
  obtain ⟨done, rest, n, v, hd, he⟩ := resume_prefix c s
  have hbody : (s.resume c).BodyInv := by
    rw [he]
    exact (h.body.runMicros done c.latch).control _ _ (runMicros done c.latch s).port _
  refine hbody.inv fun d hd' => ?_
  obtain ⟨-, hatomic, hown⟩ := h.inflight c hc
  rw [State.resume_cfg]
  by_cases hr : rest = []
  · simp [he, hr] at hd'
  · simp only [he, hr, if_false, Option.some.injEq] at hd'
    subst hd'
    exact ⟨hr, hatomic, hown.tail rfl ⟨done, hd.symm⟩⟩

/-- Settles O15: each of the four moves of the machine keeps the invariant. -/
theorem stepKeepsTheInvariant : Obligations.StepKeepsTheInvariant := by
  intro s t h hstep
  rcases step_cases s with ⟨-, he⟩ | ⟨-, c, hc, he⟩ | ⟨-, -, i, rest, -, he⟩ | ⟨-, -, -, he⟩ <;>
    cases hstep.symm.trans he
  case inl => exact h.takeTick
  case inr.inl => exact h.resume hc
  case inr.inr.inl => exact State.Inv.exec (i := i) (s := { s with port := rest }) { h.body with } (exec_eq_issue i _)
  case inr.inr.inr => exact { h with }

/-- Settles O16: reset clears every register, and the framebuffer's bytes meet the invariant by hypothesis; the
reference state lists no byte at all. -/
theorem resetMeetsTheInvariant : Obligations.ResetMeetsTheInvariant := by
  have hreset (cfg : Config) (fb : Memory) (ug : Vector GlyphCols 8) (hwf : Memory.wf fb)
      (hin : ∀ c ∈ fb, c.1 < cfg.fbSize) : (State.resetWith cfg fb ug).Inv := by
    have hh := cfg.height_range
    have hbody : (State.resetWith cfg fb ug).BodyInv :=
      ⟨hwf, hin, cfg.cols_bounds.1, cfg.rows_bounds.1, fun _ => rfl, rfl, rfl, rfl, rfl, by show 0 < cfg.height; omega⟩
    exact hbody.inv fun c (hc : none = some c) => absurd hc (by simp)
  exact ⟨hreset, hreset _ _ _ Memory.wf_nil (by simp)⟩

/-- Settles O60: a strobe output is at its active level exactly when its logical level is 1, and the invariant has both
levels 0. -/
theorem strobeOutputsRestDeasserted : Obligations.StrobeOutputsRestDeasserted := by
  have hrest (s : State) (h : s.Inv) : s.fsPin = !s.cfg.fsActive ∧ s.llPin = !s.cfg.llActive := by
    simp [State.fsPin, State.llPin, h.fs_low, h.ll_low]
  refine ⟨fun s => ?levels, hrest, fun s t h hstep => ?afterStep⟩
  case levels =>
    unfold State.fsPin State.llPin
    cases s.fsLvl <;> cases s.llLvl <;> simp
  case afterStep =>
    rw [← noStepChangesTheConfiguration s t hstep]
    exact hrest t (stepKeepsTheInvariant s t h hstep)

end Sys2Proof.Machine
end

section
/-! The machine's moves: what a step does, that it always answers, and that a command comes to its end. -/

namespace Sys2Proof.Machine

/-- Settles O8: it is the step's move with no tick due and nothing in progress. -/
theorem stepRunsTheDecodedCommand : Obligations.StepRunsTheDecodedCommand :=
  fun _ _ _ hdue hidle hdec => step_decoded hdue hidle hdec

theorem State.withFetchWord_tickDue (s : State) (nbits w : Nat) : (s.withFetchWord nbits w).tickDue = false := by
  rw [State.tickDue_false_iff]
  show (if s.tickDue then 0 :: s.ticks.tail else s.ticks).headD 0 = 0
  split
  · rfl
  · next hdue => exact (State.tickDue_false_iff s).1 (by simpa using hdue)

/-- The three words an instruction is laid out in are enough for any command, so what follows them is not looked at. -/
theorem decode_tableWords (nbits w : Nat) :
    ∃ i, ∀ ws, decode (tableWords nbits w ++ ws) = .ok (i, (tableWords nbits w ++ ws).drop i.words) :=
  ⟨_, decode_three _ _ _⟩

/-- Settles O9: what is placed on the port decodes to the same command before any other words. -/
theorem fetchWordRunsNext : Obligations.FetchWordRunsNext := by
  intro s nbits w i h
  obtain ⟨j, hj⟩ := decode_tableWords nbits w
  have hji : j = i := by
    rw [decodeTableWord, ← List.append_nil (tableWords nbits w), hj] at h
    exact Option.some.inj h
  exact step_decoded (s.withFetchWord_tickDue nbits w) rfl (hji ▸ hj (s.port.drop 3))

/-- Settles O11: the tick's step changes nothing on CMD's side. -/
theorem takingATickSavesNothing : Obligations.TakingATickSavesNothing := by
  intro s hdue
  obtain ⟨hinflight, hcsp, hport, hresp, hrunning, htimer, -, htext⟩ := s.tick_command
  exact ⟨s.takeTick, step_tick hdue, hinflight, hcsp, { htext with }, hresp, hport, s.takeTick_cfg, htimer,
    hrunning, rfl⟩

/-- What is left of a command is the end of what it had: every micro-step and every tick keeps that. -/
theorem kept_suffix (todo : List Micro) : Kept fun _ ms _ => ms <:+ todo where
  control _ _ _ _ _ _ _ h := h
  micro _ _ _ _ h := (List.suffix_cons _ _).trans h
  tick _ _ _ h := h

/-- Settles O12: what is left of the command shrinks to an end of what it was. -/
theorem commandResumesWhereItWas : Obligations.CommandResumesWhereItWas := by
  rintro s ⟨i, todo, v⟩ hdue hc
  refine ⟨_, step_resume hdue hc, ?_⟩
  rcases (kept_suffix todo).resume (i := i) (v := v) (s := s) (List.suffix_refl todo) with
    ⟨-, hnone, hcsp, hport, -, -⟩ | ⟨c, hsome, hcmd, hlt, hcsp, hport, -, hsuffix, -⟩
  · exact ⟨hport, .inl ⟨hnone, hcsp⟩⟩
  · exact ⟨hport, .inr ⟨c, hsome, hcmd, hcsp, hlt, List.suffix_iff_eq_drop.1 hsuffix⟩⟩

/-- Settles O13: every meaning is the issue of micro-steps, and each of the machine's four moves answers. -/
theorem nothingEverFaults : Obligations.NothingEverFaults := by
  refine ⟨fun i s => ⟨_, exec_eq_issue i s⟩, fun s => ?_⟩
  rcases step_cases s with ⟨-, he⟩ | ⟨-, _, -, he⟩ | ⟨-, -, _, _, -, he⟩ | ⟨-, -, -, he⟩ <;> exact ⟨_, he⟩

theorem kept_true : Kept fun _ _ _ => True where
  control _ _ _ _ _ _ _ h := h
  micro _ _ _ _ h := h
  tick _ _ _ h := h

/-- Settles O14: a command comes to its end among ticks, with nothing asked of it on the way. -/
theorem everyCommandRunsToCompletion : Obligations.EveryCommandRunsToCompletion := by
  intro s i rest hidle hdec
  obtain ⟨k, t, -, hk, hreach, hnone, hcsp, hport, -⟩ := kept_true.command hidle hdec fun _ _ _ _ _ => trivial
  exact ⟨k, t, hk, hreach, hnone, hcsp, hport⟩

/-- Settles O7: none of these commands has a micro-step. -/
theorem nopAndReservedOnlyAdvance : Obligations.NopAndReservedOnlyAdvance := by
  intro s opc i hi
  simp only [List.mem_cons, List.not_mem_nil, or_false] at hi
  rcases hi with rfl | rfl | rfl | rfl | rfl | rfl <;> exact exec_of_no_micros rfl rfl

end Sys2Proof.Machine
end

section
/-! The output streams grow at their ends (spec/10_state.md R38 and R39), and no command word is lost (R21). -/

namespace Sys2Proof.Machine

/-- Both output streams of `t` begin with those of `s`. -/
def Grows (s t : State) : Prop := s.resp <+: t.resp ∧ s.trace <+: t.trace

theorem Grows.refl (s : State) : Grows s s := ⟨List.prefix_refl _, List.prefix_refl _⟩

theorem Grows.trans {s t u : State} (h : Grows s t) (h' : Grows t u) : Grows s u :=
  ⟨h.1.trans h'.1, h.2.trans h'.2⟩

theorem grows_of_eq {s t : State} (hr : t.resp = s.resp) (ht : t.trace = s.trace) : Grows s t :=
  ⟨hr ▸ List.prefix_refl _, ht ▸ List.prefix_refl _⟩

theorem grows_respond (s : State) (bs : List Byte) : Grows s (s.respond bs) :=
  ⟨List.prefix_append _ _, List.prefix_refl _⟩

theorem Micro.effect_grows (m : Micro) (v : Byte) (s : State) : Grows s (m.effect v s) := by
  cases m with
  | writeBit a mask on => exact grows_of_eq (State.fbWrite_resp ..) (State.fbWrite_trace ..)
  | writeByte a b => exact grows_of_eq (State.fbWrite_resp ..) (State.fbWrite_trace ..)
  | respondBit pos => exact grows_respond s _
  | respondByte => exact grows_respond s _
  | respond bs => exact grows_respond s bs
  | readStatus => exact grows_respond s _
  | startRefresh period =>
    by_cases hp : period = 0#24
    · rw [hp, Micro.effect, State.startRefresh_zero]
      exact Grows.refl s
    · rw [Micro.effect, State.startRefresh_eq _ hp]
      exact ⟨List.prefix_refl _, List.prefix_append _ _⟩
  | stopRefresh =>
    rw [Micro.effect, State.stopRefresh_eq]
    exact ⟨List.prefix_refl _, List.prefix_append _ _⟩
  | _ => exact Grows.refl s

theorem State.resume_grows (s : State) (c : InFlight) : Grows s (s.resume c) :=
  resume_keeps (P := Grows s) (fun m _ v u h => h.trans (m.effect_grows v u)) (fun _ h => h) (fun _ h => h)
    (fun _ _ _ _ _ h => h) (Grows.refl s)

/-- A tick responds nothing, and emits its events after those there. -/
theorem State.takeTick_grows (s : State) : Grows s s.takeTick := by
  refine ⟨s.takeTick_resp ▸ List.prefix_refl _, ?_⟩
  show s.trace <+: s.tick.trace
  unfold State.tick
  split
  · exact List.prefix_refl _
  · simp only [State.transmitRow, State.clearDummyBits, State.sendRow, State.pulseLatch]
    split <;> simp [List.append_assoc]

/-- Settles O19: each of the four moves of the machine only appends. -/
theorem outputStreamsOnlyGrow : Obligations.OutputStreamsOnlyGrow := by
  intro s t h
  rcases step_cases s with ⟨-, he⟩ | ⟨-, c, -, he⟩ | ⟨-, -, i, rest, -, he⟩ | ⟨-, -, -, he⟩ <;>
    cases h.symm.trans he
  case inl => exact s.takeTick_grows
  case inr.inl => exact s.resume_grows c
  case inr.inr.inl => exact State.resume_grows { s with port := rest } ⟨i, _, 0#8⟩
  case inr.inr.inr => exact Grows.refl s

/-- Going on with a command reads no word, and either counts its words or leaves them in progress. -/
theorem State.resume_words (s : State) (c : InFlight) :
    (s.resume c).csp + (s.resume c).wordsInFlight = s.csp + c.command.words ∧ (s.resume c).port = s.port := by
  obtain ⟨done, rest, n, v, -, he⟩ := resume_prefix c s
  by_cases hr : rest = [] <;> simp [he, hr, State.wordsInFlight]

/-- Settles O20: a tick and a wait move no word, a command that starts takes its words off the port, and a command that
ends counts them. -/
theorem commandWordsAreConserved : Obligations.CommandWordsAreConserved := by
  intro s t h
  rcases step_cases s with ⟨-, he⟩ | ⟨-, c, hc, he⟩ | ⟨-, hidle, i, rest, hdec, he⟩ | ⟨-, -, -, he⟩ <;>
    cases h.symm.trans he
  case inl => simp [State.wordsInFlight]
  case inr.inl =>
    obtain ⟨hwords, hport⟩ := s.resume_words c
    have hs : s.wordsInFlight = c.command.words := by simp [State.wordsInFlight, hc]
    rw [hwords, hport, hs]
  case inr.inr.inl =>
    obtain ⟨hwords, hport⟩ := State.resume_words { s with port := rest } ⟨i, microsOf i { s with port := rest }, 0#8⟩
    obtain ⟨hlen, -, -⟩ := decode_ok hdec
    have hs : s.wordsInFlight = 0 := by simp [State.wordsInFlight, hidle]
    rw [State.issue, hwords, hport, hs, hlen]
    show s.csp + i.words + rest.length = _
    omega
  case inr.inr.inr => rfl

end Sys2Proof.Machine
end

section
/-! Which command writes what (spec/10_state.md R22 to R39). Starting a command and going on with one are the same move
over different micro-steps, so each fact is stated once, about the micro-steps CMD has before it. -/

namespace Sys2Proof.Machine

theorem exec_eq_resume {i : Instr} {s t : State} (h : exec i s = .next t) :
    t = s.resume ⟨i, microsOf i s, 0#8⟩ :=
  (Host.Outcome.next.inj ((exec_eq_issue i s).symm.trans h)).symm

theorem step_eq_resume {s t : State} {c : InFlight} (hdue : s.tickDue = false) (hc : s.inflight = some c)
    (h : step s = .next t) : t = s.resume c :=
  (Host.Outcome.next.inj ((step_resume hdue hc).symm.trans h)).symm

/-- What a command in progress has left is of its own kinds of micro-step. -/
theorem State.Inv.todo_subset {s : State} (h : s.Inv) {c : InFlight} (hc : s.inflight = some c) :
    ∃ s0 : State, ∀ m ∈ c.todo, m ∈ microsOf c.command s0 := by
  obtain ⟨s0, -, hsuffix⟩ := (h.inflight_own c hc).suffix
  exact ⟨s0, fun _ hm => hsuffix.subset hm⟩

/-! ## The refresh state -/

theorem SameRefresh.refl (s : State) : SameRefresh s s := ⟨rfl, rfl, rfl, rfl, rfl, rfl, rfl, rfl⟩

theorem SameRefresh.trans {s t u : State} (h : SameRefresh s t) (h' : SameRefresh t u) : SameRefresh s u where
  running := h'.running.trans h.running
  refreshRow := h'.refreshRow.trans h.refreshRow
  timerPeriod := h'.timerPeriod.trans h.timerPeriod
  timerEn := h'.timerEn.trans h.timerEn
  sessionOpen := h'.sessionOpen.trans h.sessionOpen
  fsLvl := h'.fsLvl.trans h.fsLvl
  llLvl := h'.llLvl.trans h.llLvl
  trace := h'.trace.trans h.trace

theorem State.resume_sameRefresh {s : State} {c : InFlight}
    (h : ∀ m ∈ c.todo, (∀ p, m ≠ .startRefresh p) ∧ m ≠ .stopRefresh) : SameRefresh s (s.resume c) :=
  resume_keeps (P := SameRefresh s)
    (fun m hm v t ht => ht.trans (m.effect_sameRefresh v t (h m hm).1 (h m hm).2))
    (fun _ ht => { ht with }) (fun _ ht => { ht with }) (fun _ _ _ _ _ ht => { ht with }) (SameRefresh.refl s)

/-- Settles O21: of all micro-steps only START's and STOP's touch the refresh state, and neither command is ever in
progress. -/
theorem onlyStartAndStopTouchTheRefreshState : Obligations.OnlyStartAndStopTouchTheRefreshState := by
  refine ⟨fun i s t h hstart hstop => ?started, fun s t c hinv hdue hc h => ?resumed⟩
  case started =>
    rw [exec_eq_resume h]
    exact State.resume_sameRefresh (microsOf_refresh hstart hstop)
  case resumed =>
    rw [step_eq_resume hdue hc h]
    obtain ⟨s0, hsub⟩ := hinv.todo_subset hc
    have hatomic := hinv.inflight_atomic c hc
    have hstart : ∀ p, c.command ≠ .start p := fun p e => by simp [e, isAtomic] at hatomic
    have hstop : c.command ≠ .stop := fun e => by simp [e, isAtomic] at hatomic
    exact State.resume_sameRefresh fun m hm => microsOf_refresh hstart hstop m (hsub m hm)

/-! ## CMD's own state -/

theorem WritesOnlyItsPart.refl (i : Instr) (s : State) : WritesOnlyItsPart i s s :=
  ⟨fun _ _ _ _ _ => rfl, fun _ => rfl, fun _ _ _ => ⟨rfl, rfl⟩, fun _ => ⟨rfl, rfl⟩, rfl, rfl⟩

theorem WritesOnlyItsPart.trans {i : Instr} {s t u : State} (h : WritesOnlyItsPart i s t)
    (h' : WritesOnlyItsPart i t u) : WritesOnlyItsPart i s u where
  fb h1 h2 h3 h4 h5 := (h'.fb h1 h2 h3 h4 h5).trans (h.fb h1 h2 h3 h4 h5)
  ug h1 := (h'.ug h1).trans (h.ug h1)
  cursor h1 h2 h3 :=
    ⟨(h'.cursor h1 h2 h3).1.trans (h.cursor h1 h2 h3).1, (h'.cursor h1 h2 h3).2.trans (h.cursor h1 h2 h3).2⟩
  decoder h1 := ⟨(h'.decoder h1).1.trans (h.decoder h1).1, (h'.decoder h1).2.trans (h.decoder h1).2⟩
  cfg := h'.cfg.trans h.cfg
  port := h'.port.trans h.port

/-! Which commands have each kind of micro-step that writes CMD's own state. -/

section
variable {i : Instr}

theorem uses_writeBit {a : Nat} {k : Byte} {o : Bool} (h : mayUse i (.writeBit a k o) = true) :
    (∃ x y on, i = .setpix x y on) ∨ (∃ b, i = .write b) ∨ ∃ g, i = .wglyph g := by
  cases i with
  | setpix x y on => exact .inl ⟨x, y, on, rfl⟩
  | write b => exact .inr (.inl ⟨b, rfl⟩)
  | wglyph g => exact .inr (.inr ⟨g, rfl⟩)
  | _ => exact Bool.noConfusion h

theorem uses_writeByte {a : Nat} {b : Byte} (h : mayUse i (.writeByte a b) = true) :
    i = .clear ∨ ∃ n v, i = .wrfb n v := by
  cases i with
  | clear => exact .inl rfl
  | wrfb n v => exact .inr ⟨n, v, rfl⟩
  | _ => exact Bool.noConfusion h

theorem uses_setUserGlyph {n : Fin 8} {cols : GlyphCols} (h : mayUse i (.setUserGlyph n cols) = true) :
    ∃ k bm, i = .setug k bm := by
  cases i with
  | setug k bm => exact ⟨k, bm, rfl⟩
  | _ => exact Bool.noConfusion h

theorem uses_placeCursor {col row : BitVec 10} (h : mayUse i (.placeCursor col row) = true) :
    ∃ c r, i = .setcur c r := by
  cases i with
  | setcur c r => exact ⟨c, r, rfl⟩
  | _ => exact Bool.noConfusion h

theorem uses_advance (h : mayUse i .advance = true) : (∃ b, i = .write b) ∨ ∃ g, i = .wglyph g := by
  cases i with
  | write b => exact .inl ⟨b, rfl⟩
  | wglyph g => exact .inr ⟨g, rfl⟩
  | _ => exact Bool.noConfusion h

theorem uses_newLine (h : mayUse i .newLine = true) : ∃ b, i = .write b := by
  cases i with
  | write b => exact ⟨b, rfl⟩
  | _ => exact Bool.noConfusion h

theorem uses_decoderIdle (h : mayUse i .decoderIdle = true) : ∃ b, i = .write b := by
  cases i with
  | write b => exact ⟨b, rfl⟩
  | _ => exact Bool.noConfusion h

theorem uses_decoderPend {acc : BitVec 5} (h : mayUse i (.decoderPend acc) = true) : ∃ b, i = .write b := by
  cases i with
  | write b => exact ⟨b, rfl⟩
  | _ => exact Bool.noConfusion h

end

/-- A micro-step of a command writes nothing but what the spec lets that command write. -/
theorem Micro.effect_writesOnlyItsPart {i : Instr} {m : Micro} (h : mayUse i m = true) (v : Byte) (s : State) :
    WritesOnlyItsPart i s (m.effect v s) := by
  have hsame := WritesOnlyItsPart.refl i s
  cases m with
  | writeBit a k o =>
    rw [Micro.effect, State.fbWrite_frame]
    refine { hsame with fb := fun _ hsetpix _ hwrite hwglyph => ?_ }
    rcases uses_writeBit h with ⟨x, y, on, e⟩ | ⟨b, e⟩ | ⟨g, e⟩
    · exact absurd e (hsetpix x y on)
    · exact absurd e (hwrite b)
    · exact absurd e (hwglyph g)
  | writeByte a b =>
    rw [Micro.effect, State.fbWrite_frame]
    refine { hsame with fb := fun hclear _ hwrfb _ _ => ?_ }
    rcases uses_writeByte h with e | ⟨n, v, e⟩
    · exact absurd e hclear
    · exact absurd e (hwrfb n v)
  | setUserGlyph n cols =>
    obtain ⟨k, bm, e⟩ := uses_setUserGlyph h
    exact { hsame with ug := fun hsetug => absurd e (hsetug k bm) }
  | placeCursor col row =>
    obtain ⟨c, r, e⟩ := uses_placeCursor h
    exact { hsame with cursor := fun hsetcur _ _ => absurd e (hsetcur c r) }
  | newLine =>
    obtain ⟨b, e⟩ := uses_newLine h
    exact { hsame with cursor := fun _ hwrite _ => absurd e (hwrite b) }
  | advance =>
    refine { hsame with cursor := fun _ hwrite hwglyph => ?_ }
    rcases uses_advance h with ⟨b, e⟩ | ⟨g, e⟩
    · exact absurd e (hwrite b)
    · exact absurd e (hwglyph g)
  | decoderIdle =>
    obtain ⟨b, e⟩ := uses_decoderIdle h
    exact { hsame with decoder := fun hwrite => absurd e (hwrite b) }
  | decoderPend acc =>
    obtain ⟨b, e⟩ := uses_decoderPend h
    exact { hsame with decoder := fun hwrite => absurd e (hwrite b) }
  | startRefresh period =>
    by_cases hp : period = 0#24
    · rw [hp, Micro.effect, State.startRefresh_zero]
      exact hsame
    · rw [Micro.effect, State.startRefresh_eq _ hp]
      exact { hsame with }
  | stopRefresh =>
    rw [Micro.effect, State.stopRefresh_eq]
    exact { hsame with }
  | _ => exact { hsame with }

theorem State.resume_writesOnlyItsPart {s : State} {c : InFlight} (h : ∀ m ∈ c.todo, mayUse c.command m = true) :
    WritesOnlyItsPart c.command s (s.resume c) :=
  resume_keeps (P := WritesOnlyItsPart c.command s)
    (fun m hm v t ht => ht.trans (m.effect_writesOnlyItsPart (h m hm) v t))
    (fun _ ht => { ht with }) (fun _ ht => { ht with }) (fun _ _ _ _ _ ht => { ht with })
    (WritesOnlyItsPart.refl c.command s)

/-- Settles O22: each micro-step of a command is of a kind the command has, whether it starts or goes on. -/
theorem onlyTheNamedCommandsWriteEachPart : Obligations.OnlyTheNamedCommandsWriteEachPart := by
  refine ⟨fun i s t h => ?started, fun s t c hinv hdue hc h => ?resumed⟩
  case started =>
    rw [exec_eq_resume h]
    exact State.resume_writesOnlyItsPart (c := ⟨i, microsOf i s, 0#8⟩) (microsOf_mayUse i s)
  case resumed =>
    rw [step_eq_resume hdue hc h]
    obtain ⟨s0, hsub⟩ := hinv.todo_subset hc
    exact State.resume_writesOnlyItsPart fun m hm => microsOf_mayUse c.command s0 m (hsub m hm)

/-! ## The response -/

/-- The whole response comes with the last micro-step: silent micro-steps before it, and a last one that appends as many
bytes as the command answers. -/
def EndsWithResponse (i : Instr) (ms : List Micro) : Prop :=
  (responseLength i = 0 ∧ ∀ m ∈ ms, m.isSilent = true) ∨
  ∃ pre last, ms = pre ++ [last] ∧ (∀ m ∈ pre, m.isSilent = true) ∧
    ∀ v t, ∃ bs, (last.effect v t).resp = t.resp ++ bs ∧ bs.length = responseLength i ∧ ∀ b, i = .write b → bs = [0x01]

theorem EndsWithResponse.suffix {i : Instr} {ms todo : List Micro} (h : EndsWithResponse i ms) (hs : todo <:+ ms)
    (hne : todo ≠ []) : EndsWithResponse i todo := by
  rcases h with ⟨hlen, hsilent⟩ | ⟨pre, last, rfl, hsilent, hlast⟩
  · exact .inl ⟨hlen, fun m hm => hsilent m (hs.subset hm)⟩
  · rcases List.suffix_concat_iff.1 hs with hnil | ⟨pre', rfl, hpre⟩
    · exact absurd hnil hne
    · exact .inr ⟨pre', last, rfl, fun m hm => hsilent m (hpre.subset hm), hlast⟩

theorem State.resume_answersAtItsEnd {s : State} {c : InFlight} (h : EndsWithResponse c.command c.todo) :
    AnswersAtItsEnd c.command s (s.resume c) := by
  obtain ⟨done, rest, n, v, hd, he⟩ := resume_prefix c s
  have hresp : (s.resume c).resp = (runMicros done c.latch s).resp := by rw [he]
  have hnone : (s.resume c).inflight = none ↔ rest = [] := by
    rw [he]
    by_cases hr : rest = [] <;> simp [hr]
  unfold AnswersAtItsEnd
  rw [hresp, hnone, Ne, hnone]
  rcases h with ⟨hlen, hsilent⟩ | ⟨pre, last, hpre, hsilent, hlast⟩
  · have hquiet := runMicros_resp_silent (fun m hm => hsilent m (by rw [hd]; exact List.mem_append_left _ hm)) c.latch s
    refine ⟨[], by rw [hquiet, List.append_nil], fun _ => ⟨hlen.symm, fun b e => ?_⟩, fun _ => rfl⟩
    simp [e, responseLength] at hlen
  · by_cases hr : rest = []
    · obtain rfl : done = pre ++ [last] := by rw [← hpre, hd, hr, List.append_nil]
      obtain ⟨bs, hbs, hlen, hwrite⟩ := hlast (latchMicros pre c.latch s) (runMicros pre c.latch s)
      refine ⟨bs, ?_, fun _ => ⟨hlen, hwrite⟩, fun hr' => absurd hr hr'⟩
      rw [runMicros_append, runMicros_cons, runMicros_nil, hbs, runMicros_resp_silent hsilent]
    · have hdone : done <+: pre := by
        rcases List.prefix_concat_iff.1 (show done <+: pre ++ [last] from ⟨rest, by rw [← hd, hpre]⟩) with e | hp
        · exact absurd (List.self_eq_append_right.1 (e.trans (hpre.symm.trans hd))) hr
        · exact hp
      have hquiet := runMicros_resp_silent (fun m hm => hsilent m (hdone.subset hm)) c.latch s
      exact ⟨[], by rw [hquiet, List.append_nil], fun hr' => absurd hr' hr, fun _ => rfl⟩

/-- Settles O23: the micro-steps before the last are silent in every command, so CMD stands before its response or has
given it whole. -/
theorem responsesComeFromFiveCommands : Obligations.ResponsesComeFromFiveCommands := by
  refine ⟨fun i s t h => ?started, fun s t c hinv hdue hc h => ?resumed, rfl⟩
  case started =>
    rw [exec_eq_resume h]
    exact State.resume_answersAtItsEnd (c := ⟨i, microsOf i s, 0#8⟩) (microsOf_responds i s)
  case resumed =>
    rw [step_eq_resume hdue hc h]
    obtain ⟨s0, -, hsuffix⟩ := (hinv.inflight_own c hc).suffix
    exact State.resume_answersAtItsEnd
      (EndsWithResponse.suffix (microsOf_responds c.command s0) hsuffix (hinv.inflight_todo c hc))

/-! ## Dummy bits and pad bits -/

/-- The byte a following write of a pixel's bit writes back is the stored one: what holds inside a command while no tick
falls between its micro-steps. -/
def LatchCurrent (v : Byte) (ms : List Micro) (s : State) : Prop :=
  ∀ addr mask on rest, ms = .writeBit addr mask on :: rest → v = s.fbRead addr ∧ ∃ x y, OnPixel s.cfg addr mask x y

theorem LatchCurrent.of_fresh {v : Byte} {ms : List Micro} {s : State} (h : Fresh ms) : LatchCurrent v ms s :=
  fun addr mask on rest e => absurd e (h addr mask on rest)

theorem LatchCurrent.next {m : Micro} {ms : List Micro} {v : Byte} {s : State} (h : Paired s.cfg (m :: ms)) :
    LatchCurrent (m.latch v s) ms (m.effect v s) := by
  intro addr mask on rest e
  obtain ⟨rfl, hpixel⟩ := h.1 addr mask on rest e
  exact ⟨rfl, hpixel⟩

/-- The write of a pixel's bit, its byte just read, is a pixel write. -/
theorem writeBit_eq_putPixel {s : State} {x y : Nat} (h : s.cfg.inDisplay x y) (on : Bool) :
    (Micro.writeBit (s.cfg.pixelAddr x y) (s.cfg.pixelMask x) on).effect (s.fbRead (s.cfg.pixelAddr x y)) s =
      s.putPixel x y on := by
  unfold State.putPixel
  rw [if_pos h]
  rfl

/-- A micro-step that writes no whole byte changes no bit outside the pixels. -/
theorem Micro.effect_rawBit_unmapped {s : State} {m : Micro} {ms : List Micro} {v : Byte} (hw : Memory.wf s.fb)
    (hl : LatchCurrent v (m :: ms) s) (hm : ∀ a b, m ≠ .writeByte a b) (r p : Nat) (hp : p < 8 * s.cfg.bpr)
    (hu : p < s.cfg.dummyBits ∨ s.cfg.dummyBits + s.cfg.width ≤ p) : (m.effect v s).rawBit r p = s.rawBit r p := by
  cases m with
  | writeBit addr mask on =>
    obtain ⟨rfl, x, y, hin, rfl, rfl⟩ := hl addr mask on ms rfl
    rw [writeBit_eq_putPixel hin, State.putPixel_rawBit hw x y on r p hp, if_neg]
    rintro ⟨-, -, rfl⟩
    have := s.cfg.pixelPos_range hin.1
    omega
  | writeByte a b => exact absurd rfl (hm a b)
  | startRefresh period =>
    by_cases hz : period = 0#24
    · rw [hz, Micro.effect, State.startRefresh_zero]
    · rw [Micro.effect, State.startRefresh_eq _ hz]
      rfl
  | stopRefresh =>
    rw [Micro.effect, State.stopRefresh_eq]
    rfl
  | _ => rfl

theorem runMicros_rawBit_unmapped {xs ys : List Micro} {v : Byte} {s : State} (hw : Memory.wf s.fb)
    (hpair : Paired s.cfg (xs ++ ys)) (hl : LatchCurrent v (xs ++ ys) s) (hm : ∀ m ∈ xs, ∀ a b, m ≠ .writeByte a b)
    (r p : Nat) (hp : p < 8 * s.cfg.bpr) (hu : p < s.cfg.dummyBits ∨ s.cfg.dummyBits + s.cfg.width ≤ p) :
    (runMicros xs v s).rawBit r p = s.rawBit r p := by
  induction xs generalizing v s with
  | nil => rfl
  | cons m xs ih =>
    have hcfg : (m.effect v s).cfg = s.cfg := m.effect_cfg v s
    rw [runMicros_cons, ih (m.effect_wf v hw) (hcfg ▸ hpair.tail) (.next hpair) (fun m' h' => hm m' (by simp [h']))
      (by rwa [hcfg]) (by rwa [hcfg])]
    exact m.effect_rawBit_unmapped hw hl (hm m (by simp)) r p hp hu

/-- Settles O24: every other command writes the framebuffer by pixel writes alone, each on the byte it has just read, as
no tick is taken inside exec. -/
theorem onlyClearAndWrfbChangeDummyAndPadBits : Obligations.OnlyClearAndWrfbChangeDummyAndPadBits := by
  intro i s t hw h hclear hwrfb r p hp hu
  obtain ⟨done, rest, n, v, hd, he⟩ := issue_prefix i (microsOf i s) s
  obtain ⟨hpair, hfresh⟩ := paired_microsOf i s
  have hbyte : ∀ m ∈ done, ∀ a b, m ≠ .writeByte a b := by
    rintro m hm a b rfl
    have hmem : Micro.writeByte a b ∈ microsOf i s := hd ▸ List.mem_append_left rest hm
    rcases uses_writeByte (microsOf_mayUse i s _ hmem) with e | ⟨n, v, e⟩
    · exact hclear e
    · exact hwrfb n v e
  rw [exec_eq_issue] at h
  cases h
  rw [he]
  exact runMicros_rawBit_unmapped (ys := rest) hw (hd ▸ hpair) (.of_fresh (hd ▸ hfresh)) hbyte r p hp hu

end Sys2Proof.Machine
end

section
/-! The geometry: dummy mask, pixel transform and character cells (spec/20_memory.md R51 to R53,
spec/42_text.md R173). -/

namespace Sys2Proof

theorem Config.pixelPos_lt_bits (c : Config) {x : Nat} (hx : x < c.width) : c.pixelPos x < 8 * c.bpr := by
  have := c.pixelPos_range hx
  have := c.bpr_bits
  omega

theorem Config.fbSize_pos (c : Config) : 0 < c.fbSize := by
  have := c.height_range
  have := c.fbSize_ge_height
  omega

/-- Settles O25: bit by bit for the first clause, value by value of DB for the second. -/
theorem dummyMaskSelectsTheTopBits : Obligations.DummyMaskSelectsTheTopBits := by
  refine fun c => ⟨fun j hj => by rw [c.dummyMask_getLsbD, decide_eq_true_iff]; exact and_iff_left hj, ?values⟩
  case values =>
    have hd := c.dummyBits_range
    unfold Config.dummyMask
    generalize c.dummyBits = db at hd
    interval_cases db <;> rfl

theorem bitMask_inj {p q : Nat} (h : bitMask p = bitMask q) : p % 8 = q % 8 := by
  have hbit := congrArg (fun b => b.getLsbD (7 - p % 8)) h
  simp only [bitMask_getLsbD] at hbit
  have := of_decide_eq_true (hbit.symm.trans (by simp))
  omega

/-- Settles O26: byte and mask give the row and the position back, and the position gives the column back. -/
theorem pixelTransformIsABijection : Obligations.PixelTransformIsABijection := by
  refine fun c => ⟨fun x hx => c.pixelPos_range hx, ?onto, ?injective, fun x y h => c.pixelAddr_lt h.1 h.2⟩
  case onto =>
    intro p hp hp'
    refine ⟨c.dummyBits + c.width - 1 - p, by omega, ?_⟩
    unfold Config.pixelPos
    omega
  case injective =>
    intro x y x' y' h h' haddr hmask
    obtain ⟨hy, hbyte⟩ := c.byteAddr_inj (c.pixelPos_div_lt h.1) (c.pixelPos_div_lt h'.1) haddr
    have hbit := bitMask_inj hmask
    exact ⟨c.pixelPos_inj h.1 h'.1 (by omega), hy⟩

/-- Settles O28: a cell is 6 by 8 pixels of the first COLS·6 columns and ROWS·8 rows. -/
theorem cellsLieOnTheDisplay : Obligations.CellsLieOnTheDisplay := by
  refine fun c => ⟨c.cols_bounds.1, c.rows_bounds.1, ?inside, ?columns, ?rows⟩
  case inside =>
    intro col row x y hcol hrow _ hx _ hy
    exact c.cell_inDisplay hcol hrow (by omega) (by omega)
  case columns => intro col x hx hcol; omega
  case rows => intro row y hy hrow; omega

end Sys2Proof
end

section
/-! Pixels and raw framebuffer access, not interrupted (spec/40_pixel.md). -/

namespace Sys2Proof.Machine

/-- SETPIX in range that no tick interrupts is one pixel write (spec/40_pixel.md R113). -/
theorem exec_setpix_quiet {s : State} {x y : BitVec 10} (on : Bool) (hq : s.quiet 1)
    (h : s.cfg.inDisplay x.toNat y.toNat) :
    exec (.setpix x y on) s = .next { s.putPixel x.toNat y.toNat on with
      csp := s.csp + 1, inflight := none, ticks := s.ticks.drop 2 } :=
  exec_done (i := .setpix x y on) (pixWrite_length h on) hq (runMicros_pixWrite s _ _ on 0#8)

/-- A pixel that was just written holds what was written. -/
theorem State.putPixel_rawBit_same {s : State} (hw : Memory.wf s.fb) {x y : Nat} (h : s.cfg.inDisplay x y) (on : Bool) :
    (s.putPixel x y on).rawBit y (s.cfg.pixelPos x) = on := by
  rw [State.putPixel_rawBit hw x y on y _ (s.cfg.pixelPos_lt_bits h.1), if_pos ⟨h, rfl, rfl⟩]

theorem State.putPixel_pixel {s : State} (hw : Memory.wf s.fb) {x y : Nat} (h : s.cfg.inDisplay x y) (on : Bool) :
    (s.putPixel x y on).pixel x y = on := by
  rw [State.pixel_eq, State.putPixel_cfg, State.putPixel_rawBit_same hw h]

/-- Settles O29: one pixel write, read off bit by bit. -/
theorem setpixChangesOneBit : Obligations.SetpixChangesOneBit := by
  intro s x y on hw hq h
  refine ⟨_, exec_setpix_quiet on hq h, ?frame, ?written, ?others, ?bytes⟩
  case frame => rw [State.putPixel_frame]
  case written => exact State.putPixel_pixel hw h on
  case others =>
    intro r p hp hne
    exact (State.putPixel_rawBit hw _ _ on r p hp).trans (if_neg fun ⟨_, hr, hpos⟩ => hne ⟨hr, hpos⟩)
  case bytes =>
    intro a ha
    exact State.putPixel_fbRead_other s _ _ on ha

/-- Settles O27: the pixel written is at the mirrored position, which is the last pixel bit for x = 0 and the first for
x = W - 1. -/
theorem mirrorProperty : Obligations.MirrorProperty := by
  refine ⟨?written, ?swapped, ?reference⟩
  case written =>
    intro s x y hw hq hx hy
    have hbit := State.putPixel_rawBit_same hw (x := x.toNat) (y := y.toNat) ⟨hx, hy⟩ true
    refine ⟨_, exec_setpix_quiet true hq ⟨hx, hy⟩, fun h0 => ?_, fun hlast => ?_, hbit⟩
    · have hpos : s.cfg.pixelPos x.toNat = s.cfg.width - 1 + s.cfg.dummyBits := by
        rw [Config.pixelPos, h0, Nat.sub_zero]
      exact hpos ▸ hbit
    · have hpos : s.cfg.pixelPos x.toNat = s.cfg.dummyBits := by
        rw [Config.pixelPos, hlast, Nat.sub_self, Nat.zero_add]
      exact hpos ▸ hbit
  case swapped =>
    intro c x hx
    unfold Config.pixelPos
    omega
  case reference =>
    intro c hwidth _ hdummy
    simp only [Config.pixelMask, Config.pixelPos, hwidth, hdummy]
    decide

/-- Settles O30: SETPIX out of range has no micro-steps. -/
theorem setpixOutOfRangeDoesNothing : Obligations.SetpixOutOfRangeDoesNothing := by
  intro s x y on h
  exact exec_of_no_micros rfl (if_pos h)

/-- The bit that PixRead answers (spec/40_pixel.md R111). -/
theorem shiftedBit_eq (v : Byte) (n : Nat) : (v >>> n) &&& 1 = if v.getLsbD n then 0x01 else 0x00 := by
  refine BitVec.eq_of_getLsbD_eq fun j hj => ?_
  cases hv : v.getLsbD n <;> rcases j with _ | j <;> simp_all

/-- PixRead answers the stored bit of its pixel (spec/40_pixel.md R111 and R114). -/
theorem pixelByte_bit (s : State) (x y : Nat) :
    (s.fbRead (s.cfg.pixelAddr x y) >>> (7 - s.cfg.pixelPos x % 8)) &&& 1 = if s.pixel x y then 0x01 else 0x00 :=
  shiftedBit_eq _ _

theorem microsOf_getpix {s : State} {x y : BitVec 10} (h : s.cfg.inDisplay x.toNat y.toNat) :
    microsOf (.getpix x y) s =
      [.readByte (s.cfg.pixelAddr x.toNat y.toNat), .respondBit (s.cfg.pixelPos x.toNat % 8)] := if_pos h

theorem microsOf_rdfb {s : State} {addr : BitVec 24} (h : addr.toNat < s.cfg.fbSize) :
    microsOf (.rdfb addr) s = [.readByte addr.toNat, .respondByte] := if_pos h

/-- Settles O33: the read, then the response; out of range the response alone. -/
theorem getpixAnswersThePixel : Obligations.GetpixAnswersThePixel := by
  refine fun s x y => ⟨fun h hq => ?inRange, fun h => exec_of_respond_only rfl (if_neg h)⟩
  case inRange =>
    have hm := microsOf_getpix h
    rw [exec_done (i := .getpix x y) (n := 1) (by rw [hm]; rfl) hq rfl, hm, ← pixelByte_bit]
    rfl

theorem State.fbRead_inside {s : State} {a : Nat} (h : a < s.cfg.fbSize) : s.fbRead a = Memory.read s.fb a := if_pos h

/-- Settles O37: the read, then the response; out of range the response alone. -/
theorem rdfbAnswersTheStoredByte : Obligations.RdfbAnswersTheStoredByte := by
  refine fun s addr => ⟨fun h hq => ?inRange, fun h => exec_of_respond_only rfl (if_neg (Nat.not_lt.2 h))⟩
  case inRange =>
    have hm := microsOf_rdfb (s := s) h
    rw [exec_done (i := .rdfb addr) (n := 1) (by rw [hm]; rfl) hq rfl, hm, ← State.fbRead_inside h]
    rfl

/-- Settles O38: one write inside the framebuffer, none outside. -/
theorem wrfbStoresOneByte : Obligations.WrfbStoresOneByte := by
  intro s addr v hw
  by_cases h : addr.toNat < s.cfg.fbSize
  · have hm : microsOf (.wrfb addr v) s = [.writeByte addr.toNat v] := if_pos h
    refine ⟨_, by rw [exec_eq_issue, hm, issue_one], by rw [Micro.effect, State.fbWrite_frame]; rfl, ?_, ?_, ?_⟩
    · exact fun _ => State.fbRead_fbWrite_same hw v h
    · exact fun hout => absurd h (Nat.not_lt.2 hout)
    · exact fun a ha => State.fbRead_fbWrite_other v ha
  · have hm : microsOf (.wrfb addr v) s = [] := if_neg h
    have he : exec (.wrfb addr v) s = .next { s with csp := s.csp + 2, inflight := none, ticks := s.ticks.tail } := by
      rw [exec_eq_issue, hm, issue_nil]
      rfl
    exact ⟨_, he, rfl, fun hin => absurd hin h, fun _ => rfl, fun _ _ => rfl⟩

/-! ## CLEAR -/

/-- The first n micro-steps of CLEAR (spec/40_pixel.md R112). -/
def clearSteps (n : Nat) : List Micro := (List.range n).map fun a => .writeByte a 0x00

theorem clearSteps_length (n : Nat) : (clearSteps n).length = n := by simp [clearSteps]

theorem clearSteps_succ (n : Nat) : clearSteps (n + 1) = clearSteps n ++ [.writeByte n 0x00] := by
  simp [clearSteps, List.range_succ]

theorem runMicros_clearSteps_frame (n : Nat) (v : Byte) (s : State) :
    runMicros (clearSteps n) v s = { s with fb := (runMicros (clearSteps n) v s).fb } := by
  refine runMicros_keeps (P := fun t => t = { s with fb := t.fb }) (fun m hm v t ht => ?_) v rfl
  obtain ⟨a, -, rfl⟩ := List.mem_map.1 hm
  rw [Micro.effect, State.fbWrite_frame, ht]

/-- The first n micro-steps of CLEAR clear the first n bytes. -/
theorem runMicros_clearSteps_fbRead {s : State} (hw : Memory.wf s.fb) (v : Byte) {n : Nat}
    (hn : n ≤ s.cfg.fbSize) (a : Nat) :
    (runMicros (clearSteps n) v s).fbRead a = if a < n then 0x00 else s.fbRead a := by
  induction n with
  | zero => rfl
  | succ n ih =>
    have hw' : Memory.wf (runMicros (clearSteps n) v s).fb :=
      runMicros_keeps (P := fun t => Memory.wf t.fb) (fun m _ v _ ht => m.effect_wf v ht) v hw
    rw [clearSteps_succ, runMicros_append, runMicros_cons, runMicros_nil, Micro.effect,
      State.fbRead_fbWrite hw' _ (by rw [runMicros_cfg]; omega), ih (by omega)]
    rcases Nat.lt_trichotomy a n with hlt | heq | hgt
    · rw [if_neg (by omega), if_pos hlt, if_pos (by omega)]
    · rw [if_pos heq, if_pos (by omega)]
    · rw [if_neg (by omega), if_neg (by omega), if_neg (by omega)]

theorem microsOf_clear (s : State) : microsOf .clear s = clearSteps s.cfg.fbSize := rfl

/-- Settles O35: every byte below H·BPR is written 0, and an address at or above it reads 0 anyway. -/
theorem clearZeroesEveryByte : Obligations.ClearZeroesEveryByte := by
  intro s hw hq
  have hpos := s.cfg.fbSize_pos
  have hlen : (microsOf .clear s).length = s.cfg.fbSize - 1 + 1 := by
    rw [microsOf_clear, clearSteps_length]; omega
  refine ⟨_, exec_done hlen hq rfl, ?frame, fun a => ?zero⟩
  case frame =>
    rw [microsOf_clear, runMicros_clearSteps_frame, show s.cfg.fbSize - 1 + 1 = s.cfg.fbSize by omega]
    rfl
  case zero =>
    refine (runMicros_clearSteps_fbRead hw 0#8 (Nat.le_refl s.cfg.fbSize) a).trans ?_
    split
    · rfl
    · next h => exact State.fbRead_outside h

/-- A command with its first tick after n + 1 of its micro-steps parks there. -/
theorem issue_parks {i : Instr} {xs rest : List Micro} {m : Micro} {s : State} {n : Nat} (hx : xs.length = n + 1)
    (hq : s.quiet n) (hd : 0 < s.ticks.getD (n + 1) 0) :
    s.issue i (xs ++ m :: rest) =
      { runMicros xs 0#8 s with
        inflight := some ⟨i, m :: rest, latchMicros xs 0#8 s⟩, ticks := s.ticks.drop (n + 1) } := by
  cases xs with
  | nil => simp at hx
  | cons d done =>
    obtain rfl : done.length = n := by simpa using hx
    exact issue_preempted i d done m rest s hq hd

/-- The micro-steps of CLEAR from byte n on. -/
theorem clearSteps_split {n k : Nat} (h : n < k) :
    ∃ rest, clearSteps k = clearSteps n ++ .writeByte n 0x00 :: rest := by
  obtain ⟨d, rfl⟩ : ∃ d, k = n + 1 + d := ⟨k - (n + 1), by omega⟩
  refine ⟨((List.range d).map (n + 1 + ·)).map fun a => .writeByte a 0x00, ?_⟩
  rw [clearSteps, List.range_add, List.map_append, ← clearSteps, clearSteps_succ, List.append_assoc]
  rfl

/-- Settles O36: CLEAR parks after its first n + 1 micro-steps. -/
theorem clearGoesUpByteByByte : Obligations.ClearGoesUpByteByByte := by
  intro s n hw hn hq hd
  obtain ⟨rest, hsplit⟩ := clearSteps_split (n := n + 1) (k := s.cfg.fbSize) hn
  have hparks := issue_parks (i := .clear) (rest := rest) (m := .writeByte (n + 1) 0x00)
    (clearSteps_length (n + 1)) hq hd
  refine ⟨_, _, by rw [exec_eq_issue, microsOf_clear, hsplit, hparks], rfl, rfl,
    by rw [runMicros_clearSteps_frame], fun a => ?_⟩
  refine (runMicros_clearSteps_fbRead hw 0#8 (Nat.le_of_lt hn) a).trans ?_
  simp only [Nat.lt_succ_iff]

end Sys2Proof.Machine
end

section
/-! Responses among ticks: a response comes in a command's last micro-step, and no tick before it changes what the
command has read (spec/10_state.md R39, spec/40_pixel.md R111 and R119). -/

namespace Sys2Proof.Machine

theorem Kept.and {P Q : Byte → List Micro → State → Prop} (hP : Kept P) (hQ : Kept Q) :
    Kept fun v ms s => P v ms s ∧ Q v ms s where
  control v ms s a b p d h := ⟨hP.control v ms s a b p d h.1, hQ.control v ms s a b p d h.2⟩
  micro v m ms s h := ⟨hP.micro v m ms s h.1, hQ.micro v m ms s h.2⟩
  tick v ms s h := ⟨hP.tick v ms s h.1, hQ.tick v ms s h.2⟩

theorem Kept.imp {P : Byte → List Micro → State → Prop} {q : Prop} (hP : Kept P) : Kept fun v ms s => q → P v ms s where
  control v ms s a b p d h hq := hP.control v ms s a b p d (h hq)
  micro v m ms s h hq := hP.micro v m ms s (h hq)
  tick v ms s h hq := hP.tick v ms s (h hq)

/-- Ticks between two commands leave a state that agrees with the one before them; `h` is what take_ticks_between says
of the properties that ticks keep. -/
theorem agree_of_ticks {s t : State} (hw : Memory.wf s.fb)
    (h : ∀ Q : State → Prop, (∀ u d, Q u → Q { u with ticks := d }) → (∀ u, Q u → Q u.tick) → Q s → Q t) :
    Memory.wf t.fb ∧ Agree s t :=
  h (fun u => Memory.wf u.fb ∧ Agree s u)
    (fun _ _ hu => ⟨hu.1, hu.2.cfg, { hu.2.text with }, hu.2.bits⟩)
    (fun _ hu => ⟨State.tick_wf hu.1, hu.2.tick hu.1⟩)
    ⟨hw, Agree.refl s⟩

/-- A kept property of a command's start, before any tick there, holds at its end. -/
theorem Kept.command_of_start {P : Byte → List Micro → State → Prop} (hP : Kept P) {s : State} {i : Instr}
    {rest : List Word} (hw : Memory.wf s.fb) (hidle : s.inflight = none) (hdec : decode s.port = .ok (i, rest))
    (h : P 0#8 (microsOf i s) s) :
    ∃ k t w, Reaches k s t ∧ t.inflight = none ∧ t.csp = s.csp + i.words ∧ t.port = rest ∧ P w [] t := by
  obtain ⟨k, t, w, -, hreach, hnone, hcsp, hport, hend⟩ := hP.command hidle hdec fun t _ _ _ hticks => by
    have hstart := hticks (P 0#8 (microsOf i s)) (fun u d hu => hP.control _ _ u u.csp u.inflight u.port d hu)
      (fun u hu => hP.tick _ _ u hu) h
    obtain ⟨-, hagree⟩ := agree_of_ticks hw hticks
    rw [microsOf_congr (s := s) (t := { t with port := rest }) i hagree.cfg { hagree.text with }]
    exact hP.control _ _ t t.csp t.inflight rest t.ticks hstart
  exact ⟨k, t, w, hreach, hnone, hcsp, hport, hend⟩

/-- The micro-steps left append to `r` one response of `B`: it is there already, or the last of them appends it,
whatever the state it comes in. `v` is the byte held now, which is the one held at the last micro-step if no other is left. -/
def AnswersIn (B : List Byte → Prop) (r : List Byte) (v : Byte) (ms : List Micro) (s : State) : Prop :=
  ((∀ m ∈ ms, m.isSilent = true) ∧ ∃ bs, B bs ∧ s.resp = r ++ bs) ∨
  ∃ pre last, ms = pre ++ [last] ∧ (∀ m ∈ pre, m.isSilent = true) ∧ s.resp = r ∧
    ∀ w t, (pre = [] → w = v) → ∃ bs, B bs ∧ (last.effect w t).resp = t.resp ++ bs

theorem AnswersIn.done {B : List Byte → Prop} {r : List Byte} {v : Byte} {s : State} (h : AnswersIn B r v [] s) :
    ∃ bs, B bs ∧ s.resp = r ++ bs := by
  rcases h with ⟨-, h⟩ | ⟨pre, last, hnil, -⟩
  · exact h
  · simp at hnil

theorem AnswersIn.mono {B B' : List Byte → Prop} {r : List Byte} {v : Byte} {ms : List Micro} {s : State}
    (h : AnswersIn B r v ms s) (hB : ∀ bs, B bs → B' bs) : AnswersIn B' r v ms s := by
  rcases h with ⟨hsilent, bs, hbs, hresp⟩ | ⟨pre, last, he, hsilent, hresp, hlast⟩
  · exact .inl ⟨hsilent, bs, hB bs hbs, hresp⟩
  · refine .inr ⟨pre, last, he, hsilent, hresp, fun w t hw => ?_⟩
    obtain ⟨bs, hbs, happ⟩ := hlast w t hw
    exact ⟨bs, hB bs hbs, happ⟩

theorem kept_answersIn (B : List Byte → Prop) (r : List Byte) : Kept (AnswersIn B r) where
  control _ _ _ _ _ _ _ h := h
  micro := by
    rintro v m ms s (⟨hsilent, bs, hB, hresp⟩ | ⟨pre, last, he, hsilent, hresp, hlast⟩)
    · exact .inl ⟨fun m' h' => hsilent m' (by simp [h']), bs, hB, by
        rw [Micro.effect_resp_silent (hsilent m (by simp)), hresp]⟩
    · cases pre with
      | nil =>
        obtain ⟨rfl, rfl⟩ : m = last ∧ ms = [] := by simpa using he
        obtain ⟨bs, hB, hbs⟩ := hlast v s fun _ => rfl
        exact .inl ⟨by simp, bs, hB, by rw [hbs, hresp]⟩
      | cons m' pre =>
        obtain ⟨rfl, rfl⟩ : m = m' ∧ ms = pre ++ [last] := by simpa using he
        exact .inr ⟨pre, last, rfl, fun m' h' => hsilent m' (by simp [h']), by
          rw [Micro.effect_resp_silent (hsilent m (by simp)), hresp], fun w t _ => hlast w t (by simp)⟩
  tick v ms s h := by
    obtain ⟨-, -, -, hresp, -⟩ := s.tick_command
    unfold AnswersIn
    rwa [hresp]

/-- As many bytes as the command answers, for WRITE the one byte 0x01 (spec/10_state.md R39). -/
def WholeResponse (i : Instr) (bs : List Byte) : Prop :=
  bs.length = responseLength i ∧ ∀ b, i = .write b → bs = [0x01]

/-- Every command answers its whole response. -/
theorem answersIn_start (i : Instr) (s : State) : AnswersIn (WholeResponse i) s.resp 0#8 (microsOf i s) s := by
  rcases microsOf_responds i s with ⟨hlen, hsilent⟩ | ⟨pre, last, he, hsilent, hlast⟩
  · refine .inl ⟨hsilent, [], ⟨hlen.symm, fun b e => ?_⟩, by simp⟩
    simp [e, responseLength] at hlen
  · refine .inr ⟨pre, last, he, hsilent, rfl, fun w t _ => ?_⟩
    obtain ⟨bs, hbs, hB⟩ := hlast w t
    exact ⟨bs, hB, hbs⟩

/-- The one byte that PixRead of a pixel answers (spec/40_pixel.md R111). -/
def pixelByte (b : Bool) : List Byte := [if b then 0x01 else 0x00]

/-- The response left is `bs`, pixel reads still to come among it: GETPIX stands before its read of a pixel that has
that bit, or the bytes are settled. -/
def AnswersPixel (bs r : List Byte) (v : Byte) (ms : List Micro) (s : State) : Prop :=
  (∃ x y, ms = [.readByte (s.cfg.pixelAddr x y), .respondBit (s.cfg.pixelPos x % 8)] ∧ s.cfg.inDisplay x y ∧
    Memory.wf s.fb ∧ s.resp = r ∧ bs = pixelByte (s.pixel x y)) ∨
  AnswersIn (· = bs) r v ms s

theorem AnswersPixel.done {bs r : List Byte} {v : Byte} {s : State} (h : AnswersPixel bs r v [] s) :
    s.resp = r ++ bs := by
  rcases h with ⟨x, y, hnil, -⟩ | h
  · simp at hnil
  · obtain ⟨_, rfl, hresp⟩ := h.done
    exact hresp

/-- Once a pixel's byte is read, its bit is the response, whatever comes before it. -/
theorem answersIn_pixel (s : State) (x y : Nat) :
    AnswersIn (· = pixelByte (s.pixel x y)) s.resp (s.fbRead (s.cfg.pixelAddr x y))
      [.respondBit (s.cfg.pixelPos x % 8)] s := by
  refine .inr ⟨[], _, rfl, by simp, rfl, fun w t hw => ⟨_, rfl, ?_⟩⟩
  rw [hw rfl, pixelByte, ← pixelByte_bit]
  rfl

theorem kept_answersPixel (bs r : List Byte) : Kept (AnswersPixel bs r) where
  control v ms s a b p d h := h
  micro := by
    rintro v m ms s (⟨x, y, he, -, -, rfl, rfl⟩ | h)
    · obtain ⟨rfl, rfl⟩ : m = .readByte (s.cfg.pixelAddr x y) ∧ ms = [.respondBit (s.cfg.pixelPos x % 8)] := by
        simpa using he
      exact .inr (answersIn_pixel s x y)
    · exact .inr ((kept_answersIn _ r).micro v m ms s h)
  tick := by
    rintro v ms s (⟨x, y, he, hin, hw, rfl, rfl⟩ | h)
    · obtain ⟨-, -, -, hresp, -⟩ := s.tick_command
      have hbit : s.tick.pixel x y = s.pixel x y := by
        rw [State.pixel_eq, State.pixel_eq, s.tick_cfg]
        exact State.tick_rawBit hw y _ (s.cfg.pixelPos_range hin.1).1 (s.cfg.pixelPos_lt_bits hin.1)
      exact .inl ⟨x, y, by rw [s.tick_cfg, he], by rwa [s.tick_cfg], State.tick_wf hw, hresp, by rw [hbit]⟩
    · exact .inr ((kept_answersIn _ r).tick v ms s h)

/-- What a command answers that reads neither raw framebuffer bytes nor the refresh state is settled when it starts. -/
theorem answersPixel_start (i : Instr) {s : State} (hw : Memory.wf s.fb) :
    ∃ bs, (∀ a, i ≠ .rdfb a) → i ≠ .rdstat → AnswersPixel bs s.resp 0#8 (microsOf i s) s := by
  have hrespond {i : Instr} {bs : List Byte} (he : microsOf i s = [.respond bs]) :
      AnswersPixel bs s.resp 0#8 (microsOf i s) s :=
    .inr (.inr ⟨[], _, he, by simp, rfl, fun w t _ => ⟨bs, rfl, rfl⟩⟩)
  cases i with
  | write b => exact ⟨[0x01], fun _ _ => .inr ((answersIn_start (.write b) s).mono fun bs h => h.2 b rfl)⟩
  | rdglyph g => exact ⟨_, fun _ _ => hrespond rfl⟩
  | getpix x y =>
    by_cases hin : s.cfg.inDisplay x.toNat y.toNat
    · exact ⟨_, fun _ _ => .inl ⟨x.toNat, y.toNat, microsOf_getpix hin, hin, hw, rfl, rfl⟩⟩
    · exact ⟨_, fun _ _ => hrespond (if_neg hin)⟩
  | rdfb a => exact ⟨[], fun h _ => absurd rfl (h a)⟩
  | rdstat => exact ⟨[], fun _ h => absurd rfl h⟩
  | _ => exact ⟨[], fun _ _ => .inr ((answersIn_start _ s).mono fun bs h => List.length_eq_zero_iff.1 h.1)⟩

/-! ## A command undisturbed, and under ticks -/

/-- A command that starts with no tick to come does all its micro-steps in one step. -/
theorem step_of_no_ticks {s : State} {i : Instr} {rest : List Word} (hidle : s.inflight = none)
    (hdec : decode s.port = .ok (i, rest)) :
    step { s with ticks := [] } = .next { runMicros (microsOf i s) 0#8 s with
      csp := s.csp + i.words, inflight := none, port := rest, ticks := [] } := by
  have hstep := step_decoded (s := { s with ticks := [] }) rfl hidle hdec
  have hsame : microsOf i { s with port := rest, ticks := [] } = microsOf i s :=
    microsOf_congr i rfl ⟨rfl, rfl, rfl, rfl, rfl⟩
  rw [hstep, exec_quiet (by simp [State.quiet]), hsame]
  have hrun := runMicros_control (microsOf i s) 0#8 s s.csp s.inflight rest []
  simp [hrun]

/-- Settles O59: the command's end is tracked from the undisturbed run's; what it answers is settled when it starts, or
for RDFB and RDSTAT at least how many bytes. -/
theorem ticksNeverChangeWhatACommandDraws : Obligations.TicksNeverChangeWhatACommandDraws := by
  intro s u i rest hinv hidle hdec hstep
  have hw := hinv.fb_wf
  obtain ⟨bs, hbs⟩ := answersPixel_start i hw
  obtain rfl := Host.Outcome.next.inj (hstep.symm.trans (step_of_no_ticks hidle hdec))
  have hkept := (kept_tracks (runMicros (microsOf i s) 0#8 s)).and
    ((kept_answersIn (WholeResponse i) s.resp).and
      ((kept_answersPixel bs s.resp).imp (q := (∀ a, i ≠ .rdfb a) ∧ i ≠ .rdstat)))
  have hstart := And.intro (Tracks.start i hw hw (Agree.refl s) rfl)
    (And.intro (answersIn_start i s) fun h : (∀ a, i ≠ .rdfb a) ∧ i ≠ .rdstat => hbs h.1 h.2)
  obtain ⟨-, halone, halone'⟩ := hkept.runMicros (microsOf i s) [] 0#8 s (by rwa [List.append_nil])
  obtain ⟨k, t, w, hreach, hnone, hcsp, hport, htrack, hend, hend'⟩ := hkept.command_of_start hw hidle hdec hstart
  have hagree := htrack.done
  obtain ⟨bs1, ⟨hlen1, hwrite1⟩, hresp1⟩ := hend.done
  obtain ⟨bs2, ⟨hlen2, -⟩, hresp2⟩ := halone.done
  refine ⟨k, t, hreach, hnone, hcsp, hport, { hagree.text with }, ?bits, ?length, ?write, ?same⟩
  case bits =>
    intro r p _ hp hp'
    exact hagree.bits r p (by rwa [runMicros_cfg]) (by rwa [runMicros_cfg])
  case length =>
    show t.resp.length = (runMicros (microsOf i s) 0#8 s).resp.length
    rw [hresp1, hresp2, List.length_append, List.length_append, hlen1, hlen2]
  case write =>
    intro b hb
    rw [hresp1, hwrite1 b hb]
  case same =>
    intro hrdfb hrdstat
    exact (hend' ⟨hrdfb, hrdstat⟩).done.trans (halone' ⟨hrdfb, hrdstat⟩).done.symm

end Sys2Proof.Machine
end

section
/-! SETPIX, GETPIX and RDFB with ticks inside and around them (spec/40_pixel.md R110, R111, R115 and R119). -/

namespace Sys2Proof.Machine

theorem microsOf_setpix {s : State} {x y : BitVec 10} (h : s.cfg.inDisplay x.toNat y.toNat) (on : Bool) :
    microsOf (.setpix x y on) s =
      [.readByte (s.cfg.pixelAddr x.toNat y.toNat),
        .writeBit (s.cfg.pixelAddr x.toNat y.toNat) (s.cfg.pixelMask x.toNat) on] := by
  have hin : ¬ (s.cfg.width ≤ x.toNat ∨ s.cfg.height ≤ y.toNat) := by unfold Config.inDisplay at h; omega
  exact if_neg hin

/-- SETPIX with a tick at its StepPoint parks there, its byte read and nothing written (spec/40_pixel.md R110). -/
theorem exec_setpix_parks {s : State} {x y : BitVec 10} {n m : Nat} {tl : List Nat} (on : Bool)
    (h : s.cfg.inDisplay x.toNat y.toNat) (hticks : s.ticks = n :: (m + 1) :: tl) :
    ∃ u, exec (.setpix x y on) s = .next u ∧ u = { s with inflight := u.inflight, ticks := (m + 1) :: tl } ∧
      u.inflight = some ⟨.setpix x y on,
        [.writeBit (s.cfg.pixelAddr x.toNat y.toNat) (s.cfg.pixelMask x.toNat) on],
        s.fbRead (s.cfg.pixelAddr x.toNat y.toNat)⟩ := by
  have hparks := issue_parks (i := .setpix x y on) (xs := [.readByte (s.cfg.pixelAddr x.toNat y.toNat)]) (rest := [])
    (m := .writeBit (s.cfg.pixelAddr x.toNat y.toNat) (s.cfg.pixelMask x.toNat) on) (s := s) (n := 0) rfl
    (by simp [State.quiet]) (by simp [hticks])
  have hexec := exec_eq_issue (.setpix x y on) s
  rw [microsOf_setpix h] at hexec
  refine ⟨_, hexec.trans (congrArg _ hparks), ?_, rfl⟩
  rw [hticks]
  rfl

/-- A command with one micro-step left does it and completes. -/
theorem resume_one (s : State) (i : Instr) (m : Micro) (v : Byte) : s.resume ⟨i, [m], v⟩ = (m.effect v s).complete i :=
  rfl

/-- Settles O31: SETPIX parks before its write with the old byte held; the tick is taken from there; and the write puts
the held byte back with the pixel's bit set. -/
theorem tickInsideSetpixSeesTheOldByte : Obligations.TickInsideSetpixSeesTheOldByte := by
  intro s x y on n tl hinv hrunning hticks hin
  obtain ⟨u, hexec, hframe, hparked⟩ := exec_setpix_parks on hin hticks
  have hu := State.Inv.exec hinv.body hexec
  have hurunning : u.running = true := by rw [hframe]; exact hrunning
  have huticks : u.ticks = 1 :: tl := by rw [hframe]
  have hdue : u.tickDue = true := by simp [State.tickDue, huticks]
  have hnotDue : u.takeTick.tickDue = false := by simp [State.tickDue, huticks]
  have hinflight : u.takeTick.inflight = u.inflight := u.takeTick_inflight
  refine ⟨u, u.takeTick, _, hexec, step_tick hdue, step_resume hnotDue (hinflight.trans hparked), ?fb, ?csp, ?busy,
    ?trace, hinflight, rfl, ?cspDone, ?byte⟩
  case fb => rw [hframe]
  case csp => rw [hframe]
  case busy => simp [hparked]
  case trace =>
    rw [State.takeTick_of_running hu hurunning, hframe]
    rfl
  case cspDone =>
    rw [resume_one, State.complete_csp, Micro.effect_csp, State.takeTick_csp, hframe]
    rfl
  case byte =>
    have haddr : s.cfg.pixelAddr x.toNat y.toNat < u.takeTick.cfg.fbSize := by
      rw [State.takeTick_cfg, hframe]
      exact s.cfg.pixelAddr_lt hin.1 hin.2
    rw [resume_one, State.complete_fbRead, Micro.effect, State.fbRead_fbWrite_same hu.takeTick.fb_wf _ haddr]

/-- A command whose last micro-step's answer is settled gives it, whatever ticks come at the StepPoint before it. -/
theorem carryOn_answers {i : Instr} {m : Micro} {v : Byte} {s : State} {bs : List Byte}
    (h : AnswersIn (· = bs) s.resp v [m] s) :
    ∃ k t, Reaches k (State.carryOn i [m] v s) t ∧ t.inflight = none ∧ t.csp = s.csp + i.words ∧ t.port = s.port ∧
      t.resp = s.resp ++ bs := by
  have hkept := kept_answersIn (· = bs) s.resp
  rcases carryOn_cases i [m] v s with he | ⟨done, m', rest, hsplit, -, he⟩
  · obtain ⟨_, rfl, hresp⟩ := (hkept.runMicros [m] [] v s h).done
    exact ⟨0, _, Reaches.refl _, by rw [he], by rw [he], by rw [he]; simp, by rw [he]; exact hresp⟩
  · obtain ⟨rfl, rfl, rfl⟩ : done = [] ∧ m' = m ∧ rest = [] := by
      cases done <;> simp_all
    obtain ⟨k, t, w, -, hreach, hnone, hcsp, hport, hend⟩ :=
      hkept.finish _ (State.carryOn i [m'] v s) ⟨i, [m'], v⟩ (Nat.le_refl _) (by rw [he]; rfl) (by rw [he]; exact h)
    obtain ⟨_, rfl, hresp⟩ := hend.done
    exact ⟨k, t, hreach, hnone, by rw [hcsp, he]; rfl, by rw [hport, he]; rfl, hresp⟩

/-- GETPIX answers the pixel as it is when the command starts (spec/40_pixel.md R111). -/
theorem exec_getpix_answers {s : State} {x y : BitVec 10} (h : s.cfg.inDisplay x.toNat y.toNat) :
    ∃ u k t, exec (.getpix x y) s = .next u ∧ Reaches k u t ∧ t.inflight = none ∧ t.csp = s.csp + 1 ∧ t.port = s.port ∧
      t.resp = s.resp ++ pixelByte (s.pixel x.toNat y.toNat) := by
  obtain ⟨k, t, ht⟩ := carryOn_answers (i := .getpix x y) (answersIn_pixel s x.toNat y.toNat)
  refine ⟨_, k, t, ?_, ht⟩
  rw [exec_eq_issue, microsOf_getpix h]
  rfl

/-- Settles O34: the byte is read in the step that starts the command. -/
theorem readbacksAreSampledAtTheRead : Obligations.ReadbacksAreSampledAtTheRead := by
  refine ⟨fun s addr h => ?rdfb, fun s x y h => exec_getpix_answers h⟩
  case rdfb =>
    have hread : AnswersIn (· = [s.fbRead addr.toNat]) s.resp (s.fbRead addr.toNat) [.respondByte] s :=
      .inr ⟨[], _, rfl, by simp, rfl, fun w t hw => ⟨_, rfl, by rw [hw rfl]; rfl⟩⟩
    obtain ⟨k, t, ht⟩ := carryOn_answers (i := .rdfb addr) hread
    rw [← State.fbRead_inside h]
    refine ⟨_, k, t, ?_, ht⟩
    rw [exec_eq_issue, microsOf_rdfb h]
    rfl

theorem Tracks.wf {goal s : State} {v : Byte} {ms : List Micro} (h : Tracks goal v ms s) : Memory.wf s.fb := h.1

/-- SETPIX in range, run to its end under any ticks: the pixel holds what was written, and nothing is answered
(spec/40_pixel.md R113, spec/20_memory.md R62). -/
theorem setpix_under_ticks {s : State} {x y : BitVec 10} {on : Bool} {rest : List Word} (hw : Memory.wf s.fb)
    (hidle : s.inflight = none) (hin : s.cfg.inDisplay x.toNat y.toNat)
    (hdec : decode s.port = .ok (.setpix x y on, rest)) :
    ∃ k t, Reaches k s t ∧ t.inflight = none ∧ t.csp = s.csp + 1 ∧ t.port = rest ∧ t.resp = s.resp ∧ Memory.wf t.fb ∧
      t.cfg = s.cfg ∧ t.pixel x.toNat y.toNat = on := by
  have hgoal : runMicros (microsOf (.setpix x y on) s) 0#8 s = s.putPixel x.toNat y.toNat on :=
    runMicros_pixWrite s x.toNat y.toNat on 0#8
  have hkept := (kept_tracks (s.putPixel x.toNat y.toNat on)).and
    (kept_answersIn (WholeResponse (.setpix x y on)) s.resp)
  have hstart := Tracks.start (.setpix x y on) hw hw (Agree.refl s) rfl
  rw [hgoal] at hstart
  obtain ⟨k, t, w, hreach, hnone, hcsp, hport, htrack, hend⟩ :=
    hkept.command_of_start hw hidle hdec ⟨hstart, answersIn_start _ s⟩
  have hagree := htrack.done
  have hcfg : t.cfg = s.cfg := hagree.cfg.trans (s.putPixel_cfg _ _ on)
  obtain ⟨bs, ⟨hlen, -⟩, hresp⟩ := hend.done
  obtain rfl : bs = [] := List.length_eq_zero_iff.1 hlen
  refine ⟨k, t, hreach, hnone, hcsp, hport, by rw [hresp, List.append_nil], htrack.wf, hcfg, ?_⟩
  have hpos := s.cfg.pixelPos_range hin.1
  rw [State.pixel_eq, hcfg, hagree.bits _ _ (by rw [State.putPixel_cfg]; exact hpos.1)
    (by rw [State.putPixel_cfg]; exact s.cfg.pixelPos_lt_bits hin.1), State.putPixel_rawBit_same hw hin]

/-- GETPIX in range, run to its end under any ticks: it answers the pixel as it was before them
(spec/40_pixel.md R111, spec/43_refresh.md R208). -/
theorem getpix_under_ticks {s : State} {x y : BitVec 10} {rest : List Word} (hw : Memory.wf s.fb)
    (hidle : s.inflight = none) (hin : s.cfg.inDisplay x.toNat y.toNat)
    (hdec : decode s.port = .ok (.getpix x y, rest)) :
    ∃ k t, Reaches k s t ∧ t.inflight = none ∧ t.csp = s.csp + 1 ∧ t.port = rest ∧
      t.resp = s.resp ++ pixelByte (s.pixel x.toNat y.toNat) := by
  have hstart : AnswersPixel (pixelByte (s.pixel x.toNat y.toNat)) s.resp 0#8 (microsOf (.getpix x y) s) s :=
    .inl ⟨x.toNat, y.toNat, microsOf_getpix hin, hin, hw, rfl, rfl⟩
  obtain ⟨k, t, w, hreach, hnone, hcsp, hport, hend⟩ := (kept_answersPixel _ _).command_of_start hw hidle hdec hstart
  exact ⟨k, t, hreach, hnone, hcsp, hport, hend.done⟩

/-- Settles O32: SETPIX leaves the pixel written, and GETPIX answers it, whatever ticks each meets. -/
theorem setpixThenGetpixUnderAnyTicks : Obligations.SetpixThenGetpixUnderAnyTicks := by
  intro s x y on rest hinv hidle hin hport
  have hdec1 : decode s.port = .ok (.setpix x y on, encode (.getpix x y) ++ rest) := by
    rw [hport, List.append_assoc]
    exact decodeOfEncodeIsTheCommand _ _ rfl
  obtain ⟨j, t, hreach1, hidle1, hcsp1, hport1, hresp1, hw1, hcfg1, hpixel⟩ :=
    setpix_under_ticks hinv.fb_wf hidle hin hdec1
  have hdec2 : decode t.port = .ok (.getpix x y, rest) := by
    rw [hport1]
    exact decodeOfEncodeIsTheCommand _ _ rfl
  obtain ⟨k, u, hreach2, hidle2, hcsp2, hport2, hresp2⟩ := getpix_under_ticks hw1 hidle1 (by rwa [hcfg1]) hdec2
  refine ⟨j + k, u, hreach1.trans hreach2, hidle2, by rw [hcsp2, hcsp1], hport2, ?_⟩
  rw [hresp2, hresp1, hpixel]
  rfl

end Sys2Proof.Machine
end

section
/-! Glyphs (spec/41_glyph.md): the transposition, the column source, and what WRITE can draw. -/

namespace Sys2Proof

/-- A byte with one bit set. -/
theorem oneBit_getLsbD {n : Nat} (hn : n < 8) (j : Nat) : (1#8 <<< n).getLsbD j = decide (j = n) := by
  have h := BitVec.getLsbD_twoPow (w := 8) n j
  rw [BitVec.twoPow] at h
  simp [h, hn, eq_comm]

/-- One lit pixel (r, c) transposed: bit r of column c (spec/41_glyph.md R141). -/
theorem bitmapColumn_of_pixel {bm : Vector Byte 8} {r : Fin 8} {c : Fin 5}
    (h : ∀ q : Fin 8, bm[q] = if q = r then 1#8 <<< (4 - c.val) else 0) (d : Fin 5) :
    bitmapColumn bm d.val = if d = c then 1#8 <<< r.val else 0 := by
  refine BitVec.eq_of_getLsbD_eq fun j hj => ?_
  have hc := c.isLt
  have hd := d.isLt
  have hbit := bitmapColumn_getLsbD bm d.val ⟨j, hj⟩
  rw [h] at hbit
  rw [hbit, apply_ite (fun b : Byte => b.getLsbD (4 - d.val)), apply_ite (fun b : Byte => b.getLsbD j),
    oneBit_getLsbD (by omega), oneBit_getLsbD r.isLt]
  have hcol : 4 - d.val = 4 - c.val ↔ d.val = c.val := by omega
  by_cases hdc : d.val = c.val <;> simp [Fin.ext_iff, hcol, hdc]

end Sys2Proof

namespace Sys2Proof.Machine

/-- Settles O39: SETUG in range is one micro-step that stores the transposed bitmap, and out of range it has none. -/
theorem setugTransposesTheBitmap : Obligations.SetugTransposesTheBitmap := by
  refine fun s i bm => ⟨fun hi => ?stored, fun hi => ?ignored⟩
  case ignored =>
    have hm : microsOf (.setug i bm) s = [] := dif_neg (by omega)
    rw [exec_eq_issue, hm, issue_nil]
    rfl
  case stored =>
    have hm : microsOf (.setug i bm) s = [.setUserGlyph ⟨i.toNat, hi⟩ (bitmapColumns bm)] := dif_pos hi
    have hget (c : Fin 5) : ((s.ug.set i.toNat (bitmapColumns bm))[i.toNat])[c] = bitmapColumn bm c.val := by
      rw [Vector.getElem_set_self, bitmapColumns_getElem]
    refine ⟨_, by rw [exec_eq_issue, hm, issue_one], rfl, fun r c => ?_, fun r c hbm d => ?_, fun j hj => ?_⟩
    · exact (congrArg (fun b : Byte => b.getLsbD r.val) (hget c)).trans (bitmapColumn_getLsbD bm c.val r)
    · exact (hget d).trans (bitmapColumn_of_pixel hbm d)
    · exact Vector.getElem_set_ne hi j.isLt (Ne.symm hj)

/-! ## The column source, by the class of the glyph code -/

section
variable (s : State) {g : Byte}

theorem columnsFor_user (h : g.toNat ≤ 7) : columnsFor s g = s.ug[g.toNat] := dif_pos h

theorem columnsFor_extended (h : 0x80 ≤ g.toNat ∧ g.toNat ≤ 0x86) :
    columnsFor s g = extCols s.cfg ⟨g.toNat - 0x80, by omega⟩ :=
  (dif_neg (by omega)).trans (dif_pos h)

theorem columnsFor_printable (h : 0x20 ≤ g.toNat ∧ g.toNat ≤ 0x7E) :
    columnsFor s g = fontCols s.cfg ⟨g.toNat - 0x20, by omega⟩ :=
  (dif_neg (by omega)).trans ((dif_neg fun he => by have : 0x80 ≤ g.toNat := he.1; omega).trans (dif_pos h))

theorem columnsFor_other (h : 8 ≤ g.toNat) (he : ¬ (0x80 ≤ g.toNat ∧ g.toNat ≤ 0x86))
    (hp : ¬ (0x20 ≤ g.toNat ∧ g.toNat ≤ 0x7E)) : columnsFor s g = fontCols s.cfg ⟨qmark.toNat - 0x20, by decide⟩ :=
  (dif_neg (by omega)).trans ((dif_neg he).trans (dif_neg hp))

end

theorem fontCols_getElem (c : Config) (n : Fin 95) (j : Fin 5) :
    (fontCols c n)[j] = c.font[n.val * 5 + j.val]'(by have := n.isLt; have := j.isLt; omega) := by
  simp [fontCols]

theorem extCols_getElem (c : Config) {e : Fin 7} (h : e.val ≠ 6) (j : Fin 5) :
    (extCols c e)[j] = if j = c.adjColLo ∨ j = c.adjColHi then c.extFont[e][j] ||| 0x01 else c.extFont[e][j] := by
  unfold extCols
  rw [if_neg (show e.val ≠ extSharpS from h)]
  simp [extAdjMask]

theorem extCols_sharpS (c : Config) {e : Fin 7} (h : e.val = 6) : extCols c e = c.extFont[e] := if_pos h

/-- Settles O40, by the class of the code. -/
theorem columnsForByClass : Obligations.ColumnsForByClass := by
  refine fun s g c => ⟨fun h => ?_, fun h => ?_, fun h => ?_, fun h => ?_, fun h => ?_⟩
  · rw [columnsFor_user s h]
  · rw [columnsFor_printable s h, fontCols_getElem]
  · rw [columnsFor_extended s (by omega), extCols_getElem _ (by show g.toNat - 0x80 ≠ 6; omega)]
    rfl
  · have he : (⟨g.toNat - 0x80, by omega⟩ : Fin 7) = 6 := Fin.ext (by show g.toNat - 0x80 = 6; omega)
    rw [columnsFor_extended s (by omega), he, extCols_sharpS _ rfl]
    rfl
  · rw [columnsFor_other s (by omega) (by omega) (by omega), fontCols_getElem]
    rfl

/-! ## The glyph of a codepoint -/

theorem resolveGlyph_printable {cp : BitVec 11} (h : 0x20 ≤ cp.toNat ∧ cp.toNat ≤ 0x7E) :
    (resolveGlyph cp).toNat = cp.toNat := by
  have hif : 0x20 ≤ cp ∧ cp ≤ 0x7E := h
  rw [resolveGlyph, if_pos hif, BitVec.toNat_setWidth]
  omega

theorem resolveGlyph_other {cp : BitVec 11} (hp : ¬ (0x20 ≤ cp.toNat ∧ cp.toNat ≤ 0x7E))
    (he : ∀ x ∈ extCp, cp ≠ x) : resolveGlyph cp = qmark := by
  have hif : ¬ (0x20 ≤ cp ∧ cp ≤ 0x7E) := hp
  have hnone : extCp.findIdx? (· == cp) = none := by
    rw [List.findIdx?_eq_none_iff]
    intro x hx
    simpa using (he x hx).symm
  rw [resolveGlyph, if_neg hif, hnone]

theorem resolveGlyph_extended : extCp.map resolveGlyph = [0x80, 0x81, 0x82, 0x83, 0x84, 0x85, 0x86] := by decide

/-- WRITE resolves no codepoint to a user glyph (spec/41_glyph.md R149). -/
theorem resolveGlyph_ge (cp : BitVec 11) : 8 ≤ (resolveGlyph cp).toNat := by
  by_cases hp : 0x20 ≤ cp.toNat ∧ cp.toNat ≤ 0x7E
  · rw [resolveGlyph_printable hp]
    omega
  · by_cases he : cp ∈ extCp
    · have hmem : resolveGlyph cp ∈ extCp.map resolveGlyph := List.mem_map_of_mem he
      rw [resolveGlyph_extended] at hmem
      revert hmem
      generalize resolveGlyph cp = g
      revert g
      decide
    · rw [resolveGlyph_other hp fun x hx e => he (e ▸ hx)]
      decide

/-- Settles O41, by the class of the codepoint. -/
theorem resolveGlyphByClass : Obligations.ResolveGlyphByClass := by
  refine ⟨fun cp h h' => resolveGlyph_printable ⟨h, h'⟩, resolveGlyph_extended, fun cp hp he => ?other, resolveGlyph_ge⟩
  case other =>
    refine resolveGlyph_other hp fun x hx e => he ?_
    have hnumbers : extCp.map BitVec.toNat = [0xC4, 0xD6, 0xDC, 0xE4, 0xF6, 0xFC, 0xDF] := by decide
    exact hnumbers ▸ List.mem_map_of_mem (e ▸ hx)

/-- Settles O42: a printable codepoint is its own glyph code, and the seven extended ones have the seven extended
codes. -/
theorem codepointsHaveTheirOwnColumns : Obligations.CodepointsHaveTheirOwnColumns := by
  refine fun s => ⟨fun cp c h => ?printable, ?extended⟩
  case printable =>
    have hg := resolveGlyph_printable h
    rw [columnsFor_printable s (by omega), fontCols_getElem]
    simp only [hg]
  case extended =>
    have hcodes : [0xC4, 0xD6, 0xDC, 0xE4, 0xF6, 0xFC, 0xDF].map resolveGlyph = _ := resolveGlyph_extended
    rw [← Function.comp_def (columnsFor s) resolveGlyph, ← List.map_map, hcodes]
    rfl

theorem toList_glyphCols (v : GlyphCols) : v.toList = [v[0], v[1], v[2], v[3], v[4]] := by
  refine List.ext_getElem (by simp) fun j hj _ => ?_
  have hj5 : j < 5 := by simpa using hj
  interval_cases j <;> simp

/-- Settles O43: RDGLYPH is its response alone. -/
theorem rdglyphAnswersTheColumns : Obligations.RdglyphAnswersTheColumns := by
  intro s g
  rw [← toList_glyphCols]
  exact exec_of_respond_only rfl rfl

/-! ## WRITE and the user glyphs -/

/-- `s` with other user glyphs. -/
def State.withUg (s : State) (ug : Vector GlyphCols 8) : State := { s with ug := ug }

theorem State.fbWrite_withUg (s : State) (a : Nat) (v : Byte) (ug : Vector GlyphCols 8) :
    (s.withUg ug).fbWrite a v = (s.fbWrite a v).withUg ug := by
  by_cases h : a < s.cfg.fbSize <;> simp [State.fbWrite, State.withUg, h]

/-- No micro-step reads the user glyphs, and only SETUG's writes them. -/
theorem Micro.effect_withUg {m : Micro} (h : ∀ n cols, m ≠ .setUserGlyph n cols) (v : Byte) (s : State)
    (ug : Vector GlyphCols 8) : m.effect v (s.withUg ug) = (m.effect v s).withUg ug := by
  cases m with
  | setUserGlyph n cols => exact absurd rfl (h n cols)
  | writeBit a k o => exact s.fbWrite_withUg a _ ug
  | writeByte a b => exact s.fbWrite_withUg a b ug
  | startRefresh period =>
    by_cases hp : period = 0#24
    · simp only [hp, Micro.effect, State.startRefresh_zero]
    · simp only [Micro.effect, State.startRefresh_eq _ hp]
      rfl
  | stopRefresh =>
    simp only [Micro.effect, State.stopRefresh_eq]
    rfl
  | _ => rfl

theorem Micro.latch_withUg (m : Micro) (v : Byte) (s : State) (ug : Vector GlyphCols 8) :
    m.latch v (s.withUg ug) = m.latch v s := by
  cases m <;> rfl

theorem carryOn_withUg {i : Instr} {todo : List Micro} (h : ∀ m ∈ todo, ∀ n cols, m ≠ .setUserGlyph n cols) (v : Byte)
    (s : State) (ug : Vector GlyphCols 8) :
    State.carryOn i todo v (s.withUg ug) = (State.carryOn i todo v s).withUg ug := by
  induction todo generalizing v s with
  | nil => rfl
  | cons m ms ih =>
    have hleave : (s.withUg ug).leavePoint = s.leavePoint.withUg ug := rfl
    have hdue : (s.leavePoint.withUg ug).tickDue = s.leavePoint.tickDue := rfl
    unfold State.carryOn
    rw [hleave, hdue, Micro.latch_withUg, Micro.effect_withUg (h m (by simp)), ih fun m' h' => h m' (by simp [h'])]
    split_ifs <;> rfl

theorem issue_withUg {i : Instr} {ms : List Micro} (h : ∀ m ∈ ms, ∀ n cols, m ≠ .setUserGlyph n cols) (s : State)
    (ug : Vector GlyphCols 8) : (s.withUg ug).issue i ms = (s.issue i ms).withUg ug := by
  cases ms with
  | nil => rfl
  | cons m ms =>
    show State.carryOn i ms (m.latch 0#8 (s.withUg ug)) (m.effect 0#8 (s.withUg ug)) = _
    rw [Micro.latch_withUg, Micro.effect_withUg (h m (by simp)), carryOn_withUg fun m' h' => h m' (by simp [h'])]
    rfl

theorem columnsFor_withUg {g : Byte} (h : 8 ≤ g.toNat) (s : State) (ug : Vector GlyphCols 8) :
    columnsFor (s.withUg ug) g = columnsFor s g := by
  have hnot : ¬ g.toNat ≤ 7 := by omega
  rw [columnsFor, columnsFor, dif_neg hnot, dif_neg hnot]
  rfl

theorem writeByteSteps_withUg (s : State) (b : Byte) (ug : Vector GlyphCols 8) :
    writeByteSteps (s.withUg ug) b = writeByteSteps s b := by
  have hcomplete (cp : BitVec 11) : completeCodepoint (s.withUg ug) cp = completeCodepoint s cp := by
    unfold completeCodepoint
    rw [columnsFor_withUg (resolveGlyph_ge cp)]
    rfl
  unfold writeByteSteps decodeIdleByte decodeContinuationByte
  simp only [hcomplete]
  rfl

/-- Settles O44: WRITE's micro-steps come from built-in glyphs, and none of them looks at the user glyphs. -/
theorem writeNeverReadsUserGlyphs : Obligations.WriteNeverReadsUserGlyphs := by
  intro s t b ug h
  have hmicros : microsOf (.write b) (s.withUg ug) = microsOf (.write b) s :=
    congrArg (· ++ [Micro.respond [0x01]]) (writeByteSteps_withUg s b ug)
  have hno : ∀ m ∈ microsOf (.write b) s, ∀ n cols, m ≠ .setUserGlyph n cols := by
    rintro m hm n cols rfl
    obtain ⟨k, bm, e⟩ := uses_setUserGlyph (microsOf_mayUse (.write b) s _ hm)
    exact Instr.noConfusion e
  rw [exec_eq_issue] at h
  cases h
  show exec (.write b) (s.withUg ug) = _
  rw [exec_eq_issue, hmicros, issue_withUg hno]
  rfl

end Sys2Proof.Machine
end

section
/-! Text (spec/42_text.md): the cursor, the UTF-8 decoder by the class of the byte, and drawing in a cell. -/

namespace Sys2Proof.Machine

/-- Settles O45: SETCUR is one micro-step of two clamps. -/
theorem setcurClampsEachCoordinate : Obligations.SetcurClampsEachCoordinate := by
  intro s col row
  have hm : microsOf (.setcur col row) s = [.placeCursor col row] := rfl
  exact ⟨_, by rw [exec_eq_issue, hm, issue_one], rfl, clampCell_toNat col s.cfg.cols, clampCell_toNat row s.cfg.rows⟩

/-- Settles O47: LF is the new line, then the response. -/
theorem writeLfStartsANewLine : Obligations.WriteLfStartsANewLine := by
  intro s hinv hq
  have hm : microsOf (.write lf) s = [.newLine, .respond [0x01]] := rfl
  refine ⟨_, exec_done (i := .write lf) (n := 1) (by rw [hm]; rfl) hq rfl, ?_, ?_⟩
  · rw [hm]
    rfl
  · rw [hm]
    exact countUp_toNat s.cfg.rows_bounds.2.2 hinv.curRow_lt

/-! ## The classes of input bytes -/

/-- The classes that the decoder tells apart, by the bits it looks at and by value (spec/42_text.md R177 and R178). -/
theorem byte_classes : ∀ b : Byte,
    (b.getLsbD 7 = false ↔ b.toNat < 0x80) ∧
    (b &&& 0xE0 = 0xC0 ↔ 0xC0 ≤ b.toNat ∧ b.toNat ≤ 0xDF) ∧
    (b &&& 0xC0 = 0x80 ↔ 0x80 ≤ b.toNat ∧ b.toNat ≤ 0xBF) := by
  decide

/-- A two-byte lead to an idle decoder only pends. -/
theorem writeByteSteps_lead {s : State} {b : Byte} (hidle : s.uExp = 0) (h : 0xC0 ≤ b.toNat ∧ b.toNat ≤ 0xDF) :
    writeByteSteps s b = [.decoderPend (b.setWidth 5)] := by
  obtain ⟨hascii, hlead, -⟩ := byte_classes b
  have hcr : b ≠ cr := by rintro rfl; exact absurd h.1 (by decide)
  have hlf : b ≠ lf := by rintro rfl; exact absurd h.1 (by decide)
  have hnot : ¬ b.getLsbD 7 = false := fun e => by have := hascii.1 e; omega
  rw [writeByteSteps, if_neg hcr, if_neg hlf, if_pos hidle, decodeIdleByte, if_neg hnot, if_pos (hlead.2 h)]

/-- Settles O48: the decoder's update, then the response. -/
theorem writeOfALeadByteOnlyPends : Obligations.WriteOfALeadByteOnlyPends := by
  intro s b hidle hlo hhi hq
  have hm : microsOf (.write b) s = [.decoderPend (b.setWidth 5), .respond [0x01]] := by
    rw [microsOf, writeByteSteps_lead hidle ⟨hlo, hhi⟩]
    rfl
  refine ⟨_, exec_done (i := .write b) (n := 1) (by rw [hm]; rfl) hq rfl, ?_, ?_⟩
  · rw [hm]
    rfl
  · rw [hm]
    exact BitVec.toNat_setWidth 5 b

/-- The codepoint of a two-byte sequence as a number (spec/42_text.md R178). -/
theorem twoByteCodepoint_eq (acc : BitVec 5) (b : Byte) :
    twoByteCodepoint acc b = BitVec.ofNat 11 (acc.toNat * 64 + b.toNat % 64) := by
  have hlow : (b.setWidth 6).toNat = b.toNat % 64 := BitVec.toNat_setWidth 6 b
  have hacc := acc.isLt
  refine BitVec.eq_of_toNat_eq ?_
  rw [twoByteCodepoint, BitVec.toNat_append, hlow, ← Nat.shiftLeft_add_eq_or_of_lt (by omega), Nat.shiftLeft_eq,
    BitVec.toNat_ofNat]
  omega

/-- A byte that completes a codepoint, or is a decode error, is drawn (spec/42_text.md R177 to R180). -/
theorem writeByteSteps_codepoint {s : State} {b : Byte} {cp : BitVec 11} (hcr : b ≠ cr) (hlf : b ≠ lf)
    (h : codepointOf s b = some cp) : writeByteSteps s b = completeCodepoint s cp := by
  obtain ⟨hascii, hlead, hcont⟩ := byte_classes b
  have hsub : substituteCodepoint = 0x3F := rfl
  rw [writeByteSteps, if_neg hcr, if_neg hlf]
  unfold codepointOf at h
  split_ifs at h with hidle h7 hl hc <;> cases h
  · rw [if_pos hidle, decodeIdleByte, if_pos (hascii.2 h7)]
    exact congrArg _ (BitVec.eq_of_toNat_eq (by simp [oneByteCodepoint]))
  · rw [if_pos hidle, decodeIdleByte, if_neg fun e => h7 (hascii.1 e), if_neg fun e => hl (hlead.1 e), hsub]
  · rw [if_neg hidle, decodeContinuationByte, if_pos (hcont.2 hc)]
    exact congrArg _ (twoByteCodepoint_eq s.uAcc b)
  · rw [if_neg hidle, decodeContinuationByte, if_neg fun e => hc (hcont.1 e), hsub]

/-! ## Drawing -/

/-- The pixel writes of DrawGlyph in the cell at the cursor draw the glyph there (spec/42_text.md R181). -/
theorem State.putPixels_cell_drawn {s : State} (hw : Memory.wf s.fb) (cols : GlyphCols) {x y : Nat}
    (h : s.cfg.inDisplay x y) :
    (s.putPixels (cellPixels (s.curCol.toNat * charW) (s.curRow.toNat * charH) cols)).pixel x y =
      s.drawnPixel cols x y :=
  State.putPixels_cell_pixel hw (s.curCol.toNat * charW) (s.curRow.toNat * charH) cols h

/-- Drawing in the cell at the cursor and advancing, no tick inside: what is left in the framebuffer, and that nothing
but the framebuffer and CUR_COL changes (spec/42_text.md R181 and R185). -/
theorem drawAtCursor_result {s u : State} (h : s.BodyInv) (cols : GlyphCols) (v : Byte)
    (hu : u = runMicros (drawAtCursor s cols) v s) :
    u = { s with fb := u.fb, curCol := u.curCol } ∧
    u.curCol.toNat = min (s.curCol.toNat + 1) (s.cfg.cols - 1) ∧
    (∀ x y, s.cfg.inDisplay x y → u.pixel x y = s.drawnPixel cols x y) ∧
    (∀ r p, p < 8 * s.cfg.bpr → (p < s.cfg.dummyBits ∨ s.cfg.dummyBits + s.cfg.width ≤ p) →
      u.rawBit r p = s.rawBit r p) := by
  rw [runMicros_drawAtCursor] at hu
  have hcell := fun x y (hxy : s.cfg.inDisplay x y) => State.putPixels_cell_drawn h.fb_wf cols hxy
  generalize cellPixels (s.curCol.toNat * charW) (s.curRow.toNat * charH) cols = ps at hu hcell
  subst hu
  have hframe := s.putPixels_frame ps
  refine ⟨by rw [hframe]; rfl, ?column, hcell, fun r p hp hpad => ?unmapped⟩
  case column =>
    rw [hframe]
    exact countUp_toNat s.cfg.cols_bounds.2.2 h.curCol_lt
  case unmapped => exact State.putPixels_rawBit_unmapped h.fb_wf ps r p hp hpad

theorem drawAtCursor_length {s : State} (h : s.BodyInv) (cols : GlyphCols) : (drawAtCursor s cols).length = 85 := by
  rw [drawAtCursor, List.length_append, drawGlyph_length h.curCol_lt h.curRow_lt]
  rfl

/-- Settles O50: WGLYPH is the drawing alone. -/
theorem wglyphDrawsTheGlyph : Obligations.WglyphDrawsTheGlyph := by
  intro s g hinv hq
  obtain ⟨hframe, hcol, hpixel, hpad⟩ := drawAtCursor_result hinv.body (columnsFor s g) 0#8 rfl
  have hexec := exec_done (i := .wglyph g) (drawAtCursor_length hinv.body (columnsFor s g)) hq rfl
  refine ⟨_, hexec, ?_, hcol, hpixel, hpad⟩
  rw [microsOf, hframe]
  rfl

/-- Settles O49: the decoder is reset, the glyph drawn, and the response given. -/
theorem writeDrawsTheCodepoint : Obligations.WriteDrawsTheCodepoint := by
  intro s b cp hinv hq hcr hlf hcp
  have hm : microsOf (.write b) s =
      .decoderIdle :: drawAtCursor s (columnsFor s (resolveGlyph cp)) ++ [.respond [0x01]] := by
    rw [microsOf, writeByteSteps_codepoint hcr hlf hcp]
    rfl
  have hidle : ({ s with uExp := 0, uAcc := 0 } : State).BodyInv := hinv.body.effect .decoderIdle 0#8
  obtain ⟨hframe, hcol, hpixel, hpad⟩ := drawAtCursor_result hidle (columnsFor s (resolveGlyph cp)) 0#8 rfl
  have hlen : (microsOf (.write b) s).length = 87 := by
    rw [hm, List.length_append, List.length_cons, drawAtCursor_length hinv.body]
    rfl
  have hrun : runMicros (microsOf (.write b) s) 0#8 s = State.respond
      (runMicros (drawAtCursor { s with uExp := 0, uAcc := 0 } (columnsFor s (resolveGlyph cp))) 0#8
        { s with uExp := 0, uAcc := 0 }) [0x01] := by
    rw [hm, List.cons_append, runMicros_cons, runMicros_append]
    rfl
  refine ⟨_, exec_done hlen hq hrun, ?_, hcol, hpixel, hpad⟩
  rw [hframe]
  rfl

end Sys2Proof.Machine
end

section
/-! The refresh engine (spec/43_refresh.md): START and STOP, and runs of ticks with no command between them. -/

namespace Sys2Proof.Machine

theorem exec_start (s : State) (period : BitVec 24) :
    exec (.start period) s = .next { s.startRefresh period with
      csp := s.csp + 1, inflight := none, ticks := s.ticks.tail } := by
  have hm : microsOf (.start period) s = [.startRefresh period] := rfl
  rw [exec_eq_issue, hm, issue_one]
  rfl

theorem exec_stop (s : State) :
    exec .stop s = .next { s.stopRefresh with csp := s.csp + 1, inflight := none, ticks := s.ticks.tail } := by
  have hm : microsOf .stop s = [.stopRefresh] := rfl
  rw [exec_eq_issue, hm, issue_one]
  rfl

/-- Settles O51: START's one atomic step, from Stopped. -/
theorem startFromStopped : Obligations.StartFromStopped := by
  intro s period hstopped hperiod
  rw [exec_start, State.startRefresh_eq s hperiod]
  simp [hstopped]

/-- Settles O52: START's one atomic step, while Running. -/
theorem startWhileRunning : Obligations.StartWhileRunning := by
  intro s period hrunning hperiod
  rw [exec_start, State.startRefresh_eq s hperiod]
  simp [hrunning]

/-- Settles O54: STOP's one atomic step, from either state. -/
theorem stopEndsTheSession : Obligations.StopEndsTheSession := by
  refine fun s => ⟨fun hrunning => ?_, fun hstopped => ?_⟩
  · rw [exec_stop, State.stopRefresh_eq]
    simp [hrunning]
  · rw [exec_stop, State.stopRefresh_eq]
    simp [hstopped]

/-! ## Runs of ticks -/

theorem Reaches.snoc {n : Nat} {s t u : State} (h : Reaches n s t) (hs : step t = .next u) : Reaches (n + 1) s u :=
  h.trans (Reaches.head hs (Reaches.refl u))

/-- A tick changes no row's transmission: the dummy bits it clears are sent as 0 anyway (spec/43_refresh.md R208). -/
theorem State.takeTick_rowEvents {s : State} (hw : Memory.wf s.fb) (hr : s.running = true) (r : Nat) :
    s.takeTick.rowEvents r = s.rowEvents r := by
  have hsent : s.takeTick.sentBytes r = s.sentBytes r := by
    unfold State.sentBytes
    rw [State.takeTick_cfg]
    refine List.map_congr_left fun k hk => ?_
    simp only [State.takeTick_fbRead_of_running hw hr]
    split
    · by_cases ha : r * s.cfg.bpr = s.refreshRow.toNat * s.cfg.bpr
      · rw [ha, State.clearDummyBits_fbRead_first hw, BitVec.and_assoc, BitVec.and_self]
      · rw [State.clearDummyBits_fbRead_other _ _ _ ha]
    · next hk0 =>
      refine State.clearDummyBits_fbRead_other _ _ _ fun ha => hk0 ?_
      exact (s.cfg.byteAddr_inj (List.mem_range.1 hk) s.cfg.bpr_bounds.1 ha).2
  unfold State.rowEvents
  rw [hsent, State.takeTick_cfg]

/-- n ticks of a Running block with no command between them: the rows sent, in order (spec/43_refresh.md R213). -/
theorem ticks_send_rows {s : State} (hinv : s.Inv) (hrunning : s.running = true) (n : Nat) (hn : n ≤ s.ticks.headD 0) :
    ∃ t, Reaches n s t ∧ t.Inv ∧ t.running = true ∧ t.cfg = s.cfg ∧ t.ticks.headD 0 = s.ticks.headD 0 - n ∧
      t.refreshRow.toNat = (s.refreshRow.toNat + n) % s.cfg.height ∧ (∀ r, t.rowEvents r = s.rowEvents r) ∧
      t.trace = s.trace ++ (List.range n).flatMap fun m => s.rowEvents ((s.refreshRow.toNat + m) % s.cfg.height) := by
  induction n with
  | zero =>
    exact ⟨s, Reaches.refl s, hinv, hrunning, rfl, rfl, (Nat.mod_eq_of_lt hinv.refreshRow_lt).symm, fun _ => rfl,
      by simp⟩
  | succ n ih =>
    obtain ⟨t, hreach, htinv, htrunning, hcfg, hticks, hrow, hevents, htrace⟩ := ih (by omega)
    have hdue : t.tickDue = true := by rw [State.tickDue_iff]; omega
    refine ⟨t.takeTick, hreach.snoc (step_tick hdue), htinv.takeTick, by rwa [State.takeTick_running],
      by rwa [State.takeTick_cfg], ?ticks, ?row, fun r => ?events, ?trace⟩
    case ticks =>
      rw [State.takeTick_ticks, List.headD_cons]
      omega
    case row =>
      rw [State.takeTick_of_running htinv htrunning]
      show (BitVec.ofNat 10 ((t.refreshRow.toNat + 1) % t.cfg.height)).toNat = _
      rw [nextRow_toNat, hrow, hcfg, Nat.mod_add_mod, Nat.add_assoc]
    case events => rw [State.takeTick_rowEvents htinv.fb_wf htrunning, hevents]
    case trace =>
      rw [State.takeTick_of_running htinv htrunning]
      show t.trace ++ t.rowEvents t.refreshRow.toNat = _
      rw [htrace, hevents, hrow, List.range_succ, List.flatMap_append, List.append_assoc, List.flatMap_singleton]

/-- Settles O56: the rows sent from row 0 on. -/
theorem ticksGoRoundRobin : Obligations.TicksGoRoundRobin := by
  intro n s hinv hrunning hrow hn
  have hzero : s.refreshRow.toNat = 0 := by rw [hrow]; rfl
  obtain ⟨t, hreach, -, htrunning, -, -, htrow, -, htrace⟩ := ticks_send_rows hinv hrunning n hn
  simp only [hzero, Nat.zero_add] at htrow htrace
  exact ⟨t, hreach, htrow, htrunning, htrace⟩

/-- n ticks of a Stopped block change nothing but how many are due (spec/43_refresh.md R206). -/
theorem ticks_of_stopped {t : State} (hstopped : t.running = false) (n : Nat) (hn : n ≤ t.ticks.headD 0) :
    ∃ u, Reaches n t u ∧ u = { t with ticks := u.ticks } ∧ u.ticks.headD 0 = t.ticks.headD 0 - n ∧
      u.ticks.tail = t.ticks.tail := by
  induction n with
  | zero => exact ⟨t, Reaches.refl t, rfl, rfl, rfl⟩
  | succ n ih =>
    obtain ⟨u, hreach, hframe, hhead, htail⟩ := ih (by omega)
    have hdue : u.tickDue = true := by rw [State.tickDue_iff]; omega
    have hustopped : u.running = false := by rw [hframe]; exact hstopped
    refine ⟨_, hreach.snoc (step_tick_of_stopped hustopped hdue), by rw [hframe], ?_, htail⟩
    show u.ticks.headD 0 - 1 = _
    omega

/-- Settles O57: a Stopped block's ticks are idle, and STOP leaves it Stopped. -/
theorem noTickTransmitsAfterStop : Obligations.NoTickTransmitsAfterStop := by
  refine ⟨fun s hstopped hdue => step_tick_of_stopped hstopped hdue, fun s t n h hn => ?_⟩
  have hstopped : t.running = false := by
    rw [exec_stop, State.stopRefresh_eq] at h
    cases h
    rfl
  exact ticks_of_stopped hstopped n hn

end Sys2Proof.Machine
end

section
/-! RDSTAT (spec/44_system.md R232). -/

namespace Sys2Proof.Machine

/-- The flag byte of the status image, its reserved bits 0. -/
theorem statusFlags_toNat : ∀ (session timer running : Bool) (expected : BitVec 1),
    (0#4 ++ BitVec.ofBool session ++ BitVec.ofBool timer ++ expected ++ BitVec.ofBool running : Byte).toNat =
      running.toNat + 2 * expected.toNat + 4 * timer.toNat + 8 * session.toNat := by
  decide

theorem statusAcc_toNat (acc : BitVec 5) : (0#3 ++ acc : Byte).toNat = acc.toNat := by
  rw [BitVec.toNat_append]
  simp

theorem byteField_toNat {w : Nat} (x : BitVec w) (start : Nat) :
    (x.extractLsb' start 8).toNat = x.toNat / 2 ^ start % 256 := by
  rw [BitVec.extractLsb'_toNat, Nat.shiftRight_eq_div_pow]

/-- The status image as numbers (spec/10_state.md R40). -/
theorem statusImage_toNat (s : State) :
    s.statusImage.map BitVec.toNat =
      [ s.running.toNat + 2 * s.uExp.toNat + 4 * s.timerEn.toNat + 8 * s.sessionOpen.toNat,
        s.uAcc.toNat,
        s.refreshRow.toNat % 256, s.refreshRow.toNat / 256,
        s.curCol.toNat % 256, s.curCol.toNat / 256,
        s.curRow.toNat % 256, s.curRow.toNat / 256,
        s.timerPeriod.toNat % 256, s.timerPeriod.toNat / 256 % 256, s.timerPeriod.toNat / 65536 ] := by
  have hhigh (x : BitVec 10) : x.toNat / 256 % 256 = x.toNat / 256 := by have := x.isLt; omega
  have htop : s.timerPeriod.toNat / 65536 % 256 = s.timerPeriod.toNat / 65536 := by have := s.timerPeriod.isLt; omega
  simp only [State.statusImage, List.map_cons, List.map_nil, statusFlags_toNat, statusAcc_toNat, byteField_toNat,
    Nat.reducePow, Nat.div_one, hhigh, htop]

/-- Settles O58: RDSTAT is one micro-step that answers the status image. -/
theorem rdstatAnswersTheStatusImage : Obligations.RdstatAnswersTheStatusImage := by
  intro s
  have hm : microsOf .rdstat s = [.readStatus] := rfl
  refine ⟨s.statusImage, ?_, statusImage_toNat s⟩
  rw [exec_eq_issue, hm, issue_one]
  rfl

end Sys2Proof.Machine
end
